-- ==== Sys2Proof/Word.lean ====
section
/-! DEFINITION. The word types of WSTX at the widths of spec/00_scope.md rule R13, and the one test on words that the
syntax check needs. Every quantity of the block is unsigned (R14): plain bit vectors where the width is fixed. A buffer
address (`ADDR_W` bits) and a length or index (`LEN_W` bits), whose widths R13 leaves open, are numbers, and every
operation that forms one reduces it modulo its width (log entry 1). -/

namespace Sys2Proof

/-- A value of the cycle counter, an elapsed time or a threshold: `CC_W` = 32 bits, unsigned (R13, R22, R26). -/
abbrev Ticks := BitVec 32

/-- A pin number: `PIN_W` = 4 bits (R13). -/
abbrev PinId := BitVec 4

/-- One bit per pin, bit `p` for pin `p`: the GPIO mask and the pin levels, `N_PINS` = 16 (R13, R32, R37). -/
abbrev PinMask := BitVec 16

/-- A buffer element, and the width of `CUR` and `MASK`: `BYTE_W` = 8 (R13). -/
abbrev Byte := BitVec 8

/-- Exactly one bit of `x` is set (R24 of `MASK`, R75 of `gpio_mask`). -/
def oneHot (w : Nat) (x : BitVec w) : Bool := (List.range w).any fun i => x == BitVec.twoPow w i

end Sys2Proof
end

