-- ==== Sys2Proof/Config.lean ====
section
/-! DEFINITION. The implementation parameters of spec/00_scope.md rule R13: the four OPEN ones as an argument of the model,
the fixed ones as constants. No instruction of WSTX leaves a result undefined, so the model has no free value (NOTES.md,
Assumptions). -/

namespace Sys2Proof

/-- The OPEN parameters of R13 (U32), with their defaults. A machine holds its own in `State.params`, where no step changes
them (log entry 1). -/
structure Params where
  /-- `ADDR_W`: width of a buffer address. -/
  addrW : Nat := 32
  /-- `LEN_W`: width of `length` and of `IDX`. -/
  lenW : Nat := 32
  /-- `CC_STRIDE`: counter ticks between two consecutive engine steps. -/
  ccStride : Nat := 1
  /-- `LATCH_US`: the least low time the host leaves between two frames, in microseconds. -/
  latchUs : Nat := 50
  deriving DecidableEq, Repr

/-- The size of the buffer address space in bytes, `2 ^ ADDR_W` (R30). -/
def Params.addrSpace (q : Params) : Nat := 2 ^ q.addrW

/-- The number of lengths, `2 ^ LEN_W` (R13, R133). -/
def Params.lenSpace (q : Params) : Nat := 2 ^ q.lenW

/-- The stride as a counter value. -/
def Params.stride (q : Params) : Ticks := BitVec.ofNat 32 q.ccStride

/-- Parameters a machine can have: the widths are at least one bit, and samples advance by a positive amount (R139), so small
that the time from a rise to any sample compared with it, at most the greatest threshold, 200 (R106), and two strides,
stays below one wraparound of the counter (R136, R219). -/
def Params.legal (q : Params) : Bool :=
  decide (0 < q.addrW) && decide (0 < q.lenW) && decide (0 < q.ccStride) && decide (2 * q.ccStride + 200 < 2 ^ 32)

namespace Config

/-- The defaults of R13. -/
def defaults : Params := {}

/-- `FREQ_SET`: the supported values of `cpu_mhz`, in counter ticks per microsecond (R13, R76). -/
def freqSet : List (BitVec 8) := [80, 160]

/-- The number of pins of the GPIO port (R13, R191). -/
def nPins : Nat := 16

end Config

end Sys2Proof
end

