-- ==== Sys2Proof/Syntax.lean ====
section
/-! DEFINITION. The formats of spec/30_encoding.md and the instructions: one constructor of `Instr` per row of
spec/opcode_table.json. "Instruction" has the four senses of R9: the host command, the engine operations, the
platform capability operations and the line symbols; the table adds the three state codes. A constructor holds
every bit its row's pattern leaves free, the ignored ones too, so that no bit of an encoding is dropped. -/

namespace Sys2Proof

/-- The formats of R70. The format `FRQ` stands twice because its word has two uses: `frq` is a code presented on the
port `cpu_mhz` (R76, R154), `cal` is a code given to the lookup CALIBRATE (R105); log entry 3. -/
inductive Format where
  /-- The command descriptor on the command ports (R71). -/
  | cmd
  /-- The step-select word the engine forms at each step (R72). -/
  | step
  /-- A state code (R74). -/
  | fsm
  /-- A write on the GPIO port (R75). -/
  | gpw
  /-- A clock-frequency code presented on `cpu_mhz` (R76). -/
  | frq
  /-- A clock-frequency code given to the lookup of R105. -/
  | cal
  /-- A line symbol (R77). -/
  | sym
  /-- A counter sample (R78). -/
  | ctr
  deriving DecidableEq, Repr

/-- The instructions, one per row of spec/opcode_table.json. -/
inductive Instr where
  /-- TRANSMIT, `CMD` word `{p, a, l}`: pin, buffer address, length (R71, R90). -/
  | transmit (p : PinId) (a : Nat) (l : Nat)
  /-- NOP_IDLE, `STEP` word `000zgbe` (R121). -/
  | nopIdle (z g b e : Bool)
  /-- RETURN0, `STEP` word `0011gbe` (R122). -/
  | return0 (g b e : Bool)
  /-- BEGIN, `STEP` word `0010gbe` (R123). -/
  | beginTx (g b e : Bool)
  /-- SPINP, `STEP` word `01tz0be` (R124). -/
  | spinp (t z b e : Bool)
  /-- RISE, `STEP` word `01tz1be` (R125). -/
  | rise (t z b e : Bool)
  /-- SPINH, `STEP` word `10tz0be` (R126). -/
  | spinh (t z b e : Bool)
  /-- FALL_BIT, `STEP` word `10tz10e` (R127). -/
  | fallBit (t z e : Bool)
  /-- FALL_BYTE, `STEP` word `10tz110` (R128). -/
  | fallByte (t z : Bool)
  /-- FALL_END, `STEP` word `10tz111` (R129). -/
  | fallEnd (t z : Bool)
  /-- SET_HIGH, `GPW` word `1m` (R75, R151). -/
  | setHigh (m : PinMask)
  /-- SET_LOW, `GPW` word `0m` (R75, R152). -/
  | setLow (m : PinMask)
  /-- READ_CYCLES, `CTR` word: the counter value on `cc` (R78, R153). -/
  | readCycles (v : Ticks)
  /-- FREQ80, `FRQ` code `0x50` on `cpu_mhz` (R76, R154). -/
  | freq80
  /-- FREQ160, `FRQ` code `0xA0` on `cpu_mhz` (R76, R154). -/
  | freq160
  /-- CALIBRATE, the lookup of the thresholds from the `FRQ` code `m` (R105). -/
  | calibrate (m : BitVec 8)
  /-- T0, the line symbol of a 0 bit (R77, R167). -/
  | t0
  /-- T1, the line symbol of a 1 bit (R77, R166). -/
  | t1
  /-- STATE.IDLE, state code `00` (R28, R74). -/
  | stateIdle
  /-- STATE.WAITP, state code `01` (R28, R74). -/
  | stateWaitp
  /-- STATE.WAITH, state code `10` (R28, R74). -/
  | stateWaith
  deriving DecidableEq, Repr

/-- The format an instruction's word has. -/
def Instr.format : Instr → Format
  | .transmit _ _ _ => .cmd
  | .nopIdle _ _ _ _ => .step
  | .return0 _ _ _ => .step
  | .beginTx _ _ _ => .step
  | .spinp _ _ _ _ => .step
  | .rise _ _ _ _ => .step
  | .spinh _ _ _ _ => .step
  | .fallBit _ _ _ => .step
  | .fallByte _ _ => .step
  | .fallEnd _ _ => .step
  | .setHigh _ => .gpw
  | .setLow _ => .gpw
  | .readCycles _ => .ctr
  | .freq80 => .frq
  | .freq160 => .frq
  | .calibrate _ => .cal
  | .t0 => .sym
  | .t1 => .sym
  | .stateIdle => .fsm
  | .stateWaitp => .fsm
  | .stateWaith => .fsm

end Sys2Proof
end

