-- ==== Sys2Proof/WellFormed.lean ====
section
/-! DEFINITION. Which instructions are well formed: those whose word the spec gives a defined meaning (R81). Every value
of every field of a `CMD`, a `CTR` and a non-reserved `STEP` word is legal (R71, R73, R78); three checks remain. -/

namespace Sys2Proof

/-- The operands of a command fit the widths `ADDR_W` and `LEN_W` of its fields (R13, R71). -/
def Instr.operandsFit (q : Params) : Instr → Bool
  | .transmit _ a l => decide (a < q.addrSpace) && decide (l < q.lenSpace)
  | _ => true

/-- A GPIO write word addresses exactly one pin (R75, R81): "exactly one bit of `m` is set". -/
def Instr.maskOneHot : Instr → Bool
  | .setHigh m => oneHot 16 m
  | .setLow m => oneHot 16 m
  | _ => true

/-- A code given to CALIBRATE is one of the two the block supports (R76, R81, R111). -/
def Instr.codeSupported : Instr → Bool
  | .calibrate m => Config.freqSet.contains m
  | _ => true

/-- The instruction is well formed. -/
def Instr.wellFormed (q : Params) (i : Instr) : Bool := i.operandsFit q && i.maskOneHot && i.codeSupported

end Sys2Proof
end

