-- ==== Sys2Proof/Decode.lean ====
section
/-! DEFINITION. Decoding of a word of each format, total and rejecting by name (spec/30_encoding.md rules R70 to R82), the
encoder written from the same tables, and the reading of an opcode-table word that carries no format. -/

namespace Sys2Proof

/-- Why a word is no instruction. -/
inductive DecodeError where
  /-- The word has a bit set above its format's width (R70). -/
  | tooWide
  /-- The state field is `11`, which is no state (R74, R81). -/
  | reservedState
  /-- A clock-frequency code other than `0x50` and `0xA0` (R76, R81). -/
  | reservedClock
  deriving DecidableEq, Repr

/-- What decoding a word gives. -/
inductive Decoded where
  /-- The word is this instruction. -/
  | ok (i : Instr)
  /-- The word is rejected. -/
  | rejected (e : DecodeError)
  deriving DecidableEq, Repr

/-- The width in bits of a format's word (R70); of a `CMD` word, `PIN_W + ADDR_W + LEN_W`. -/
def Format.width (q : Params) : Format → Nat
  | .cmd => 4 + q.addrW + q.lenW
  | .step => 7
  | .fsm => 2
  | .gpw => 17
  | .frq => 8
  | .cal => 8
  | .sym => 1
  | .ctr => 32

/-- The step decode table of R73, on the fields of R72: `s` bits 6:5, `t` bit 4, `z` bit 3, `g` bit 2, `b` bit 1, `e`
bit 0. -/
def decodeStep (w : Nat) : Decoded :=
  let t := w.testBit 4
  let z := w.testBit 3
  let g := w.testBit 2
  let b := w.testBit 1
  let e := w.testBit 0
  match w / 32 with
  | 0 => .ok (if t then (if z then .return0 g b e else .beginTx g b e) else .nopIdle z g b e)
  | 1 => .ok (if g then .rise t z b e else .spinp t z b e)
  | 2 =>
    .ok (if g then (if b then (if e then .fallEnd t z else .fallByte t z) else .fallBit t z e) else .spinh t z b e)
  | _ => .rejected .reservedState

/-- The state codes of R74. -/
def decodeFsm (w : Nat) : Decoded :=
  match w with
  | 0 => .ok .stateIdle
  | 1 => .ok .stateWaitp
  | 2 => .ok .stateWaith
  | _ => .rejected .reservedState

/-- The two defined clock-frequency codes of R76. -/
def decodeFrq (w : Nat) : Decoded :=
  if w = 0x50 then .ok .freq80 else if w = 0xA0 then .ok .freq160 else .rejected .reservedClock

/-- The fields of a `CMD` word, high bits first: pin, base, length (R71). -/
def decodeCmd (q : Params) (w : Nat) : Decoded :=
  .ok (.transmit (BitVec.ofNat 4 (w / 2 ^ (q.addrW + q.lenW))) (w / 2 ^ q.lenW % 2 ^ q.addrW) (w % 2 ^ q.lenW))

/-- Decode a word of a given format, at the widths `q`. -/
def decode (q : Params) (f : Format) (w : Nat) : Decoded :=
  if w < 2 ^ f.width q then
    match f with
    | .cmd => decodeCmd q w
    | .step => decodeStep w
    | .fsm => decodeFsm w
    | .gpw => .ok (if w.testBit 16 then .setHigh (BitVec.ofNat 16 w) else .setLow (BitVec.ofNat 16 w))
    | .frq => decodeFrq w
    | .cal => .ok (.calibrate (BitVec.ofNat 8 w))
    | .sym => .ok (if w = 1 then .t1 else .t0)
    | .ctr => .ok (.readCycles (BitVec.ofNat 32 w))
  else .rejected .tooWide

/-- A `STEP` word from its fields (R72). -/
def packStep (s : Nat) (t z g b e : Bool) : Nat :=
  s * 32 + t.toNat * 16 + z.toNat * 8 + g.toNat * 4 + b.toNat * 2 + e.toNat

/-- The word of an instruction, in its own format and at the widths `q` (R71 to R78). -/
def encode (q : Params) : Instr → Nat
  | .transmit p a l => p.toNat * 2 ^ (q.addrW + q.lenW) + a * 2 ^ q.lenW + l
  | .nopIdle z g b e => packStep 0 false z g b e
  | .return0 g b e => packStep 0 true true g b e
  | .beginTx g b e => packStep 0 true false g b e
  | .spinp t z b e => packStep 1 t z false b e
  | .rise t z b e => packStep 1 t z true b e
  | .spinh t z b e => packStep 2 t z false b e
  | .fallBit t z e => packStep 2 t z true false e
  | .fallByte t z => packStep 2 t z true true false
  | .fallEnd t z => packStep 2 t z true true true
  | .setHigh m => 2 ^ 16 + m.toNat
  | .setLow m => m.toNat
  | .readCycles v => v.toNat
  | .freq80 => 0x50
  | .freq160 => 0xA0
  | .calibrate m => m.toNat
  | .t0 => 0
  | .t1 => 1
  | .stateIdle => 0
  | .stateWaitp => 1
  | .stateWaith => 2

/-- The format a table word of one whole byte is read in. The formats `STEP`, `FRQ`, `SYM` and `FSM` all fit a byte and a
table word carries no format, so one reading is chosen per value: the symbol T1 and the state code WAITH at their own
values, the two clock codes at theirs, every other value of 7 bits as a `STEP` word, and the rest as a CALIBRATE code
(log entry 4). -/
def byteFormat (w : Nat) : Format :=
  if w = 1 then .sym else if w = 2 then .fsm else if w = 0x50 ∨ w = 0xA0 then .frq else if w < 128 then .step else .cal

/-- The format a table word of `nbits` bits is read in: by its exact width, or by its width in whole bytes. -/
def tableFormat (nbits w : Nat) : Option Format :=
  match nbits with
  | 68 => some .cmd
  | 72 => some .cmd
  | 17 => some .gpw
  | 24 => some .gpw
  | 32 => some .ctr
  | 8 => some (byteFormat w)
  | 7 => some .step
  | 2 => some .fsm
  | 1 => some .sym
  | _ => none

/-- The instruction the decoder reads from an opcode-table word, whose `CMD` row has the default widths. -/
def decodeTableWord (nbits w : Nat) : Option Instr :=
  match tableFormat nbits w with
  | none => none
  | some f =>
    match decode Config.defaults f w with
    | .ok i => some i
    | .rejected _ => none

end Sys2Proof
end

