-- ==== Sys2Proof/Machine/State.lean ====
section
/-! DEFINITION. The state of the machine as plain data: the eleven registers of the block (spec/10_state.md rule R20), its
ports (R32), the platform around it that the rules speak of (pins, counter, buffer memory, interrupt mask: R37), the
record of its GPIO writes (R173), and what the outside world does to it (R10, R84). -/

namespace Sys2Proof.Machine

/-- The FSM state `S`, three values (R28). The fourth 2-bit code is no state and has no constructor (R81, U22). -/
inductive FsmState where
  /-- `00`: no transmission in progress. -/
  | idle
  /-- `01`: pin low, waiting for the previous bit's period to elapse. -/
  | waitp
  /-- `10`: pin high, waiting for the current bit's `target` to elapse. -/
  | waith
  deriving DecidableEq, Repr

/-- `gpio_op` (R54, R75). -/
inductive GpioOp where
  /-- SET: drive high, `gpio_op` = 1. -/
  | set
  /-- CLR: drive low, `gpio_op` = 0. -/
  | clr
  deriving DecidableEq, Repr

/-- A write on the GPIO port: `gpio_op` and `gpio_mask` (R75). -/
structure GpioWrite where
  op : GpioOp
  mask : PinMask
  deriving DecidableEq, Repr

/-- The three thresholds of R22. -/
structure Thresholds where
  short : Ticks
  long : Ticks
  period : Ticks
  deriving DecidableEq, Repr

/-- One entry of `TRACE`: a GPIO write with the counter sample of its step, `H@c` or `L@c` (R173). -/
structure TraceEvent where
  op : GpioOp
  mask : PinMask
  c : Ticks
  deriving DecidableEq, Repr

/-- A read on the buffer port: `mem_addr` and the byte `mem_rdata` taken in the same step (R51). -/
structure MemRead where
  addr : Nat
  data : Byte
  deriving DecidableEq, Repr

/-- A time in which the platform's clock ran at one rate, over now (R222): the tick, counted from reset, at which it ended, and
its rate in ticks per microsecond. -/
structure ClockPhase where
  ended : Nat
  mhz : BitVec 8
  deriving DecidableEq, Repr

/-- The input ports that the host and the platform drive (R32), but for `clk` (a step is one edge of it) and the counter
port `cc`, which moves by itself. -/
structure Ports where
  /-- `rst`: synchronous reset (R210). -/
  rst : Bool
  /-- `start`: command request. -/
  start : Bool
  /-- `pin_in`. -/
  pinIn : PinId
  /-- `base_in`. -/
  baseIn : Nat
  /-- `len_in`. -/
  lenIn : Nat
  /-- `cpu_mhz`: the clock-frequency code (R33). -/
  cpuMhz : BitVec 8
  deriving DecidableEq, Repr

/-- One thing the outside world does to the machine (R10, R84). The machine takes its inputs from `State.inputs` in order;
with none left it is stepped at every clock edge with its ports as they stand (log entry 2). -/
inductive Input where
  /-- A word presented to the machine in its format: a command (`TX`), a counter value, a frequency code, a GPIO write, a
  symbol, a state code or a CALIBRATE code. -/
  | word (f : Format) (w : Nat)
  /-- The host drives the input ports to these levels from here on (R32, R98). -/
  | drive (p : Ports)
  /-- `CC v`: the counter sample in the accepting step of the next `TX` is `v` (R84). -/
  | cc (v : Ticks)
  /-- `FREQ m`: the platform's clock runs at `m` MHz and `cpu_mhz` reports it (R84, R222). -/
  | freq (m : BitVec 8)
  /-- `LEVEL p, v`: the platform makes pin `p` an output at level `v` (PIN_CONFIGURE, R84, R158). -/
  | level (p : PinId) (v : Bool)
  /-- `BUF a: ...`: the host stores bytes from address `a` on (R84). -/
  | buf (a : Nat) (bytes : List Byte)
  /-- `LOCK`: ENTER_CRITICAL, every interrupt source is masked (R155). -/
  | lock
  /-- `UNLOCK`: EXIT_CRITICAL, the masking in force before is restored (R156). -/
  | unlock
  /-- An interrupt source of the platform fires (R155, R182). -/
  | interrupt
  /-- `GAP t`: clock edges pass, with no other input, for at least `t` ticks (R84, R159). -/
  | gap (t : Nat)
  /-- The host waits for `done`: clock edges pass until the block is idle (the second half of `TX`, R84; log entry 27). -/
  | waitDone
  deriving DecidableEq, Repr

/-- Reasons to stop with a fault: none. The block "raises no exception, fault, error code or error signal of any kind"
(R180), so no meaning can raise one. -/
inductive Fault where
  deriving DecidableEq, Repr

/-- Reasons to refuse: the inputs to which the spec gives no meaning (R81, R181). Each errs toward unprovable: safe. -/
inductive Refusal where
  /-- Raised by the dispatcher for an instruction without a meaning; safe. No arm raises it. -/
  | notModelled (mnemonic : String)
  /-- `Precondition.PinNotOutput`: raised by BEGIN (and so by TRANSMIT) and by the symbols T0 and T1 for a pin that is not
  an output (R91, U1); safe. -/
  | pinNotOutput
  /-- `Precondition.BufferInvalid`: raised by BEGIN (and TRANSMIT) for a buffer with fewer than `length` stored bytes, and
  by FALL_BYTE for a byte that is not stored (R92, U2); safe. -/
  | bufferInvalid
  /-- `BufferWraps`: raised by BEGIN (and TRANSMIT) when `base + length > 2^ADDR_W`, and by the host's `BUF` past the last
  address (R30, U27); safe. -/
  | bufferWraps
  /-- `Precondition.BufferChanged`: raised by the host's `BUF` when it changes a byte of the buffer in transmission (R53,
  R221, U28); safe. -/
  | bufferChanged
  /-- `Precondition.Interrupted`: the engine of a busy block is not stepped at every edge. Raised by an interrupt that is
  taken while the block is busy (R155, U3), by a symbol T0 or T1 given then for another pin, which would let edges pass
  (R215), and by READ_CYCLES then for a counter that has run 2^32 ticks or more past `START` (R219, U11); safe. -/
  | interrupted
  /-- `UnsupportedClock`: raised by BEGIN (and TRANSMIT), by CALIBRATE and by the symbols T0 and T1 for a code other than 80
  and 160 (R105, R111, U12); safe. -/
  | unsupportedClock
  /-- `Precondition.ClockChanged`: raised by `FREQ` when it changes the clock rate while the block is busy (R113, U29);
  safe. -/
  | clockChanged
  /-- `Precondition.PinShared`: raised by SET_HIGH, SET_LOW, T0, T1 and the host's `LEVEL` on the pin of the transmission in
  progress (R55, U8); safe. -/
  | pinShared
  /-- `Precondition.PinNotLow`: raised by BEGIN (and TRANSMIT) and by the symbols T0 and T1 on a pin that is high (R223,
  U25); safe. -/
  | pinNotLow
  /-- `Precondition.NoLatchGap`: raised by BEGIN (and TRANSMIT) when the pin has not been low for more than the latch gap
  (R181: "less than the latch gap since the previous frame", a run that gets "no meaning"; R171; U9: "`refuse`"); safe. -/
  | noLatchGap
  /-- `Precondition.CounterStopped`: raised by READ_CYCLES while the block is busy, for the sample of the last clock edge
  again (R188, U31); safe. -/
  | counterStopped
  /-- A counter sample that runs backwards while the block is busy: raised by READ_CYCLES (R189: "it may never let a sample
  go backwards other than by wraparound"; R139); safe. -/
  | counterBackwards
  /-- A word with no meaning: a reserved or too wide word, raised by the step, and a GPIO write whose mask is not one-hot,
  raised by SET_HIGH and SET_LOW (R81); safe. -/
  | reservedEncoding
  /-- A `STEP` word offered from outside: the engine alone forms it (R70, R72). Raised by the step; safe. -/
  | engineWord
  /-- `UNLOCK` with no `LOCK` before it (R156, R157): raised by the step; safe. -/
  | unlockUnpaired
  deriving DecidableEq, Repr

/-- The pixel buffer's memory: the bytes the host has stored, by address, addresses strictly rising. An address that is
not listed holds no stored byte (log entry 5). -/
abbrev Memory := List Host.Cell

/-- The state of the machine. -/
@[ext]
structure State where
  /-- The OPEN parameters of the machine (R13, U32): no step changes them. -/
  params : Params
  /-- Register `S` (R28). -/
  fsm : FsmState
  /-- Register `PIN` (R21). -/
  pin : PinId
  /-- Register `BASE` (R21). -/
  base : Nat
  /-- Register `LEN` (R21). -/
  len : Nat
  /-- Register `TH_SHORT` (R22). -/
  thShort : Ticks
  /-- Register `TH_LONG` (R22). -/
  thLong : Ticks
  /-- Register `TH_PERIOD` (R22). -/
  thPeriod : Ticks
  /-- Register `CUR` (R23). -/
  cur : Byte
  /-- Register `MASK` (R24). -/
  mask : Byte
  /-- Register `IDX` (R25). -/
  idx : Nat
  /-- Register `START`, the document's `startTime` (R26). -/
  startTime : Ticks
  /-- The input ports (R32). -/
  ports : Ports
  /-- The port `cc`: the counter value the next clock edge will sample (R32, R188). -/
  cc : Ticks
  /-- Output `done` of the last clock edge (R34). -/
  done : Bool
  /-- Outputs `gpio_we` (a write is present), `gpio_op`, `gpio_mask` of the last clock edge (R32, R54, U21). -/
  gpio : Option GpioWrite
  /-- Outputs `mem_re` (a read is present), `mem_addr` and the input `mem_rdata` of the last clock edge (R32, R51, U21). -/
  memRead : Option MemRead
  /-- `c`: the counter sample of the last clock edge (R14, R120). -/
  c : Ticks
  /-- The value READ_CYCLES last returned (R153). -/
  cycles : Ticks
  /-- The thresholds the lookup CALIBRATE last returned (R105). The registers `TH_*` are loaded by BEGIN alone (R22). -/
  calResult : Thresholds
  /-- The step-select word the engine last formed (R72). -/
  stepSel : BitVec 7
  /-- The pin levels `LVL[0..15]` (R20, R37). -/
  lvl : PinMask
  /-- Which pins are configured as digital outputs (R37, R91, R158). -/
  pinOut : PinMask
  /-- The pixel buffer's memory (R36, R51). -/
  mem : Memory
  /-- The rate of the platform's clock, in ticks per microsecond (R189, R222). -/
  clkMhz : BitVec 8
  /-- Ghost: the times before in which the clock ran at another rate, newest first; it gives ticks their length (R171, R222; log
  entry 8). -/
  clockPast : List ClockPhase
  /-- Every interrupt source is masked (R37, R155). -/
  intMasked : Bool
  /-- The maskings that UNLOCK will restore, innermost first (R156). -/
  maskSaved : List Bool
  /-- Ghost `TRACE`: the GPIO writes, newest first (R37, R173). -/
  trace : List TraceEvent
  /-- Ghost: ticks since reset, not wrapped; it times the latch gap (R171; log entry 8). -/
  now : Nat
  /-- Ghost: for each pin, when it last went from high to low (or, at power-up, when its first latch gap began); `none` if
  it has not and its gap has passed (R171, R213; log entry 8). -/
  fellAt : List (Option Nat)
  /-- The sample a `CC v` has set for the accepting step of the next `TX` (R84). -/
  ccNext : Option Ticks
  /-- What the outside world does next, first thing first (R10, R84; log entry 2). -/
  inputs : List Input
  deriving DecidableEq, Repr

/-- The machine right after reset: `S` is IDLE and the strobes are 0 (R39, R210). Every other field is unspecified by the
spec; its value here is named in log entries 1, 5, 6, 7, 8 and 11 (no statement but InvariantAtReset and those that name
this state rests on one). -/
def State.reset : State where
  params := Config.defaults
  fsm := .idle
  pin := 0
  base := 0
  len := 0
  thShort := 24
  thLong := 48
  thPeriod := 100
  cur := 0
  mask := 0
  idx := 0
  startTime := 0
  ports := { rst := false, start := false, pinIn := 0, baseIn := 0, lenIn := 0, cpuMhz := 0x50 }
  cc := 0
  done := false
  gpio := none
  memRead := none
  c := 0
  cycles := 0
  calResult := { short := 24, long := 48, period := 100 }
  stepSel := 0
  lvl := 0
  pinOut := 0xFFFF
  mem := []
  clkMhz := 0x50
  clockPast := []
  intMasked := false
  maskSaved := []
  trace := []
  now := 0
  fellAt := List.replicate Config.nPins none
  ccNext := none
  inputs := []

/-- The machine right after power-up: the reset state, in which the first latch gap has not passed yet on any pin (R171,
R213, R214; log entry 8). -/
def State.powerUp : State := { State.reset with fellAt := List.replicate Config.nPins (some 0) }

end Sys2Proof.Machine
end

