-- ==== Sys2Proof/Machine/Operands.lean ====
section
/-! DEFINITION. The assembled operand values of spec/30_encoding.md rule R80 (GPIO mask, buffer address, thresholds), the
state codes, the number of edges in a time, and the receiver's classification of a pulse (R172). -/

namespace Sys2Proof.Machine

/-- The 2-bit code of an FSM state (R28, R74). -/
def FsmState.code : FsmState → Nat
  | .idle => 0
  | .waitp => 1
  | .waith => 2

/-- `gpio_mask = zext_16(1) << PIN` (R75, R80). -/
def gpioMask (p : PinId) : PinMask := (1 : PinMask) <<< p.toNat

/-- The address of the next byte to fetch, `BASE + IDX` in the address width (R80, R133). -/
def bufAddr (q : Params) (base : Nat) (idx : Nat) : Nat := (base + idx) % q.addrSpace

/-- `IDX + 1` in the width of `IDX` (R133). -/
def nextIndex (q : Params) (idx : Nat) : Nat := (idx + 1) % q.lenSpace

/-- The command ports carry `ADDR_W` and `LEN_W` bits (R32). -/
def Ports.fit (q : Params) (p : Ports) : Ports :=
  { p with baseIn := p.baseIn % q.addrSpace, lenIn := p.lenIn % q.lenSpace }

/-- `Calibrate` (R105, R106): the two-row table; any other code has no thresholds (R111). -/
def calibrate (m : BitVec 8) : Option Thresholds :=
  if m = 80 then some { short := 24, long := 48, period := 100 }
  else if m = 160 then some { short := 48, long := 96, period := 200 }
  else none

/-- `CPU_FREQUENCY` (R154): the code the port `cpu_mhz` carries for a clock of `hz` hertz, `hz / 1_000_000` (R33). The spec
states that relation for the clocks it supports; that a clock which is no whole number of MHz, or whose number does not
fit the 8-bit port, has no code is the model's choice (log entry 24). No step uses this. -/
def cpuMhzOfHz (hz : Nat) : Option (BitVec 8) :=
  if hz % 1000000 = 0 ∧ hz / 1000000 < 256 then some (BitVec.ofNat 8 (hz / 1000000)) else none

/-- The number of clock edges after which at least `t` ticks have passed (R139). -/
def edgesFor (q : Params) (t : Nat) : Nat := (t + q.ccStride - 1) / q.ccStride

/-- What a receiver takes a pulse for (R172). -/
inductive Class where
  | zero
  | one
  | invalid
  deriving DecidableEq, Repr

/-- `Classify(h, m)`: a high time of `h` ticks at `m` ticks per microsecond, the windows 0.20 to 0.50 and 0.55 to 0.85
microseconds, edges inclusive (R172); in hundredths of a microsecond, so that no fraction is rounded. -/
def classify (h m : Nat) : Class :=
  if 20 * m ≤ 100 * h ∧ 100 * h ≤ 50 * m then .zero
  else if 55 * m ≤ 100 * h ∧ 100 * h ≤ 85 * m then .one
  else .invalid

end Sys2Proof.Machine
end

