-- ==== Sys2Proof/Machine/Flags.lean ====
section
/-! DEFINITION. The conditions of spec/10_state.md rule R31 and the step-select word of R72. The block stores no flag: each
condition is a function of the registers, the input ports and the sample `c` of the current step. -/

namespace Sys2Proof.Machine

/-- Output `busy = (S != IDLE)` (R34). -/
def busy (s : State) : Bool := s.fsm != .idle

/-- `elapsed = c -32 START`, unsigned and modulo 2^32 (R130). -/
def elapsed (s : State) : Ticks := s.c - s.startTime

/-- `lenz`: `len_in` is zero (R31). -/
def lenz (s : State) : Bool := s.ports.lenIn == 0

/-- `bit1`: the current data bit (R31, R77). -/
def bit1 (s : State) : Bool := (s.cur &&& s.mask) != 0

/-- `target`: the high time of the current bit (R27, R131). -/
def target (s : State) : Ticks := if bit1 s then s.thLong else s.thShort

/-- `ge`: the comparator, an unsigned comparison of the elapsed time with the threshold of the state; 0 in IDLE (R31,
R130). -/
def ge (s : State) : Bool :=
  match s.fsm with
  | .idle => false
  | .waitp => decide (s.thPeriod ≤ elapsed s)
  | .waith => decide (target s ≤ elapsed s)

/-- `lastbit`: the mask is at the least significant bit (R31). -/
def lastbit (s : State) : Bool := s.mask == 1

/-- `lastbyte`: the index of the next byte is the length (R31, R133). -/
def lastbyte (s : State) : Bool := s.idx == s.len

/-- The step-select word `{S, start, lenz, ge, lastbit, lastbyte}` (R72). -/
def stepWord (s : State) : BitVec 7 :=
  BitVec.ofNat 7 (packStep s.fsm.code s.ports.start (lenz s) (ge s) (lastbit s) (lastbyte s))

/-- The pulse number being prepared or sent, `k = 8 * (IDX - 1) + n`, `n` counting the positions of `MASK` from `0x80`
(R29). -/
def pulseNumber (s : State) : Nat := 8 * (s.idx - 1) + (7 - Nat.log2 s.mask.toNat)

end Sys2Proof.Machine
end

