-- ==== Sys2Proof/Machine/Ops.lean ====
section
/-! DEFINITION. The shared operations: buffer memory, the GPIO write, the counter, a clock edge, reset.

Taking an exception and returning from one have no operation here: the block has neither. "There is no trap entry. No
state is saved, no mode or mask changes, control goes nowhere" (spec/60_exceptions.md rule R184), and "There is no trap
return" (R185); what stands in their place are the refusals of R181. -/

namespace Sys2Proof.Machine

/-- Change the next state of an outcome; a stop stays as it is. -/
def mapNext (f : State → State) : Host.Outcome State Fault Refusal → Host.Outcome State Fault Refusal
  | .next t => .next (f t)
  | .fault r => .fault r
  | .refused r => .refused r

/-! ### The pixel buffer's memory (R51 to R53) -/

/-- The canonical form: addresses strictly rising, from `lo` on. -/
def Memory.wfFrom : Nat → Memory → Bool
  | _, [] => true
  | lo, (a, _) :: m => decide (lo ≤ a) && Memory.wfFrom (a + 1) m

/-- A memory is in canonical form. -/
def Memory.wf (m : Memory) : Bool := Memory.wfFrom 0 m

/-- Every stored byte lies inside an address space of `n` bytes (R30). -/
def Memory.within (n : Nat) : Memory → Bool
  | [] => true
  | (a, _) :: m => decide (a < n) && Memory.within n m

/-- `MemRead(a, 1)`: the byte the host stored at `a`, if it has stored one (R51; log entry 5). -/
def Memory.read : Memory → Nat → Option Byte
  | [], _ => none
  | (b, v) :: m, a => if b = a then some v else Memory.read m a

/-- The host stores the byte `v` at `a`; the canonical form is kept. -/
def Memory.write : Memory → Nat → Byte → Memory
  | [], a, v => [(a, v)]
  | (b, u) :: m, a, v =>
    if a < b then (a, v) :: (b, u) :: m
    else if a = b then (a, v) :: m
    else (b, u) :: Memory.write m a v

/-- The host stores bytes at `a`, `a + 1`, ... (the statement `BUF`, R84). -/
def Memory.writeAll : Memory → Nat → List Byte → Memory
  | m, _, [] => m
  | m, a, v :: vs => Memory.writeAll (Memory.write m a v) (a + 1) vs

/-- The `n` bytes from `a` on are stored: a valid buffer (R92). -/
def Memory.readable (m : Memory) : Nat → Nat → Bool
  | _, 0 => true
  | a, n + 1 => (Memory.read m a).isSome && Memory.readable m (a + 1) n

/-- Storing `vs` from `a` on changes a stored byte of the `n` bytes from `lo` on (R53). -/
def Memory.changesWithin (m : Memory) (lo n : Nat) : Nat → List Byte → Bool
  | _, [] => false
  | a, v :: vs =>
    (decide (lo ≤ a) && decide (a < lo + n) && (Memory.read m a != some v)) || Memory.changesWithin m lo n (a + 1) vs

/-! ### The GPIO (R54, R55, R191) -/

/-- The pin levels after a write: the pins of the mask are set or cleared, the others keep their level (R54, R55). -/
def driveLevels (op : GpioOp) (m lvl : PinMask) : PinMask :=
  match op with
  | .set => lvl ||| m
  | .clr => lvl &&& ~~~m

/-- Note the time `t` at every pin, from pin `p` on, that is high in `before` and low in `after`. -/
def markFalls (before after : PinMask) (t : Nat) : Nat → List (Option Nat) → List (Option Nat)
  | _, [] => []
  | p, f :: fs =>
    (if before.getLsbD p && !after.getLsbD p then some t else f) :: markFalls before after t (p + 1) fs

/-- The pin levels become `l`; the pins that fall are noted. -/
def setLevels (l : PinMask) (s : State) : State :=
  { s with lvl := l, fellAt := markFalls s.lvl l s.now 0 s.fellAt }

/-- A write on the GPIO port: the port shows it, the levels change in this step (R54). -/
def drivePort (op : GpioOp) (m : PinMask) (s : State) : State :=
  { setLevels (driveLevels op m s.lvl) s with gpio := some { op := op, mask := m } }

/-- `GpioWrite(op, m)` of the block: a write on the port that enters `TRACE` with the sample `c` of its step (R54, R173). -/
def gpioWrite (op : GpioOp) (m : PinMask) (s : State) : State :=
  { drivePort op m s with trace := { op := op, mask := m, c := s.c } :: s.trace }

/-- A time of `num / den` microseconds and then `n` ticks of a clock of `mhz` ticks per microsecond. Ticks of a clock of rate 0
have no length and add none (log entry 8). -/
def addTicks (n mhz : Nat) (x : Nat × Nat) : Nat × Nat :=
  if mhz = 0 then x else (x.1 * mhz + n * x.2, x.2 * mhz)

/-- The time from tick `t` to tick `e`, in microseconds as a fraction: each tick has the length it had at the rate the clock
then ran at, `mhz` in the last phase, before it those of `past` (R189, R222). -/
def microsSince (t e mhz : Nat) : List ClockPhase → Nat × Nat
  | [] => addTicks (e - t) mhz (0, 1)
  | ph :: past =>
    if ph.ended ≤ t then addTicks (e - t) mhz (0, 1)
    else addTicks (e - ph.ended) mhz (microsSince t ph.ended ph.mhz.toNat past)

/-- The latch gap before a frame on pin `p`: no gap is owed, or the pin fell more than `LATCH_US` microseconds ago, by the
clock's rate at each tick since (R171, R181, R222; log entry 8). -/
def latchGapMet (s : State) (p : PinId) : Bool :=
  match s.fellAt.getD p.toNat none with
  | none => true
  | some t =>
    let us := microsSince t s.now s.clkMhz.toNat s.clockPast
    decide (s.params.latchUs * us.2 < us.1)

/-! ### The counter and the clock edge (R120, R188 to R190) -/

/-- The counter runs on to the value `v` with no clock edge (R139, R186). -/
def runOn (v : Ticks) (s : State) : State := { s with cc := v, now := s.now + (v - s.cc).toNat }

/-- The counter is sampled and counts on by one stride (R153, R189). -/
def sampleCounter (s : State) : State :=
  { s with c := s.cc, cycles := s.cc, cc := s.cc + s.params.stride, now := s.now + s.params.ccStride }

/-- `done`, `gpio_we` and `mem_re` are 0 in a step unless its operation says otherwise (R120). -/
def clearOutputs (s : State) : State := { s with done := false, gpio := none, memRead := none }

/-- The engine forms the step-select word (R72). -/
def formWord (s : State) : State := { s with stepSel := stepWord s }

/-- The engine's part of a clock edge before its operation: the outputs are cleared, the counter is sampled, the
step-select word is formed (R120). -/
def clockEdge (s : State) : State := formWord (sampleCounter (clearOutputs s))

/-- A clock edge with `rst = 1`: `S` becomes IDLE, the strobes are 0, nothing else of the block is written, and the
counter, which the block does not own, counts on (R210, R188). With the block busy the transmission is abandoned, the pin at
the level of its last write (R212), and the run goes on; that it does not end there is the model's choice among the two
that R212 offers (log entry 27). -/
def resetEdge (s : State) : State :=
  { clearOutputs s with
    fsm := .idle
    cc := s.cc + s.params.stride
    now := s.now + s.params.ccStride }

/-- `n` clock edges of an idle block with no command on its ports: all of them but the last only let the counter run on. -/
def idleEdges : Nat → State → State
  | 0, s => s
  | n + 1, s =>
    clockEdge { s with cc := s.cc + BitVec.ofNat 32 (n * s.params.ccStride), now := s.now + n * s.params.ccStride }

/-- `x[S] <- f` (R14). -/
def setFsm (f : FsmState) (s : State) : State := { s with fsm := f }

/-- `x[START] <- v` (R26). -/
def setStart (v : Ticks) (s : State) : State := { s with startTime := v }

/-- The three threshold registers are loaded together (R22). -/
def setThresholds (t : Thresholds) (s : State) : State :=
  { s with thShort := t.short, thLong := t.long, thPeriod := t.period }

/-- The FSM code `f` fills the field `s` (bits 6:5) of the step-select word (R72, R85; log entry 10). -/
def selectState (f : FsmState) (s : State) : State :=
  { s with stepSel := BitVec.ofNat 7 (f.code * 32 + s.stepSel.toNat % 32) }

/-- The command descriptor on the ports, with `start = 1` (R71, R90). -/
def present (p : PinId) (a : Nat) (l : Nat) (s : State) : State :=
  { s with ports := Ports.fit s.params { s.ports with start := true, pinIn := p, baseIn := a, lenIn := l } }

/-- `start` back to 0 (R98). -/
def dropStart (s : State) : State := { s with ports := { s.ports with start := false } }

end Sys2Proof.Machine
end

