-- ==== Sys2Proof/Machine/Idle.lean ====
section
/-! DEFINITION. The engine operations performed in `IDLE` (spec/42_fsm_steps.md rules R121 to R123). Each is the operation
alone: the clock edge around it is `clockEdge`. -/

namespace Sys2Proof.Machine

/-- NOP_IDLE (R121): nothing. -/
def execNopIdle (s : State) : Host.Outcome State Fault Refusal := .next s

/-- RETURN0 (R122): `done`, and nothing else. -/
def execReturn0 (s : State) : Host.Outcome State Fault Refusal := .next { s with done := true }

/-- The first violated precondition of a command of non-zero length on the ports, in the order of the table of R181 with
`BufferWraps` before `BufferInvalid` (log entry 9). -/
def beginRefusal (s : State) : Option Refusal :=
  if s.pinOut.getLsbD s.ports.pinIn.toNat = false then some .pinNotOutput
  else if s.params.addrSpace < s.ports.baseIn + s.ports.lenIn then some .bufferWraps
  else if Memory.readable s.mem s.ports.baseIn s.ports.lenIn = false then some .bufferInvalid
  else if calibrate s.ports.cpuMhz = none then some .unsupportedClock
  else if s.lvl.getLsbD s.ports.pinIn.toNat = true then some .pinNotLow
  else if latchGapMet s s.ports.pinIn = false then some .noLatchGap
  else none

/-- What BEGIN does once its operands are known: `th` the thresholds of `cpu_mhz`, `b` the byte at `base_in` (R123). -/
def beginState (th : Thresholds) (b : Byte) (s : State) : State :=
  { setThresholds th s with
    calResult := th
    pin := s.ports.pinIn
    base := s.ports.baseIn
    len := s.ports.lenIn
    startTime := 0
    cur := b
    idx := 1
    mask := 0x80
    fsm := .waitp
    memRead := some { addr := s.ports.baseIn, data := b } }

/-- BEGIN (R123): refused where a precondition of R181 is violated; else the operands are latched, the thresholds looked
up, byte 0 read, and the block goes to `WAITP`. -/
def execBegin (s : State) : Host.Outcome State Fault Refusal :=
  match beginRefusal s with
  | some r => .refused r
  | none =>
    match calibrate s.ports.cpuMhz, Memory.read s.mem s.ports.baseIn with
    | some th, some b => .next (beginState th b s)
    | none, _ => .refused .unsupportedClock
    | some _, none => .refused .bufferInvalid

end Sys2Proof.Machine
end

