-- ==== Sys2Proof/Machine/Wait.lean ====
section
/-! DEFINITION. The engine operations performed in `WAITP` and `WAITH` (spec/42_fsm_steps.md rules R124 to R129). Each is
the operation alone: the clock edge around it, and the choice of the operation, are the step's. -/

namespace Sys2Proof.Machine

/-- SPINP (R124): nothing; one turn of the busy-wait for the period. -/
def execSpinp (s : State) : Host.Outcome State Fault Refusal := .next s

/-- RISE (R125): SET on `PIN`, `START <- c`, `S <- WAITH`. -/
def execRise (s : State) : Host.Outcome State Fault Refusal :=
  .next (setFsm .waith (setStart s.c (gpioWrite .set (gpioMask s.pin) s)))

/-- SPINH (R126): nothing; one turn of the busy-wait for `target`. -/
def execSpinh (s : State) : Host.Outcome State Fault Refusal := .next s

/-- FALL_BIT (R127): CLR on `PIN`, `MASK <- MASK >> 1`, `S <- WAITP`. -/
def execFallBit (s : State) : Host.Outcome State Fault Refusal :=
  .next (setFsm .waitp { gpioWrite .clr (gpioMask s.pin) s with mask := s.mask >>> 1 })

/-- FALL_BYTE (R128): CLR on `PIN`, the next byte is read into `CUR`, `IDX <- IDX + 1`, `MASK <- 0x80`, `S <- WAITP`. A
byte that is not stored is the violated precondition of R92. -/
def execFallByte (s : State) : Host.Outcome State Fault Refusal :=
  match Memory.read s.mem (bufAddr s.params s.base s.idx) with
  | none => .refused .bufferInvalid
  | some b =>
    .next (setFsm .waitp
      { gpioWrite .clr (gpioMask s.pin) s with
        cur := b
        idx := nextIndex s.params s.idx
        mask := 0x80
        memRead := some { addr := bufAddr s.params s.base s.idx, data := b } })

/-- FALL_END (R129): CLR on `PIN`, `MASK <- 0x00`, `S <- IDLE`, `done`. -/
def execFallEnd (s : State) : Host.Outcome State Fault Refusal :=
  .next (setFsm .idle { gpioWrite .clr (gpioMask s.pin) s with mask := 0, done := true })

end Sys2Proof.Machine
end

