-- ==== Sys2Proof/Machine/Command.lean ====
section
/-! DEFINITION. The host command TRANSMIT (spec/40_transmit_command.md), and the step function of R120 in its written-out
form, which the command's accepting step performs. -/

namespace Sys2Proof.Machine

/-- The case distinction of R120's `step`, on a state whose counter has been sampled. -/
def engineCase (s : State) : Host.Outcome State Fault Refusal :=
  match s.fsm with
  | .idle => if s.ports.start = false then execNopIdle s else if s.ports.lenIn = 0 then execReturn0 s else execBegin s
  | .waitp => if s.thPeriod ≤ elapsed s then execRise s else execSpinp s
  | .waith =>
    if target s ≤ elapsed s then
      if s.mask ≠ 1 then execFallBit s else if s.idx ≠ s.len then execFallByte s else execFallEnd s
    else execSpinh s

/-- One clock edge (R120): reset with `rst = 1` (R210), else one engine operation. -/
def engineEdge (s : State) : Host.Outcome State Fault Refusal :=
  if s.ports.rst then .next (resetEdge s) else engineCase (clockEdge s)

/-- The counter stands at the sample a `CC v` has set for the accepting step; where none is set, or this is no accepting step,
nothing changes (R84, R98). -/
def takeSample (s : State) : State :=
  match s.ccNext with
  | some v => if busy s || s.ports.rst then s else { runOn v s with ccNext := none }
  | none => s

/-- TRANSMIT (R90, R98): the command is presented with `start = 1` for one clock edge. In `IDLE` that edge accepts it
(RETURN0 or BEGIN); while the block is busy the request is ignored and the edge performs the operation it would perform
anyway (R99). The pulses follow, one engine operation a clock edge, until `done` (R97, R137; log entry 2). A sample set by `CC v` is that edge's sample (R84). -/
def execTransmit (p : PinId) (a : Nat) (l : Nat) (s : State) : Host.Outcome State Fault Refusal :=
  mapNext dropStart (engineEdge (present p a l (takeSample s)))

end Sys2Proof.Machine
end

