-- ==== Sys2Proof/Machine/Line.lean ====
section
/-! DEFINITION. The line symbols T0 and T1 (spec/44_line_protocol.md rules R166 and R167) and the three state codes
(spec/10_state.md rule R28). -/

namespace Sys2Proof.Machine

/-- One pulse on pin `p` at the clock edges of an idle block: SET at the next edge, CLR at the first edge at least `high` ticks
later, and the edges up to the one at which a next pulse may rise, at least `period` ticks after this rise (R165 to
R168). -/
def pulse (p : PinId) (high period : Ticks) (s : State) : State :=
  let fall := edgesFor s.params high.toNat
  idleEdges (edgesFor s.params period.toNat - fall - 1)
    (gpioWrite .clr (gpioMask p) (idleEdges fall (gpioWrite .set (gpioMask p) (clockEdge s))))

/-- A symbol by a word of its own, `high` its high time: one pulse on the pin `pin_in`, with the thresholds of the clock code
`cpu_mhz`. No register is read or written: `PIN`, `TH_*` and `START` are the engine's (R20, R38). The symbol takes the
clock edges of a whole period, so with `rst = 1` its first edge is a reset and the word is lost (R210), and a busy block,
whose engine no edge may pass by (R215), refuses it. Log entry 14. -/
def symbol (high : Thresholds → Ticks) (s : State) : Host.Outcome State Fault Refusal :=
  if s.ports.rst then .next (resetEdge s)
  else if busy s then .refused (if s.ports.pinIn = s.pin then .pinShared else .interrupted)
  else if s.pinOut.getLsbD s.ports.pinIn.toNat = false then .refused .pinNotOutput
  else
    match calibrate s.ports.cpuMhz with
    | none => .refused .unsupportedClock
    | some th =>
      if s.lvl.getLsbD s.ports.pinIn.toNat then .refused .pinNotLow
      else .next (pulse s.ports.pinIn (high th) th.period (dropStart s))

/-- T0 (R167): high for `shortHigh`, then low until the next pulse. -/
def execT0 (s : State) : Host.Outcome State Fault Refusal := symbol (·.short) s

/-- T1 (R166): high for `longHigh`, then low until the next pulse. -/
def execT1 (s : State) : Host.Outcome State Fault Refusal := symbol (·.long) s

/-- STATE.IDLE (R28): a code, "not an operation": it is the field `s` of the step-select word (log entry 10). -/
def execStateIdle (s : State) : Host.Outcome State Fault Refusal := .next (selectState .idle s)

/-- STATE.WAITP (R28): the code as the field `s` of the step-select word. -/
def execStateWaitp (s : State) : Host.Outcome State Fault Refusal := .next (selectState .waitp s)

/-- STATE.WAITH (R28): the code as the field `s` of the step-select word. -/
def execStateWaith (s : State) : Host.Outcome State Fault Refusal := .next (selectState .waith s)

end Sys2Proof.Machine
end

