-- ==== Sys2Proof/Machine/Platform.lean ====
section
/-! DEFINITION. The platform capability operations (spec/43_platform_primitives.md rules R151 to R154) and the lookup
CALIBRATE (spec/41_calibration.md rule R105). The engine performs them inside its own operations; here each is the
operation by itself, as a word presented to the machine between two clock edges (log entry 2). -/

namespace Sys2Proof.Machine

/-- A GPIO write by a word of its own. A mask that is not one-hot has no meaning (R81); from the accepting step to the `done`
step no write but the engine's may touch the transmission's pin (R55). The write is not the block's own and does not
enter `TRACE` (R173; log entry 15). -/
def gpioWord (op : GpioOp) (m : PinMask) (s : State) : Host.Outcome State Fault Refusal :=
  if oneHot 16 m = false then .refused .reservedEncoding
  else if busy s && m.getLsbD s.pin.toNat then .refused .pinShared
  else .next (drivePort op m s)

/-- SET_HIGH (R151): `LVL[p] <- 1` for the pin of the mask. -/
def execSetHigh (m : PinMask) (s : State) : Host.Outcome State Fault Refusal := gpioWord .set m s

/-- SET_LOW (R152): `LVL[p] <- 0` for the pin of the mask. -/
def execSetLow (m : PinMask) (s : State) : Host.Outcome State Fault Refusal := gpioWord .clr m s

/-- The ticks from the last sample to the counter's value `v`: those to the value on `cc`, which have passed already, and those
from there to `v`. -/
def ticksSince (v : Ticks) (s : State) : Nat := (s.cc - s.c).toNat + (v - s.cc).toNat

/-- `START` is a timestamp: it is not the constant that BEGIN loads and that stands until the first RISE (R26, R135). -/
def startStamped (s : State) : Bool := !(s.fsm == .waitp && s.idx == 1 && s.mask == 0x80)

/-- How far past the sample of the next edge a comparison with the same `START` can come: one stride, where that edge may be a
fall after which the transmission goes on, since the edge after it is compared with `START` again (R125, R127, R128); none
where the next edge that changes `S` rises, and so stamps `START` anew, or is FALL_END. -/
def nextCompare (s : State) : Nat :=
  if s.fsm == .waith && !(lastbit s && lastbyte s) then s.params.ccStride else 0

/-- READ_CYCLES (R153): the counter stands at `v` and is read; reading changes nothing of the counter, so with `v` the value
on `cc` only the value read is recorded. A `v` ahead of `cc` is a counter that has run on meanwhile (a jump in the
samples, R139, R186). While the block is busy the counter neither stops (R188) nor runs backwards (R189): the ticks from
the last sample, over all such words since, are positive and less than 2^32 minus the period (R139), and those from
`START` to every sample that will be compared with it less than 2^32 (R219, U11). Log entry 16. -/
def execReadCycles (v : Ticks) (s : State) : Host.Outcome State Fault Refusal :=
  if busy s && (v == s.c) then .refused .counterStopped
  else if busy s && decide (2 ^ 32 ≤ ticksSince v s + s.thPeriod.toNat) then .refused .counterBackwards
  else if busy s && startStamped s && decide (2 ^ 32 ≤ (s.c - s.startTime).toNat + ticksSince v s + nextCompare s) then
    .refused .interrupted
  else .next { runOn v s with cycles := v }

/-- The code `m` on the port `cpu_mhz` (R154). The block reads the port in BEGIN only, so a transmission in progress is not
affected (R98, R107). -/
def setCpuMhz (m : BitVec 8) (s : State) : State := { s with ports := { s.ports with cpuMhz := m } }

/-- FREQ80 (R76, R154): `cpu_mhz` carries `0x50`. -/
def execFreq80 (s : State) : Host.Outcome State Fault Refusal := .next (setCpuMhz 0x50 s)

/-- FREQ160 (R76, R154): `cpu_mhz` carries `0xA0`. -/
def execFreq160 (s : State) : Host.Outcome State Fault Refusal := .next (setCpuMhz 0xA0 s)

/-- CALIBRATE (R105): the lookup returns the thresholds of the code `m`; a reserved code is refused (R111). The registers
`TH_*` are BEGIN's alone to load (R22, R107; log entry 11). -/
def execCalibrate (m : BitVec 8) (s : State) : Host.Outcome State Fault Refusal :=
  match calibrate m with
  | some th => .next { s with calResult := th }
  | none => .refused .unsupportedClock

end Sys2Proof.Machine
end

