-- ==== Sys2Proof/Machine/Dispatch.lean ====
section
/-! DEFINITION. The dispatcher: one arm per instruction, each one call of that instruction's meaning. -/

namespace Sys2Proof.Machine

def exec (i : Instr) (s : State) : Host.Outcome State Fault Refusal :=
  match i with
  | .transmit p a l => Sys2Proof.Machine.execTransmit p a l s
  | .nopIdle _ _ _ _ => Sys2Proof.Machine.execNopIdle s
  | .return0 _ _ _ => Sys2Proof.Machine.execReturn0 s
  | .beginTx _ _ _ => Sys2Proof.Machine.execBegin s
  | .spinp _ _ _ _ => Sys2Proof.Machine.execSpinp s
  | .rise _ _ _ _ => Sys2Proof.Machine.execRise s
  | .spinh _ _ _ _ => Sys2Proof.Machine.execSpinh s
  | .fallBit _ _ _ => Sys2Proof.Machine.execFallBit s
  | .fallByte _ _ => Sys2Proof.Machine.execFallByte s
  | .fallEnd _ _ => Sys2Proof.Machine.execFallEnd s
  | .setHigh m => Sys2Proof.Machine.execSetHigh m s
  | .setLow m => Sys2Proof.Machine.execSetLow m s
  | .readCycles v => Sys2Proof.Machine.execReadCycles v s
  | .freq80 => Sys2Proof.Machine.execFreq80 s
  | .freq160 => Sys2Proof.Machine.execFreq160 s
  | .calibrate m => Sys2Proof.Machine.execCalibrate m s
  | .t0 => Sys2Proof.Machine.execT0 s
  | .t1 => Sys2Proof.Machine.execT1 s
  | .stateIdle => Sys2Proof.Machine.execStateIdle s
  | .stateWaitp => Sys2Proof.Machine.execStateWaitp s
  | .stateWaith => Sys2Proof.Machine.execStateWaith s

end Sys2Proof.Machine
end

