-- ==== Sys2Proof/Machine/Inputs.lean ====
section
/-! DEFINITION. What the host and the platform do to the machine (spec/30_encoding.md rule R84; spec/43_platform_primitives.md
rules R155 to R159; spec/70_reset_and_hazards.md), each as one input between two clock edges, with the preconditions that
only the outside world can violate; and the statements of R84 that stand for several inputs. -/

namespace Sys2Proof.Machine

/-- The platform's clock runs at `m` from here on; a time at another rate before is noted (R222). -/
def setClock (m : BitVec 8) (s : State) : State :=
  { s with
    clkMhz := m
    clockPast := if m = s.clkMhz then s.clockPast else { ended := s.now, mhz := s.clkMhz } :: s.clockPast }

/-- `FREQ m` (R84): the platform's clock runs at `m` and `cpu_mhz` reports it. The rate is constant while the block is busy
(R113, R222). -/
def inputFreq (m : BitVec 8) (s : State) : Host.Outcome State Fault Refusal :=
  if busy s && (m != s.clkMhz) then .refused .clockChanged
  else .next (setCpuMhz m (setClock m s))

/-- `LEVEL p, v` (R84, R158): pin `p` becomes an output at level `v`. Nobody but the block writes the transmission's pin
while it is busy (R55, R220). -/
def inputLevel (p : PinId) (v : Bool) (s : State) : Host.Outcome State Fault Refusal :=
  if busy s && (p == s.pin) then .refused .pinShared
  else .next { setLevels (driveLevels (if v then .set else .clr) (gpioMask p) s.lvl) s with
    pinOut := s.pinOut ||| gpioMask p }

/-- `BUF a: bytes` (R84): the bytes are stored from `a` on. The buffer of a transmission in progress does not change (R53,
R221); past the last address there is nothing to store to (R30; log entry 25). -/
def inputBuf (a : Nat) (bytes : List Byte) (s : State) : Host.Outcome State Fault Refusal :=
  if s.params.addrSpace < a + bytes.length then .refused .bufferWraps
  else if busy s && Memory.changesWithin s.mem s.base s.len a bytes then .refused .bufferChanged
  else .next { s with mem := Memory.writeAll s.mem a bytes }

/-- `LOCK` (R155): every interrupt source is masked; the masking in force is kept for `UNLOCK`. -/
def inputLock (s : State) : Host.Outcome State Fault Refusal :=
  .next { s with intMasked := true, maskSaved := s.intMasked :: s.maskSaved }

/-- `UNLOCK` (R156): the masking in force before the matching `LOCK` is restored. The spec has the host give it after `done`
and gives no refusal for one given earlier; that it is performed there too is the model's choice (log entry 19). -/
def inputUnlock (s : State) : Host.Outcome State Fault Refusal :=
  match s.maskSaved with
  | m :: ms => .next { s with intMasked := m, maskSaved := ms }
  | [] => .refused .unlockUnpaired

/-- An interrupt source fires: masked, it is not taken; taken in an idle block it concerns the platform only (R182); taken
in a busy block it is the violated precondition of R155. -/
def inputInterrupt (s : State) : Host.Outcome State Fault Refusal :=
  if busy s && !s.intMasked then .refused .interrupted else .next s

/-- The host drives the input ports, each at its width (R32). -/
def inputDrive (p : Ports) (s : State) : Host.Outcome State Fault Refusal :=
  .next { s with ports := Ports.fit s.params p }

/-- `CC v` (R84): the accepting step of the next `TX` samples `v`. -/
def inputCc (v : Ticks) (s : State) : Host.Outcome State Fault Refusal := .next { s with ccNext := some v }

/-- `TX p, a, n` (R84): present the command for one step and wait for `done`. -/
def scriptTx (q : Params) (p : PinId) (a : Nat) (n : Nat) : List Input :=
  [.word .cmd (encode q (.transmit p a n)), .waitDone]

/-- `CC v` (R84). -/
def scriptCc (v : Ticks) : List Input := [.cc v]

/-- `FRAME p, a, n` (R84): `LOCK ; TX p, a, n ; UNLOCK ; GAP LATCH_US * cpu_mhz`. -/
def scriptFrame (q : Params) (p : PinId) (a : Nat) (n : Nat) (cpuMhz : Nat) : List Input :=
  .lock :: scriptTx q p a n ++ [.unlock, .gap (q.latchUs * cpuMhz)]

/-- `GRB(r, g, b)` inside a `BUF` list (R79, R84): the bytes `g r b`. -/
def scriptGrb (r g b : Byte) : List Byte := [g, r, b]

/-- `OFF` inside a `BUF` list (R84). -/
def scriptOff : List Byte := [0, 0, 0]

end Sys2Proof.Machine
end

