-- ==== Sys2Proof/Machine/Cycle.lean ====
section
/-! DEFINITION. One step of the machine: a clock edge of the engine (spec/42_fsm_steps.md rule R120), or one input of the
outside world (R84; log entry 2); and where a word is placed so that the next step runs it. `Step.lean` only names these. -/

namespace Sys2Proof.Machine

/-- One clock edge. With `rst = 1` it is the reset of R210. Else the engine samples the counter, forms the step-select word,
and performs the one operation that word decodes to (R72, R73, R120). -/
def edge (s : State) : Host.Outcome State Fault Refusal :=
  if s.ports.rst then .next (resetEdge s)
  else
    match decode s.params .step (clockEdge s).stepSel.toNat with
    | .ok i => exec i (clockEdge s)
    | .rejected _ => .refused .reservedEncoding

/-- A word presented from outside: it is decoded in its format and its instruction performed. The `STEP` word is the
engine's own and is not taken from outside (R70, R72). A reserved clock code is harmless until a BEGIN samples it (R81, U23):
the port carries it. What a word does while `rst` is 1 is log entry 21. -/
def runWord (f : Format) (w : Nat) (s : State) : Host.Outcome State Fault Refusal :=
  if f = .step then .refused .engineWord
  else
    match decode s.params f w with
    | .ok i => exec i s
    | .rejected .reservedClock => .next (setCpuMhz (BitVec.ofNat 8 w) s)
    | .rejected _ => .refused .reservedEncoding

/-- One step: the first input is taken, or, with none left, a clock edge passes. `GAP t` lets edges pass until
at least `t` ticks have gone by, one stride an edge, and waiting for `done` lets edges pass until the block is idle. For a
command that a reset has abandoned, or that was lost under `rst`, no `done` comes (R212): that the wait then ends with the
idle block too is the model's choice (log entry 27). -/
def cycle (s : State) : Host.Outcome State Fault Refusal :=
  match s.inputs with
  | [] => edge s
  | .word f w :: rest => runWord f w { s with inputs := rest }
  | .drive p :: rest => inputDrive p { s with inputs := rest }
  | .cc v :: rest => inputCc v { s with inputs := rest }
  | .freq m :: rest => inputFreq m { s with inputs := rest }
  | .level p v :: rest => inputLevel p v { s with inputs := rest }
  | .buf a bytes :: rest => inputBuf a bytes { s with inputs := rest }
  | .lock :: rest => inputLock { s with inputs := rest }
  | .unlock :: rest => inputUnlock { s with inputs := rest }
  | .interrupt :: rest => inputInterrupt { s with inputs := rest }
  | .gap t :: rest =>
    if t = 0 then .next { s with inputs := rest }
    else if t ≤ s.params.ccStride then edge { s with inputs := rest }
    else edge { s with inputs := .gap (t - s.params.ccStride) :: rest }
  | .waitDone :: rest => if busy s then edge s else .next { s with inputs := rest }

/-! ### Placing a word -/

/-- The registers and ports that make the engine form a `STEP` word with the fields of `w` at the next clock edge (R72): the
state, `start`, a zero or non-zero `len_in`, the mask and the index for `lastbit` and `lastbyte`. -/
def placeFields (w : Nat) (s : State) : State :=
  { s with
    inputs := .gap 1 :: s.inputs
    fsm := if w / 32 = 1 then .waitp else if w / 32 = 2 then .waith else .idle
    ports := { s.ports with
      rst := false
      start := w.testBit 4
      lenIn := if w.testBit 3 then 0 else if s.ports.lenIn = 0 then 1 else s.ports.lenIn }
    mask := if w.testBit 1 then 1 else if s.mask = 1 then 0x80 else s.mask
    len := if w.testBit 0 = (s.idx == s.len) then s.len else if w.testBit 0 then s.idx else nextIndex s.params s.idx }

/-- Legal thresholds, if the comparator could not answer 0 with those that stand. -/
def placeThresholds (s : State) : State :=
  if s.thShort = 0 ∨ s.thLong = 0 ∨ s.thPeriod = 0 then setThresholds { short := 24, long := 48, period := 100 } s else s

/-- `START` such that at the next edge the comparator answers `g`. -/
def placeStart (g : Bool) (s : State) : State :=
  let threshold := if s.fsm = .waitp then s.thPeriod else target s
  { s with startTime := if g then s.cc - threshold else s.cc }

/-- A byte at `a`, if none is stored there: the operand of an operation that reads the buffer. -/
def placeByte (a : Nat) (s : State) : State :=
  match Memory.read s.mem a with
  | some _ => s
  | none => { s with mem := Memory.write s.mem a 0 }

/-- Make the engine form the `STEP` word `w`, and select its operation, at the next clock edge. -/
def placeStep (w : Nat) (s : State) : State :=
  let s1 := placeStart (w.testBit 2) (placeThresholds (placeFields w s))
  if w / 8 = 2 then placeByte s1.ports.baseIn s1
  else if w / 32 = 2 ∧ w % 8 = 6 then placeByte (bufAddr s1.params s1.base s1.idx) s1
  else s1

/-- The state in which the next step runs the table word `w` of `nbits` bits: a `STEP` word is formed by the engine from
its registers and ports, any other word is the first input. -/
def placeWord (s : State) (nbits w : Nat) : State :=
  match tableFormat nbits w with
  | none => s
  | some .step => placeStep w s
  | some f => { s with inputs := .word f w :: s.inputs }

end Sys2Proof.Machine
end

