-- ==== Sys2Proof/Safety.lean ====
section
/-! DEFINITION. The terms the statements use: the opcode table's rows, the invariant of spec/10_state.md rule R41, the
preconditions of a command (spec/60_exceptions.md rule R181), and the waveform a transmission must produce (R97, R138,
R173). -/

namespace Sys2Proof

/-- The mnemonic of an instruction's row in spec/opcode_table.json. -/
def Instr.mnemonic : Instr → String
  | .transmit _ _ _ => "TRANSMIT"
  | .nopIdle _ _ _ _ => "NOP_IDLE"
  | .return0 _ _ _ => "RETURN0"
  | .beginTx _ _ _ => "BEGIN"
  | .spinp _ _ _ _ => "SPINP"
  | .rise _ _ _ _ => "RISE"
  | .spinh _ _ _ _ => "SPINH"
  | .fallBit _ _ _ => "FALL_BIT"
  | .fallByte _ _ => "FALL_BYTE"
  | .fallEnd _ _ => "FALL_END"
  | .setHigh _ => "SET_HIGH"
  | .setLow _ => "SET_LOW"
  | .readCycles _ => "READ_CYCLES"
  | .freq80 => "FREQ80"
  | .freq160 => "FREQ160"
  | .calibrate _ => "CALIBRATE"
  | .t0 => "T0"
  | .t1 => "T1"
  | .stateIdle => "STATE.IDLE"
  | .stateWaitp => "STATE.WAITP"
  | .stateWaith => "STATE.WAITH"

/-- A row of the opcode table: a word of format `fmt` is this row's when `word & mask = pattern`. -/
structure OpRow where
  fmt : Format
  mnemonic : String
  pattern : Nat
  mask : Nat
  deriving DecidableEq, Repr

/-- The rows of spec/opcode_table.json with their match and mask (R73 to R78, R85). -/
def opRows : List OpRow :=
  [⟨.cmd, "TRANSMIT", 0x0, 0x0⟩,
   ⟨.step, "NOP_IDLE", 0x00, 0x70⟩, ⟨.step, "RETURN0", 0x18, 0x78⟩, ⟨.step, "BEGIN", 0x10, 0x78⟩] ++
  [⟨.step, "SPINP", 0x20, 0x64⟩, ⟨.step, "RISE", 0x24, 0x64⟩,
   ⟨.step, "SPINH", 0x40, 0x64⟩, ⟨.step, "FALL_BIT", 0x44, 0x66⟩,
   ⟨.step, "FALL_BYTE", 0x46, 0x67⟩, ⟨.step, "FALL_END", 0x47, 0x67⟩] ++
  [⟨.gpw, "SET_HIGH", 0x10000, 0x10000⟩, ⟨.gpw, "SET_LOW", 0x00000, 0x10000⟩,
   ⟨.ctr, "READ_CYCLES", 0x0, 0x0⟩,
   ⟨.frq, "FREQ80", 0x50, 0xFF⟩, ⟨.frq, "FREQ160", 0xA0, 0xFF⟩, ⟨.cal, "CALIBRATE", 0x00, 0x00⟩] ++
  [⟨.sym, "T0", 0x0, 0x1⟩, ⟨.sym, "T1", 0x1, 0x1⟩,
   ⟨.fsm, "STATE.IDLE", 0x0, 0x3⟩, ⟨.fsm, "STATE.WAITP", 0x1, 0x3⟩, ⟨.fsm, "STATE.WAITH", 0x2, 0x3⟩]

/-- The word `w` of format `f` is the row's. -/
def OpRow.selects (r : OpRow) (f : Format) (w : Nat) : Bool := r.fmt == f && (w &&& r.mask) == r.pattern

end Sys2Proof

namespace Sys2Proof.Machine

/-- `k` steps of the machine, stopping at the first refusal. -/
def run (k : Nat) (s : State) : Host.Outcome State Fault Refusal := Host.Core.run Sys2Proof.core k s

/-- The thresholds are one of the two rows of R106. -/
def LegalThresholds (s : State) : Prop :=
  (s.thShort = 24 ∧ s.thLong = 48 ∧ s.thPeriod = 100) ∨ (s.thShort = 48 ∧ s.thLong = 96 ∧ s.thPeriod = 200)

/-- The latest write of the trace that addresses pin `p` (R173). -/
def lastWrite (p : PinId) (tr : List TraceEvent) : Option TraceEvent := tr.find? fun e => e.mask.getLsbD p.toNat

/-- The invariant of every reachable state: legal parameters, values within their widths, the clauses of R41 about registers
and pin, canonical memory inside the address space, one note of the last fall for each pin, and clock phases that are past. -/
structure Inv (s : State) : Prop where
  /-- R13, R139: the parameters are ones a machine can have. -/
  params : s.params.legal = true
  /-- R32: the command ports carry values of their widths. -/
  ports : s.ports.baseIn < s.params.addrSpace ∧ s.ports.lenIn < s.params.lenSpace
  /-- R20: `BASE`, `LEN` and `IDX` hold values of their widths. -/
  widths : s.base < s.params.addrSpace ∧ s.len < s.params.lenSpace ∧ s.idx < s.params.lenSpace
  /-- R41 item 3. -/
  thresholds : busy s = true → LegalThresholds s
  /-- R41 item 2: while busy the mask has exactly one bit set. -/
  mask : busy s = true → oneHot 8 s.mask = true
  /-- R41 item 2: while busy, `1 <= IDX <= LEN`. -/
  index : busy s = true → 1 ≤ s.idx ∧ s.idx ≤ s.len
  /-- R30: while busy the buffer does not wrap. -/
  room : busy s = true → s.base + s.len ≤ s.params.addrSpace
  /-- R92: while busy every byte of the buffer is stored. -/
  buffer : busy s = true → ∀ i < s.len, (Memory.read s.mem (s.base + i)).isSome = true
  /-- R41 item 2: while busy, `CUR = buffer[IDX - 1]`. -/
  current : busy s = true → Memory.read s.mem (s.base + (s.idx - 1)) = some s.cur
  /-- R41 item 4: in WAITP the pin is low. -/
  low : s.fsm = .waitp → s.lvl.getLsbD s.pin.toNat = false
  /-- R41 item 5: in WAITH the pin is high. -/
  high : s.fsm = .waith → s.lvl.getLsbD s.pin.toNat = true
  /-- R41 item 5: in WAITH `START` is the sample at which the pin was set. -/
  risen : s.fsm = .waith →
    (lastWrite s.pin s.trace).map (fun e => (e.op, e.c)) = some (.set, s.startTime)
  /-- The memory is in canonical form. -/
  memory : Memory.wf s.mem = true
  /-- R30: no byte is stored past the last address. -/
  inside : Memory.within s.params.addrSpace s.mem = true
  /-- One note for each pin. -/
  falls : s.fellAt.length = Config.nPins
  /-- The clock's past phases have ended (R222). -/
  phases : ∀ ph ∈ s.clockPast, ph.ended ≤ s.now

/-- The preconditions under which a command of non-zero length executes normally (R181): the pin is a low output whose
latch gap has passed, the buffer's bytes are stored and do not wrap, the clock is supported. -/
structure TxReady (p : PinId) (a : Nat) (l : Nat) (s : State) : Prop where
  output : s.pinOut.getLsbD p.toNat = true
  room : a + l ≤ s.params.addrSpace
  buffer : ∀ i < l, (Memory.read s.mem (a + i)).isSome = true
  clock : s.ports.cpuMhz = 80 ∨ s.ports.cpuMhz = 160
  low : s.lvl.getLsbD p.toNat = false
  gap : latchGapMet s p = true

/-- The notes of the last falls after pin `p` is driven low at time `t`: that pin's is `t` if it was high; the others
stand. -/
def notedFall (p : PinId) (lvl : PinMask) (t : Nat) (falls : List (Option Nat)) : List (Option Nat) :=
  if lvl.getLsbD p.toNat then falls.set p.toNat (some t) else falls

/-! ### The waveform (R97, R138, R172, R173) -/

/-- `Bits(B)`: the bits of the bytes, most significant first (R97). -/
def bitsOf (bytes : List Byte) : List Bool :=
  bytes.flatMap fun b => (List.range 8).map fun n => b.getLsbD (7 - n)

/-- `Target(b)` (R97). -/
def targetOf (th : Thresholds) (b : Bool) : Ticks := if b then th.long else th.short

/-- The GPIO writes of the pulses for `bits` on the pins of `m`, oldest first, the first rise at sample `r` and each next
rise one period later (R97, R138). -/
def waveform (m : PinMask) (th : Thresholds) : Ticks → List Bool → List TraceEvent
  | _, [] => []
  | r, b :: bs =>
    { op := .set, mask := m, c := r } :: { op := .clr, mask := m, c := r + targetOf th b } ::
      waveform m th (r + th.period) bs

/-- The sample of the first rise of a command accepted at sample `c0`: the next sample, or, if the counter is within a
period after zero there, the sample at which it reaches the period (R135). -/
def firstRise (th : Thresholds) (c0 : Ticks) : Ticks := if th.period ≤ c0 + 1 then c0 + 1 else th.period

/-- The steps from the accepting step to the `done` step, both included, of a transmission of `n` pulses whose last bit is
`b`, accepted at sample `c0` (R140): `2 + w + (n - 1) * P + t_last`. -/
def transmissionSteps (th : Thresholds) (c0 : Ticks) (n : Nat) (b : Bool) : Nat :=
  2 + (firstRise th c0 - (c0 + 1)).toNat + (n - 1) * th.period.toNat + (targetOf th b).toNat

/-- The edges a WAITP state waits before the edge that rises: those to the first sample at which the period since `START` has
elapsed (R125, R130). -/
def riseWait (s : State) : Nat := edgesFor s.params (s.thPeriod.toNat - (s.cc - s.startTime).toNat)

/-- The sample of the next rising edge of a WAITP state. -/
def riseSample (s : State) : Ticks := s.cc + BitVec.ofNat 32 (riseWait s * s.params.ccStride)

/-- The level of pin `p` at tick `t`, from its level `before` the transmission and the trace (newest first), with ticks counted
from the tick `c0`: the latest write at or before `t`, or `before` if there is none (R173). Samples and `t` are 32-bit counter
values, which the spec does not order across turns of the counter; that they are ordered by their distance from `c0`, modulo
2^32, is the model's choice, and it reads the level rightly only within the one turn that starts at `c0` (log entry 26). -/
def levelAt (p : PinId) (before : Bool) (c0 : Ticks) (tr : List TraceEvent) (t : Ticks) : Bool :=
  match tr.find? fun e => e.mask.getLsbD p.toNat && decide (e.c - c0 ≤ t - c0) with
  | some e => e.op == .set
  | none => before

/-- Pulse `k` of a frame: the samples of its rise and its fall (R173). -/
structure Pulse where
  rise : Ticks
  fall : Ticks
  deriving DecidableEq, Repr

/-- High time `f_k - r_k` (R173). -/
def Pulse.high (k : Pulse) : Ticks := k.fall - k.rise

/-- The pulses of a list of writes, oldest first: each SET with the CLR after it (R173). -/
def pulsesOf : List TraceEvent → List Pulse
  | up :: down :: tr => { rise := up.c, fall := down.c } :: pulsesOf tr
  | _ => []

/-- The periods `r_(k+1) - r_k` of consecutive pulses (R173). -/
def periodsOf (ks : List Pulse) : List Ticks := List.zipWith (fun k next => next.rise - k.rise) ks ks.tail

/-- The low times `r_(k+1) - f_k` inside a frame (R173). -/
def lowTimesOf (ks : List Pulse) : List Ticks := List.zipWith (fun k next => next.rise - k.fall) ks ks.tail

/-- A well-formed frame for the bits `bits` on the pins of `m` at `mhz` ticks per microsecond, written by `tr`, oldest first:
alternating SET and CLR, whose pulses a receiver takes for the bits in order, every period at least 1.25 microseconds,
every low time inside the frame shorter than the latch gap (R172). -/
structure WellFormedFrame (q : Params) (mhz : Nat) (m : PinMask) (bits : List Bool) (tr : List TraceEvent) : Prop where
  writes : tr.map (fun e => (e.op, e.mask)) = bits.flatMap fun _ => [(.set, m), (.clr, m)]
  classes : (pulsesOf tr).map (fun k => classify k.high.toNat mhz) = bits.map fun b => if b then .one else .zero
  periods : ∀ d ∈ periodsOf (pulsesOf tr), 125 * mhz ≤ 100 * d.toNat
  lows : ∀ d ∈ lowTimesOf (pulsesOf tr), d.toNat < q.latchUs * mhz

/-- The sample of the accepting step of a command presented next: the one a `CC v` has set, else the counter's value (R84,
R98). -/
def acceptSample (s : State) : Ticks := s.ccNext.getD s.cc

/-- The command `{p, a, l}` of non-zero length, presented as the only input of an idle block with its preconditions met, on a
machine of stride 1 (R98, R181): `bytes` are its buffer, `th` its thresholds, `last` its last bit. -/
structure Presented (s : State) (p : PinId) (a : Nat) (l : Nat) (bytes : List Byte) (th : Thresholds)
    (last : Bool) : Prop where
  inv : Inv s
  stride : s.params.ccStride = 1
  input : s.inputs = [.word .cmd (encode s.params (.transmit p a l))]
  idle : s.fsm = .idle
  running : s.ports.rst = false
  positive : 0 < l
  fits : (Instr.transmit p a l).operandsFit s.params = true
  ready : TxReady p a l (clockEdge (takeSample s))
  length : bytes.length = l
  stored : ∀ i < l, Memory.read s.mem (a + i) = bytes[i]?
  clock : calibrate s.ports.cpuMhz = some th
  lastBit : (bitsOf bytes).getLast? = some last

/-- The buffer reads shown by the states of a run of `n` steps, first one first (R52). -/
def readsAlong : Nat → State → List MemRead
  | 0, _ => []
  | n + 1, s =>
    match step s with
    | .next t => t.memRead.toList ++ readsAlong n t
    | _ => []

/-- What a step shows outside the block: its GPIO write, whether it reads the buffer, `done` (R134). -/
def shown (t : State) : Option GpioOp × Bool × Bool := (t.gpio.map (·.op), t.memRead.isSome, t.done)

end Sys2Proof.Machine
end

