-- ==== Sys2Proof/Certificates/Slice0/Obligations.lean ====
section
/-! DEFINITION. The statements about the model, each a `Prop` for the provers. Rules are those of spec/; a clause that rests
on a choice of the model names its log entry. -/

open Sys2Proof Sys2Proof.Machine

/-! ### Encodings -/

/-- Decoding the word of an instruction, in the instruction's format, gives the instruction back: for every instruction and
every value its operands can have, at every width of addresses and lengths (R70 to R78, R13). -/
def Obligations.DecodeOfEncodeIsIdentity : Prop :=
  ∀ (q : Params) (i : Instr), i.operandsFit q = true → decode q i.format (encode q i) = .ok i

/-- A word that decodes is the word of the instruction it decodes to, whose operands fit their widths: no two words of a
format mean the same. -/
def Obligations.EncodeOfDecodeIsIdentity : Prop :=
  ∀ (q : Params) (f : Format) (w : Nat) (i : Instr), decode q f w = .ok i →
    i.format = f ∧ encode q i = w ∧ i.operandsFit q = true

/-- The decoder agrees with the match and mask of every row of the opcode table: a word that fits its format is decoded
exactly as the one row that selects it, and rejected where no row does. The table is read with the row CALIBRATE in a
format of its own, the use of an FRQ word that the lookup makes: that is the model's choice (log entry 3; R85 puts the
row in the format FRQ, where its mask 0 would select every word of FREQ80 and FREQ160 too). -/
def Obligations.DecoderFollowsOpcodeTable : Prop :=
  ∀ (q : Params) (f : Format) (w : Nat), w < 2 ^ f.width q →
    (∀ i, decode q f w = .ok i →
      (opRows.filter (fun r => r.selects f w)).map (·.mnemonic) = [i.mnemonic]) ∧
    (∀ e, decode q f w = .rejected e → opRows.filter (fun r => r.selects f w) = [])

/-- Words written out bit by bit from the spec's encodings, at the default widths, decode to the instructions they stand for
(R71 to R78). -/
def Obligations.WrittenWordsDecode : Prop :=
  decode Config.defaults .cmd 0x23FFE800000000003 = .ok (.transmit 2 0x3FFE8000 3) ∧
  decode Config.defaults .step 0b0010111 = .ok (.beginTx true true true) ∧
  decode Config.defaults .step 0b0111011 = .ok (.spinp true true true true) ∧
  decode Config.defaults .step 0b1001101 = .ok (.fallBit false true true) ∧
  decode Config.defaults .step 0b1100000 = .rejected .reservedState ∧
  decode Config.defaults .gpw 0b10000000000000100 = .ok (.setHigh 4) ∧
  decode Config.defaults .gpw 0b01000000000000000 = .ok (.setLow 0x8000) ∧
  decode Config.defaults .frq 0b01010000 = .ok .freq80 ∧
  decode Config.defaults .frq 0x51 = .rejected .reservedClock ∧
  decode Config.defaults .ctr 0xFFFFFFF0 = .ok (.readCycles 0xFFFFFFF0) ∧
  decode Config.defaults .sym 1 = .ok .t1 ∧
  decode Config.defaults .fsm 2 = .ok .stateWaith

/-! ### The step -/

/-- What one step runs. With no input left and `rst` low, the step-select word the engine forms at the clock edge decodes
to an instruction and the step is that instruction's meaning after the clock edge; a word presented from outside that
decodes to an instruction is that instruction's meaning, with the word taken from the inputs; a reserved clock code only
goes on the port (R81, U23); any other word that decodes to nothing and a `STEP` word from outside are refused by name.
(That words are taken from `inputs` is the model's: log entry 2.) -/
def Obligations.StepRunsDecodedInstruction : Prop :=
  (∀ (s : State), s.inputs = [] → s.ports.rst = false →
    ∃ i : Instr, decode s.params .step (stepWord (clockEdge s)).toNat = .ok i ∧ step s = exec i (clockEdge s)) ∧
  (∀ (s : State) (f : Format) (w : Nat) (rest : List Input) (i : Instr),
    s.inputs = .word f w :: rest → f ≠ .step → decode s.params f w = .ok i →
      step s = exec i { s with inputs := rest }) ∧
  (∀ (s : State) (f : Format) (w : Nat) (rest : List Input),
    s.inputs = .word f w :: rest → f ≠ .step → decode s.params f w = .rejected .reservedClock →
      step s = .next { s with inputs := rest, ports := { s.ports with cpuMhz := BitVec.ofNat 8 w } }) ∧
  (∀ (s : State) (f : Format) (w : Nat) (rest : List Input) (e : DecodeError),
    s.inputs = .word f w :: rest → f ≠ .step → decode s.params f w = .rejected e → e ≠ .reservedClock →
      step s = .refused .reservedEncoding) ∧
  (∀ (s : State) (w : Nat) (rest : List Input),
    s.inputs = .word .step w :: rest → step s = .refused .engineWord)

/-- The operation the step decode table selects (R72, R73) is the one the written-out step of R120 performs. -/
def Obligations.DecodeTableIsStepAlgorithm : Prop :=
  ∀ s : State, s.inputs = [] → s.ports.rst = false →
    step s =
      (match s.fsm with
       | .idle =>
         if s.ports.start = false then execNopIdle (clockEdge s)
         else if s.ports.lenIn = 0 then execReturn0 (clockEdge s) else execBegin (clockEdge s)
       | .waitp =>
         if s.thPeriod ≤ s.cc - s.startTime then execRise (clockEdge s) else execSpinp (clockEdge s)
       | .waith =>
         if (if (s.cur &&& s.mask) ≠ 0 then s.thLong else s.thShort) ≤ s.cc - s.startTime then
           if s.mask ≠ 1 then execFallBit (clockEdge s)
           else if s.idx ≠ s.len then execFallByte (clockEdge s)
           else execFallEnd (clockEdge s)
         else execSpinh (clockEdge s))

/-- A clock edge before its operation: the counter is sampled and counts on by one stride, wrapping after `0xFFFFFFFF`, the
strobes are cleared; registers, ports, pins, memory, interrupt mask and trace stand. -/
def Obligations.ClockEdgeSamplesAndCounts : Prop :=
  ∀ s : State, clockEdge s =
    { s with
      c := s.cc, cycles := s.cc, cc := s.cc + BitVec.ofNat 32 s.params.ccStride, now := s.now + s.params.ccStride
      done := false, gpio := none, memRead := none
      stepSel := stepWord (clockEdge s) }

/-- Reset, as R210 says it: `S` and the strobes are written, nothing else of the block is, no write and no read is made,
`start` is ignored, and the block stays in IDLE. The first edge with `rst` low is an ordinary step in IDLE. That the
platform's counter goes on is R188 and R189; that `c`, `cycles` and `stepSel` keep their values in a reset edge is the
model's choice (log entry 21), and so is that the run goes on where the block was busy (R212; log entry 27). -/
def Obligations.ResetEdge : Prop :=
  (∀ s : State, s.inputs = [] → s.ports.rst = true →
    step s = .next { s with
      fsm := .idle, done := false, gpio := none, memRead := none
      cc := s.cc + BitVec.ofNat 32 s.params.ccStride, now := s.now + s.params.ccStride }) ∧
  (∀ s : State, s.inputs = [] → s.ports.rst = false → s.fsm = .idle →
    step s =
      if s.ports.start = false then exec (.nopIdle (lenz s) false (lastbit s) (lastbyte s)) (clockEdge s)
      else if s.ports.lenIn = 0 then exec (.return0 false (lastbit s) (lastbyte s)) (clockEdge s)
      else exec (.beginTx false (lastbit s) (lastbyte s)) (clockEdge s))

/-- Right after reset `S` is IDLE, the block is not busy and the three strobes are 0 (R39, R211). -/
def Obligations.ResetStateIsIdle : Prop :=
  State.reset.fsm = .idle ∧ busy State.reset = false ∧ State.reset.done = false ∧ State.reset.gpio = none ∧
    State.reset.memRead = none

/-- The invariant holds in the reset state and in the power-up state. -/
def Obligations.InvariantAtReset : Prop := Inv State.reset ∧ Inv State.powerUp

/-- Every step, whatever the input, keeps the invariant: the clauses of R41, canonical memory inside the address space,
values within their widths. -/
def Obligations.InvariantKeptByEveryStep : Prop :=
  ∀ s t : State, Inv s → step s = .next t → Inv t

/-- A transmission in progress is never stopped: from every busy state that meets the invariant a clock edge gives a next
state (R100, R180). -/
def Obligations.BusyEngineAlwaysAdvances : Prop :=
  ∀ s : State, Inv s → busy s = true → s.inputs = [] → ∃ t, step s = .next t

/-- Which refusals a clock edge can meet: from a state that meets the invariant an edge is refused exactly when an idle block
is given a command of non-zero length whose preconditions are not met, and then under the name of a precondition of R181
that a command can violate; every other edge gives a next state. -/
def Obligations.EdgeRefusesOnlyBadCommands : Prop :=
  ∀ s : State, Inv s → s.inputs = [] →
    (∀ r : Refusal, step s = .refused r →
      s.fsm = .idle ∧ s.ports.rst = false ∧ s.ports.start = true ∧ s.ports.lenIn ≠ 0 ∧
      ¬ TxReady s.ports.pinIn s.ports.baseIn s.ports.lenIn (clockEdge s) ∧
      r ∈ [.pinNotOutput, .bufferWraps, .bufferInvalid, .unsupportedClock, .pinNotLow, .noLatchGap]) ∧
    (s.fsm = .idle → s.ports.rst = false → s.ports.start = true → s.ports.lenIn ≠ 0 →
      ¬ TxReady s.ports.pinIn s.ports.baseIn s.ports.lenIn (clockEdge s) → ∃ r : Refusal, step s = .refused r) ∧
    ((∀ r : Refusal, step s ≠ .refused r) → ∃ t : State, step s = .next t)

/-! ### The engine operations, each by itself -/

/-- NOP_IDLE, SPINP and SPINH run in every state and change nothing (R121, R124, R126). -/
def Obligations.WaitingOperationsChangeNothing : Prop :=
  ∀ (t z g b e : Bool) (s : State),
    exec (.nopIdle z g b e) s = .next s ∧ exec (.spinp t z b e) s = .next s ∧ exec (.spinh t z b e) s = .next s

/-- RETURN0 raises `done` and does nothing else: no register, pin, port or byte changes, in whatever state it runs; it is the
operation of an idle step with `start` 1 and `len_in` 0, whatever the pin, the address and the clock code, and the block
is not busy before or after (R122). -/
def Obligations.Return0OnlyRaisesDone : Prop :=
  (∀ (g b e : Bool) (s : State), exec (.return0 g b e) s = .next { s with done := true }) ∧
  (∀ s : State, s.inputs = [] → s.ports.rst = false → s.fsm = .idle → s.ports.start = true → s.ports.lenIn = 0 →
    (∃ g b e, decode s.params .step (stepWord (clockEdge s)).toNat = .ok (.return0 g b e)) ∧
    ∃ t : State, step s = .next t ∧ t = { clockEdge s with done := true } ∧ busy s = false ∧ busy t = false ∧
      t.gpio = none ∧ t.memRead = none)

/-- BEGIN, its preconditions met, latches the operands, loads the thresholds of the clock code, reads byte 0, sets `START`
to 0, `IDX` to 1 and `MASK` to `0x80`, goes to WAITP, drives the read port, and changes nothing else but the record of
the lookup's result (R123; the record is log entry 11). -/
def Obligations.BeginLatchesCommand : Prop :=
  ∀ (g b e : Bool) (s : State), s.ports.lenIn ≠ 0 → TxReady s.ports.pinIn s.ports.baseIn s.ports.lenIn s →
    ∃ (th : Thresholds) (v : Byte),
      th = (if s.ports.cpuMhz = 80 then ⟨24, 48, 100⟩ else ⟨48, 96, 200⟩) ∧
      Memory.read s.mem s.ports.baseIn = some v ∧
      exec (.beginTx g b e) s = .next { s with
        fsm := .waitp
        pin := s.ports.pinIn, base := s.ports.baseIn, len := s.ports.lenIn
        thShort := th.short, thLong := th.long, thPeriod := th.period, calResult := th
        startTime := 0, cur := v, idx := 1, mask := 0x80
        memRead := some ⟨s.ports.baseIn, v⟩ }

/-- A BEGIN whose command violates a precondition of R181 is refused under that precondition's name. Each clause holds
where the preconditions of the clauses before it are met (the order of log entry 9). -/
def Obligations.BeginRefusesViolatedPreconditions : Prop :=
  ∀ (g b e : Bool) (s : State),
    (s.pinOut.getLsbD s.ports.pinIn.toNat = false → exec (.beginTx g b e) s = .refused .pinNotOutput) ∧
    (s.pinOut.getLsbD s.ports.pinIn.toNat = true →
      (2 ^ s.params.addrW < s.ports.baseIn + s.ports.lenIn → exec (.beginTx g b e) s = .refused .bufferWraps) ∧
      (s.ports.baseIn + s.ports.lenIn ≤ 2 ^ s.params.addrW →
        ((∃ i < s.ports.lenIn, Memory.read s.mem (s.ports.baseIn + i) = none) →
          exec (.beginTx g b e) s = .refused .bufferInvalid) ∧
        ((∀ i < s.ports.lenIn, Memory.read s.mem (s.ports.baseIn + i) ≠ none) →
          (s.ports.cpuMhz ≠ 80 ∧ s.ports.cpuMhz ≠ 160 → exec (.beginTx g b e) s = .refused .unsupportedClock) ∧
          (s.ports.cpuMhz = 80 ∨ s.ports.cpuMhz = 160 →
            (s.lvl.getLsbD s.ports.pinIn.toNat = true → exec (.beginTx g b e) s = .refused .pinNotLow) ∧
            (s.lvl.getLsbD s.ports.pinIn.toNat = false → latchGapMet s s.ports.pinIn = false →
              exec (.beginTx g b e) s = .refused .noLatchGap)))))

/-- RISE runs in every state: SET on `PIN` in this step, `START` becomes the sample, `S` becomes WAITH; every other
register, every other pin, all of memory and the platform's state stand (R125). -/
def Obligations.RiseDrivesHigh : Prop :=
  ∀ (t z b e : Bool) (s : State),
    exec (.rise t z b e) s = .next { s with
      fsm := .waith
      startTime := s.c
      lvl := s.lvl ||| BitVec.twoPow 16 s.pin.toNat
      gpio := some ⟨.set, BitVec.twoPow 16 s.pin.toNat⟩
      trace := ⟨.set, BitVec.twoPow 16 s.pin.toNat, s.c⟩ :: s.trace }

/-- FALL_BIT runs in every state: CLR on `PIN`, `MASK` shifts right by one, `S` becomes WAITP; `START` and everything else
stand, but for the note of when this pin fell, which is now if it was high (R127; the note is log entry 8). -/
def Obligations.FallBitDrivesLow : Prop :=
  ∀ (t z e : Bool) (s : State),
    exec (.fallBit t z e) s = .next { s with
      fsm := .waitp
      mask := s.mask >>> 1
      lvl := s.lvl &&& ~~~(BitVec.twoPow 16 s.pin.toNat)
      gpio := some ⟨.clr, BitVec.twoPow 16 s.pin.toNat⟩
      trace := ⟨.clr, BitVec.twoPow 16 s.pin.toNat, s.c⟩ :: s.trace
      fellAt := if s.lvl.getLsbD s.pin.toNat then s.fellAt.set s.pin.toNat (some s.now) else s.fellAt }

/-- FALL_BYTE, the next byte stored: CLR on `PIN`, the byte at `BASE + IDX` goes to `CUR`, `IDX` counts on, `MASK` is
`0x80` again, `S` becomes WAITP, the read port is driven, and nothing else changes but the note of when this pin fell
(R128; the note is log entry 8). Where the byte is not stored it is refused as an invalid buffer (R92). -/
def Obligations.FallByteFetchesNext : Prop :=
  (∀ (t z : Bool) (s : State) (v : Byte),
    Memory.read s.mem ((s.base + s.idx) % 2 ^ s.params.addrW) = some v →
      exec (.fallByte t z) s = .next { s with
        fsm := .waitp
        cur := v, idx := (s.idx + 1) % 2 ^ s.params.lenW, mask := 0x80
        lvl := s.lvl &&& ~~~(BitVec.twoPow 16 s.pin.toNat)
        gpio := some ⟨.clr, BitVec.twoPow 16 s.pin.toNat⟩
        memRead := some ⟨(s.base + s.idx) % 2 ^ s.params.addrW, v⟩
        trace := ⟨.clr, BitVec.twoPow 16 s.pin.toNat, s.c⟩ :: s.trace
        fellAt := if s.lvl.getLsbD s.pin.toNat then s.fellAt.set s.pin.toNat (some s.now) else s.fellAt }) ∧
  (∀ (t z : Bool) (s : State), Memory.read s.mem ((s.base + s.idx) % 2 ^ s.params.addrW) = none →
    exec (.fallByte t z) s = .refused .bufferInvalid)

/-- FALL_END runs in every state: CLR on `PIN`, `MASK` becomes 0, `S` becomes IDLE, `done` is raised; no byte is read and
everything else stands but the note of when this pin fell (R129; the note is log entry 8). -/
def Obligations.FallEndFinishes : Prop :=
  ∀ (t z : Bool) (s : State),
    exec (.fallEnd t z) s = .next { s with
      fsm := .idle
      mask := 0, done := true
      lvl := s.lvl &&& ~~~(BitVec.twoPow 16 s.pin.toNat)
      gpio := some ⟨.clr, BitVec.twoPow 16 s.pin.toNat⟩
      trace := ⟨.clr, BitVec.twoPow 16 s.pin.toNat, s.c⟩ :: s.trace
      fellAt := if s.lvl.getLsbD s.pin.toNat then s.fellAt.set s.pin.toNat (some s.now) else s.fellAt }

/-! ### The capability operations, the lookup, the symbols and the codes -/

/-- SET_HIGH and SET_LOW from outside, with the mask of a pin: the pin's level is 1 (0) at once, every other pin keeps its
level, the port shows the write, a second write of the same kind changes no level, and registers, memory and the block's
trace stand; they run in every state but on the pin of a transmission in progress, where they are refused (R54, R55,
R151, R152). Any other mask is refused (R81). That such a word runs by itself, outside RISE and FALL, and does not enter
the trace is the model's choice (log entry 15); the note of the fall is log entry 8. -/
def Obligations.GpioWordsDrivePin : Prop :=
  (∀ (p : PinId) (s : State),
    (busy s = true → p = s.pin →
      exec (.setHigh (gpioMask p)) s = .refused .pinShared ∧ exec (.setLow (gpioMask p)) s = .refused .pinShared) ∧
    (busy s = false ∨ p ≠ s.pin →
      (∃ hi : State, exec (.setHigh (gpioMask p)) s = .next hi ∧
        hi.lvl.getLsbD p.toNat = true ∧
        (∀ q : PinId, q ≠ p → hi.lvl.getLsbD q.toNat = s.lvl.getLsbD q.toNat) ∧
        hi = { s with lvl := hi.lvl, gpio := some ⟨.set, gpioMask p⟩ } ∧
        ∃ hi2 : State, exec (.setHigh (gpioMask p)) hi = .next hi2 ∧ hi2.lvl = hi.lvl) ∧
      (∃ lo : State, exec (.setLow (gpioMask p)) s = .next lo ∧
        lo.lvl.getLsbD p.toNat = false ∧
        (∀ q : PinId, q ≠ p → lo.lvl.getLsbD q.toNat = s.lvl.getLsbD q.toNat) ∧
        lo = { s with
          lvl := lo.lvl
          gpio := some ⟨.clr, gpioMask p⟩
          fellAt := notedFall p s.lvl s.now s.fellAt } ∧
        ∃ lo2 : State, exec (.setLow (gpioMask p)) lo = .next lo2 ∧ lo2.lvl = lo.lvl))) ∧
  (∀ (m : PinMask) (s : State), (∀ p : PinId, m ≠ gpioMask p) →
    exec (.setHigh m) s = .refused .reservedEncoding ∧ exec (.setLow m) s = .refused .reservedEncoding)

/-- READ_CYCLES in an idle block: the counter stands at `v`, any of the 2^32 values, and is returned; the ticks from where it
stood count as passed, none where `v` is the value on `cc`; nothing else changes. While the block is busy the same holds
where `d`, the ticks from the last sample over all such words since, is positive and within R139's bound, and fewer than
2^32 ticks lie between `START` and every sample that is compared with it, unless `START` is the constant of BEGIN (R26):
the next edge's and, in WAITH, where that edge may be a fall that goes on, the edge's after it, `e` ticks later (R219, U11).
A counter that stands still (R188) or runs backwards (R189) is refused, and so is a gap past the bound of R219. That the
word puts the counter at `v`, where it counts as backwards, and that a gap is refused at the word and not at the edge, is the
model's inference (log entry 16). -/
def Obligations.ReadCyclesReturnsCounter : Prop :=
  ∀ (v : Ticks) (s : State) (d e : Nat), d = (s.cc - s.c).toNat + (v - s.cc).toNat →
    e = (if s.fsm = .waith ∧ ¬ (s.mask = 1 ∧ s.idx = s.len) then s.params.ccStride else 0) →
    (busy s = false ∨
        (v ≠ s.c ∧ d + s.thPeriod.toNat < 2 ^ 32 ∧
          ((s.fsm = .waitp ∧ s.idx = 1 ∧ s.mask = 0x80) ∨ (s.c - s.startTime).toNat + d + e < 2 ^ 32)) →
      exec (.readCycles v) s = .next { s with cycles := v, cc := v, now := s.now + (v - s.cc).toNat }) ∧
    (busy s = true → v = s.c → exec (.readCycles v) s = .refused .counterStopped) ∧
    (busy s = true → v ≠ s.c → 2 ^ 32 ≤ d + s.thPeriod.toNat →
      exec (.readCycles v) s = .refused .counterBackwards) ∧
    (busy s = true → v ≠ s.c → d + s.thPeriod.toNat < 2 ^ 32 → ¬ (s.fsm = .waitp ∧ s.idx = 1 ∧ s.mask = 0x80) →
      2 ^ 32 ≤ (s.c - s.startTime).toNat + d + e → exec (.readCycles v) s = .refused .interrupted)

/-- FREQ80 and FREQ160 run in every state: the port `cpu_mhz` carries 80 or 160 and nothing else changes (R76, R154). That
the word runs in a busy block too, with a code other than the clock's, is the model's inference (log entry 18: R113 and
U29 refuse a change of the clock, which is the input `FREQ`). -/
def Obligations.FrequencyCodesOnPort : Prop :=
  ∀ s : State,
    exec .freq80 s = .next { s with ports := { s.ports with cpuMhz := 80 } } ∧
    exec .freq160 s = .next { s with ports := { s.ports with cpuMhz := 160 } }

/-- CALIBRATE on each of its operands: 80 gives (24, 48, 100), 160 gives (48, 96, 200), and every other code is refused
(R105, R111); no register changes, in whatever state the word comes (R22). That the lookup runs by itself, outside BEGIN,
with its result in a record of its own, is the model's inference (log entry 11). -/
def Obligations.CalibrateIsTwoRowTable : Prop :=
  ∀ (m : BitVec 8) (s : State),
    (m = 80 → exec (.calibrate m) s = .next { s with calResult := ⟨24, 48, 100⟩ }) ∧
    (m = 160 → exec (.calibrate m) s = .next { s with calResult := ⟨48, 96, 200⟩ }) ∧
    (m ≠ 80 → m ≠ 160 → exec (.calibrate m) s = .refused .unsupportedClock)

/-- The assertion of R109 on the thresholds of every supported clock: ordering, the two windows, the period; in hundredths
of a microsecond times the clock. -/
def Obligations.ThresholdsWithinWindows : Prop :=
  (calibrate 80).isSome = true ∧ (calibrate 160).isSome = true ∧
  ∀ (m : BitVec 8) (th : Thresholds), calibrate m = some th →
    0 < th.short ∧ th.short < th.long ∧ th.long < th.period ∧
    20 * m.toNat ≤ 100 * th.short.toNat ∧ 100 * th.short.toNat ≤ 50 * m.toNat ∧
    55 * m.toNat ≤ 100 * th.long.toNat ∧ 100 * th.long.toNat ≤ 85 * m.toNat ∧
    125 * m.toNat ≤ 100 * th.period.toNat

/-- The receiver's classification takes the high time of a pulse for its bit, at every supported clock (R166, R167, R172). -/
def Obligations.PulsesClassifyAsTheirBits : Prop :=
  ∀ (m : BitVec 8) (th : Thresholds) (b : Bool), calibrate m = some th →
    classify (targetOf th b).toNat m.toNat = (if b then .one else .zero)

/-- T0 and T1 in an idle block with `rst` low, `pin_in` a low output and the clock supported: one pulse on that pin, which
rises at the next sample, falls at the first sample at least the short (T0) or long (T1) high time later, after `n`
strides, and lasts to the first edge at which a next pulse may rise, after `m` strides (R165 to R168); every pin is at
its level again; registers and memory stand. On a pin that is no output, an unsupported clock, or a high pin the word is
refused, in a busy block too (R91, R111, R223, R55, R155); with `rst` high it is a reset edge (R210). That a symbol word
is a whole pulse with its waits and ticks, on `pin_in`, and what it does in a busy block and with `rst` high, are the
model's choices (log entry 14). -/
def Obligations.SymbolsArePulses : Prop :=
  ∀ (s : State) (one : Bool) (i : Instr), i = (if one then .t1 else .t0) →
    (s.ports.rst = true → exec i s = .next { s with
      fsm := .idle, done := false, gpio := none, memRead := none
      cc := s.cc + BitVec.ofNat 32 s.params.ccStride, now := s.now + s.params.ccStride }) ∧
    (s.ports.rst = false → busy s = true →
      exec i s = .refused (if s.ports.pinIn = s.pin then .pinShared else .interrupted)) ∧
    (s.ports.rst = false → busy s = false →
      (s.pinOut.getLsbD s.ports.pinIn.toNat = false → exec i s = .refused .pinNotOutput) ∧
      (s.pinOut.getLsbD s.ports.pinIn.toNat = true →
        (s.ports.cpuMhz ≠ 80 → s.ports.cpuMhz ≠ 160 → exec i s = .refused .unsupportedClock) ∧
        (∀ th : Thresholds, calibrate s.ports.cpuMhz = some th →
          (s.lvl.getLsbD s.ports.pinIn.toNat = true → exec i s = .refused .pinNotLow) ∧
          (s.lvl.getLsbD s.ports.pinIn.toNat = false → 0 < s.params.ccStride →
            ∃ (t : State) (n m : Nat), exec i s = .next t ∧
              (targetOf th one).toNat ≤ n * s.params.ccStride ∧
              (n - 1) * s.params.ccStride < (targetOf th one).toNat ∧
              n < m ∧ th.period.toNat ≤ m * s.params.ccStride ∧
              (m = n + 1 ∨ (m - 1) * s.params.ccStride < th.period.toNat) ∧
              t = { s with
                ports := { s.ports with start := false }
                c := s.cc + BitVec.ofNat 32 ((m - 1) * s.params.ccStride)
                cycles := s.cc + BitVec.ofNat 32 ((m - 1) * s.params.ccStride)
                cc := s.cc + BitVec.ofNat 32 (m * s.params.ccStride)
                now := s.now + m * s.params.ccStride
                done := false, memRead := none
                gpio := if m = n + 1 then some ⟨.clr, gpioMask s.ports.pinIn⟩ else none
                stepSel := stepWord t
                trace := ⟨.clr, gpioMask s.ports.pinIn, s.cc + BitVec.ofNat 32 (n * s.params.ccStride)⟩ ::
                  ⟨.set, gpioMask s.ports.pinIn, s.cc⟩ :: s.trace
                fellAt := s.fellAt.set s.ports.pinIn.toNat
                  (some (s.now + (n + 1) * s.params.ccStride)) }))))

/-- The three state codes run in every state: each is the field `s` of the step-select word, whose other five bits stand,
and no register, pin or byte changes (R28, R72, R85; that the code is taken as that field is log entry 10). -/
def Obligations.StateCodesAreStepFields : Prop :=
  ∀ s : State,
    (∃ w : BitVec 7, exec .stateIdle s = .next { s with stepSel := w } ∧ w.toNat = s.stepSel.toNat % 32) ∧
    (∃ w : BitVec 7, exec .stateWaitp s = .next { s with stepSel := w } ∧ w.toNat = 32 + s.stepSel.toNat % 32) ∧
    (∃ w : BitVec 7, exec .stateWaith s = .next { s with stepSel := w } ∧ w.toNat = 64 + s.stepSel.toNat % 32)

/-! ### The command -/

/-- TRANSMIT of length zero in an idle block: one clock edge, `done`, no GPIO write, no buffer read, no register of the
block, no pin and no byte changes, whatever the pin, the address and the clock code (R93). The edge samples the value a
`CC` has set, else the counter's (R84, R98). That the word is one edge, after which `start` is low and the other ports keep
the command, is the model's (log entries 2 and 23). -/
def Obligations.TransmitZeroLengthReturnsAtOnce : Prop :=
  ∀ (p : PinId) (a : Nat) (s : State), s.fsm = .idle → s.ports.rst = false → a < 2 ^ s.params.addrW →
    ∃ w : BitVec 7, w.toNat = 24 + (if s.mask = 1 then 2 else 0) + (if s.idx = s.len then 1 else 0) ∧
      exec (.transmit p a 0) s = .next { s with
        ports := { s.ports with start := false, pinIn := p, baseIn := a, lenIn := 0 }
        ccNext := none
        c := acceptSample s, cycles := acceptSample s
        cc := acceptSample s + BitVec.ofNat 32 s.params.ccStride
        now := s.now + (acceptSample s - s.cc).toNat + s.params.ccStride
        done := true, gpio := none, memRead := none, stepSel := w }

/-- TRANSMIT of non-zero length in an idle block, its preconditions met: the command is accepted, its operands are in `PIN`,
`BASE` and `LEN`, the thresholds are those of the clock, the first byte is read, the block waits to drive the first
pulse; no pin and no byte changes (R90, R98, R123). The edge samples the value a `CC` has set, else the counter's (R84,
R98). That the word is the accepting edge alone, after which `start` is low, is the model's (log entries 2 and 23). -/
def Obligations.TransmitIsAccepted : Prop :=
  ∀ (p : PinId) (a l : Nat) (s : State), s.fsm = .idle → s.ports.rst = false → l ≠ 0 →
    a < 2 ^ s.params.addrW → l < 2 ^ s.params.lenW → TxReady p a l (clockEdge (takeSample s)) →
    ∃ (th : Thresholds) (v : Byte) (w : BitVec 7),
      th = (if s.ports.cpuMhz = 80 then ⟨24, 48, 100⟩ else ⟨48, 96, 200⟩) ∧
      Memory.read s.mem a = some v ∧
      w.toNat = 16 + (if s.mask = 1 then 2 else 0) + (if s.idx = s.len then 1 else 0) ∧
      exec (.transmit p a l) s = .next { s with
        fsm := .waitp
        pin := p, base := a, len := l
        thShort := th.short, thLong := th.long, thPeriod := th.period, calResult := th
        startTime := 0, cur := v, idx := 1, mask := 0x80
        ports := { s.ports with start := false, pinIn := p, baseIn := a, lenIn := l }
        ccNext := none
        c := acceptSample s, cycles := acceptSample s
        cc := acceptSample s + BitVec.ofNat 32 s.params.ccStride
        now := s.now + (acceptSample s - s.cc).toNat + s.params.ccStride
        done := false, gpio := none, memRead := some ⟨a, v⟩, stepSel := w }

/-- A TRANSMIT while the block is busy is ignored and lost: but for the levels the host drives on the command ports and the
two bits of the step-select word that show them, its clock edge gives what the edge without it gives (R99, R183; that it is
ignored and not refused is log entry 13). -/
def Obligations.TransmitWhileBusyIsIgnored : Prop :=
  ∀ (p : PinId) (a l : Nat) (s t : State), busy s = true → s.ports.rst = false → s.inputs = [] →
    a < 2 ^ s.params.addrW → l < 2 ^ s.params.lenW → step s = .next t →
    ∃ w : BitVec 7, (∀ i : Nat, i ≠ 3 → i ≠ 4 → w.getLsbD i = t.stepSel.getLsbD i) ∧
      w.getLsbD 4 = true ∧ w.getLsbD 3 = decide (l = 0) ∧
      exec (.transmit p a l) s = .next { t with
        ports := { s.ports with start := false, pinIn := p, baseIn := a, lenIn := l }, stepSel := w }

/-- A TRANSMIT in a step with `rst` high is lost: reset wins (R183, R210). That the counter counts on unsampled, `c`,
`cycles` and `stepSel` stand and the command's levels stay on the ports is the model's choice (log entries 21 and 23). -/
def Obligations.ResetWinsOverTransmit : Prop :=
  ∀ (p : PinId) (a l : Nat) (s : State), s.ports.rst = true → a < 2 ^ s.params.addrW → l < 2 ^ s.params.lenW →
    exec (.transmit p a l) s = .next { s with
      fsm := .idle
      ports := { s.ports with start := false, pinIn := p, baseIn := a, lenIn := l }
      done := false, gpio := none, memRead := none
      cc := s.cc + BitVec.ofNat 32 s.params.ccStride, now := s.now + s.params.ccStride }

/-! ### Frames and whole-machine rules -/

/-- No instruction stores to the buffer memory: every address reads as before (R50, R94). -/
def Obligations.NoInstructionStores : Prop :=
  ∀ (i : Instr) (s t : State), exec i s = .next t → ∀ a : Nat, Memory.read t.mem a = Memory.read s.mem a

/-- The platform's part stands: no instruction changes which pins are outputs, the clock's rate, the interrupt mask or what
UNLOCK will restore (R94, R182), none takes an input from the outside world, and no step, whatever its input, changes the
machine's parameters (R13). -/
def Obligations.NoInstructionTouchesPlatform : Prop :=
  (∀ (i : Instr) (s t : State), exec i s = .next t →
    t.params = s.params ∧ t.pinOut = s.pinOut ∧ t.clkMhz = s.clkMhz ∧ t.clockPast = s.clockPast ∧
    t.intMasked = s.intMasked ∧ t.maskSaved = s.maskSaved ∧ t.inputs = s.inputs) ∧
  (∀ s t : State, step s = .next t → t.params = s.params)

/-- `PIN`, `BASE`, `LEN` and the three thresholds are constant while the block is busy, at every step and under every input
(R21, R22, R98, R107). -/
def Obligations.OperandsConstantWhileBusy : Prop :=
  ∀ s t : State, busy s = true → step s = .next t →
    t.pin = s.pin ∧ t.base = s.base ∧ t.len = s.len ∧
    t.thShort = s.thShort ∧ t.thLong = s.thLong ∧ t.thPeriod = s.thPeriod

/-- A clock edge changes no pin but the one the block's `PIN` names, and that one only by a write on the port: high in a
step that shows SET, low in one that shows CLR, as it was in any other (R54, R55). -/
def Obligations.EdgeDrivesOnlyItsPin : Prop :=
  ∀ s t : State, s.inputs = [] → step s = .next t →
    (∀ q : PinId, q ≠ s.pin → t.lvl.getLsbD q.toNat = s.lvl.getLsbD q.toNat) ∧
    t.lvl.getLsbD s.pin.toNat =
      (match t.gpio with
       | some w => decide (w.op = .set)
       | none => s.lvl.getLsbD s.pin.toNat)

/-- The transition table of `S`: every clock edge makes one of the ten transitions listed, with the GPIO write, the buffer
read and the `done` the table gives it, and no other (R134). -/
def Obligations.TransitionTable : Prop :=
  ∀ s t : State, s.inputs = [] → step s = .next t →
    (s.ports.rst = true → t.fsm = .idle ∧ shown t = (none, false, false)) ∧
    (s.ports.rst = false →
      (∀ z g b e, decode s.params .step (stepWord (clockEdge s)).toNat = .ok (.nopIdle z g b e) →
        s.fsm = .idle ∧ t.fsm = .idle ∧ shown t = (none, false, false)) ∧
      (∀ g b e, decode s.params .step (stepWord (clockEdge s)).toNat = .ok (.return0 g b e) →
        s.fsm = .idle ∧ t.fsm = .idle ∧ shown t = (none, false, true)) ∧
      (∀ g b e, decode s.params .step (stepWord (clockEdge s)).toNat = .ok (.beginTx g b e) →
        s.fsm = .idle ∧ t.fsm = .waitp ∧ shown t = (none, true, false) ∧
        ∃ v, t.memRead = some ⟨s.ports.baseIn, v⟩) ∧
      (∀ x z b e, decode s.params .step (stepWord (clockEdge s)).toNat = .ok (.spinp x z b e) →
        s.fsm = .waitp ∧ t.fsm = .waitp ∧ shown t = (none, false, false)) ∧
      (∀ x z b e, decode s.params .step (stepWord (clockEdge s)).toNat = .ok (.rise x z b e) →
        s.fsm = .waitp ∧ t.fsm = .waith ∧ shown t = (some .set, false, false)) ∧
      (∀ x z b e, decode s.params .step (stepWord (clockEdge s)).toNat = .ok (.spinh x z b e) →
        s.fsm = .waith ∧ t.fsm = .waith ∧ shown t = (none, false, false)) ∧
      (∀ x z e, decode s.params .step (stepWord (clockEdge s)).toNat = .ok (.fallBit x z e) →
        s.fsm = .waith ∧ t.fsm = .waitp ∧ shown t = (some .clr, false, false)) ∧
      (∀ x z, decode s.params .step (stepWord (clockEdge s)).toNat = .ok (.fallByte x z) →
        s.fsm = .waith ∧ t.fsm = .waitp ∧ shown t = (some .clr, true, false) ∧
        ∃ v, t.memRead = some ⟨(s.base + s.idx) % 2 ^ s.params.addrW, v⟩) ∧
      (∀ x z, decode s.params .step (stepWord (clockEdge s)).toNat = .ok (.fallEnd x z) →
        s.fsm = .waith ∧ t.fsm = .idle ∧ shown t = (some .clr, false, true)) ∧
      (∃ i : Instr, decode s.params .step (stepWord (clockEdge s)).toNat = .ok i ∧ i.format = .step))

/-- The cursor advances by exactly one pulse at a fall that does not end the stream and stands at every other edge of a
transmission (R29). -/
def Obligations.CursorAdvancesByOne : Prop :=
  ∀ s t : State, Inv s → busy s = true → s.inputs = [] → s.ports.rst = false → step s = .next t → busy t = true →
    pulseNumber t = (if s.fsm = .waith ∧ t.fsm = .waitp then pulseNumber s + 1 else pulseNumber s) ∧
    pulseNumber t < 8 * t.len

/-- Whatever the samples, the pin is driven high only when at least `TH_PERIOD` ticks have passed since `START`, and low only
when at least the bit's target has, in each case at the first edge at which they have; at every other edge the port shows
no write and the pins stand (R125, R127 to R130, R139). -/
def Obligations.EdgesWaitForTheirThresholds : Prop :=
  ∀ s t : State, s.inputs = [] → s.ports.rst = false → step s = .next t →
    (s.fsm = .waitp →
      (s.thPeriod.toNat ≤ (s.cc - s.startTime).toNat →
        t.fsm = .waith ∧ t.gpio = some ⟨.set, gpioMask s.pin⟩ ∧ t.lvl.getLsbD s.pin.toNat = true ∧
        t.startTime = s.cc) ∧
      ((s.cc - s.startTime).toNat < s.thPeriod.toNat →
        t.fsm = .waitp ∧ t.gpio = none ∧ t.lvl = s.lvl ∧ t.startTime = s.startTime)) ∧
    (s.fsm = .waith → ∀ target : Ticks, target = (if (s.cur &&& s.mask) ≠ 0 then s.thLong else s.thShort) →
      (target.toNat ≤ (s.cc - s.startTime).toNat →
        t.fsm ≠ .waith ∧ t.gpio = some ⟨.clr, gpioMask s.pin⟩ ∧ t.lvl.getLsbD s.pin.toNat = false ∧
        t.startTime = s.startTime) ∧
      ((s.cc - s.startTime).toNat < target.toNat →
        t.fsm = .waith ∧ t.gpio = none ∧ t.lvl = s.lvl ∧ t.startTime = s.startTime))

/-- Elapsed time across the wraparound: when the counter stands `n` ticks after `START`, `n` below 2^32, the edge's elapsed
time is `n`, wherever in the counter's range `START` lies (R136). -/
def Obligations.ElapsedIsTrueTickCount : Prop :=
  ∀ (s : State) (n : Nat), n < 2 ^ 32 → s.cc = s.startTime + BitVec.ofNat 32 n →
    (elapsed (clockEdge s)).toNat = n

/-- While the block is busy the command ports and the clock code are not looked at: two states that differ in them alone
take the same step, but for those ports and the bits 4:3 of the step-select word, which show `start` and `len_in` (R98,
R99, R107). -/
def Obligations.PortsIgnoredWhileBusy : Prop :=
  ∀ (s t : State) (q : Ports), busy s = true → s.inputs = [] → s.ports.rst = false → q.rst = false →
    step s = .next t →
    ∃ w : BitVec 7, (∀ i : Nat, i ≠ 3 → i ≠ 4 → w.getLsbD i = t.stepSel.getLsbD i) ∧
      step { s with ports := q } = .next { t with ports := q, stepSel := w }

/-- The registers are dead in IDLE: two idle states that differ in the ten registers other than `S` alone accept a command
with the same result, but for the bits 1:0 of the step-select word, and in any other step of theirs `S`, the outputs, the
pins and the platform do not depend on the registers (R38). -/
def Obligations.RegistersDeadWhenIdle : Prop :=
  ∀ s s' t : State, s.fsm = .idle → s.inputs = [] → s.ports.rst = false → step s = .next t →
    s' = { s with
      pin := s'.pin, base := s'.base, len := s'.len, thShort := s'.thShort, thLong := s'.thLong
      thPeriod := s'.thPeriod, cur := s'.cur, mask := s'.mask, idx := s'.idx, startTime := s'.startTime } →
    ∃ w : BitVec 7, (∀ i : Nat, 2 ≤ i → w.getLsbD i = t.stepSel.getLsbD i) ∧
      (busy t = true → step s' = .next { t with stepSel := w }) ∧
      (busy t = false → step s' = .next { t with
        pin := s'.pin, base := s'.base, len := s'.len, thShort := s'.thShort, thLong := s'.thLong
        thPeriod := s'.thPeriod, cur := s'.cur, mask := s'.mask, idx := s'.idx, startTime := s'.startTime
        stepSel := w })

/-! ### The buffer memory and the outside world -/

/-- `BUF` in an idle block stores its bytes at ascending addresses and nothing else changes; while a transmission is in
progress it is refused where it would change a byte of its buffer (R53, R84, R221). That it is refused past the last
address (log entry 25), and that bytes stored in the buffer with the values they have are no change (log entry 12), are the
model's choices. -/
def Obligations.HostStoresBuffer : Prop :=
  ∀ (s : State) (a : Nat) (bytes : List Byte) (rest : List Input), s.inputs = .buf a bytes :: rest →
    (2 ^ s.params.addrW < a + bytes.length → step s = .refused .bufferWraps) ∧
    (a + bytes.length ≤ 2 ^ s.params.addrW →
      (busy s = true → (∃ i v, bytes[i]? = some v ∧ s.base ≤ a + i ∧
          a + i < s.base + s.len ∧ Memory.read s.mem (a + i) ≠ some v) →
        step s = .refused .bufferChanged) ∧
      (busy s = false ∨ (∀ i v, bytes[i]? = some v → s.base ≤ a + i →
          a + i < s.base + s.len → Memory.read s.mem (a + i) = some v) →
        ∃ m : Memory, step s = .next { s with mem := m, inputs := rest } ∧
          (∀ i v, bytes[i]? = some v → Memory.read m (a + i) = some v) ∧
          (∀ b : Nat, b < a ∨ a + bytes.length ≤ b → Memory.read m b = Memory.read s.mem b)))

/-- The critical section: after `LOCK` every source is masked and an interrupt changes nothing, and the matching `UNLOCK`
restores the masking in force before; an interrupt taken in a busy block is refused (R155, R156). A third clause, that one
in an idle block changes nothing, and that a masked one is not kept for after `UNLOCK`, are the model's choices (log
entry 19). -/
def Obligations.CriticalSectionMasksInterrupts : Prop :=
  ∀ (s : State) (rest : List Input),
    (s.inputs = .lock :: .interrupt :: .unlock :: rest →
      ∃ t1 t2 : State, step s = .next t1 ∧ t1.intMasked = true ∧
        step t1 = .next t2 ∧ t2 = { t1 with inputs := .unlock :: rest } ∧
        step t2 = .next { s with inputs := rest }) ∧
    (s.inputs = .interrupt :: rest → busy s = true → s.intMasked = false → step s = .refused .interrupted) ∧
    (s.inputs = .interrupt :: rest → busy s = false → step s = .next { s with inputs := rest })

/-- `LEVEL` makes a pin an output at a level, leaving every other pin; on the pin of a transmission in progress it is refused
(R55, R84, R158, R220). The note of the last fall changes only where the pin goes from high to low, at that pin, and is now
(log entry 8). -/
def Obligations.HostSetsPinLevel : Prop :=
  ∀ (s : State) (p : PinId) (v : Bool) (rest : List Input), s.inputs = .level p v :: rest →
    (busy s = true → p = s.pin → step s = .refused .pinShared) ∧
    (busy s = false ∨ p ≠ s.pin →
      ∃ t : State, step s = .next t ∧ t.lvl.getLsbD p.toNat = v ∧ t.pinOut.getLsbD p.toNat = true ∧
        (∀ q : PinId, q ≠ p → t.lvl.getLsbD q.toNat = s.lvl.getLsbD q.toNat ∧
          t.pinOut.getLsbD q.toNat = s.pinOut.getLsbD q.toNat) ∧
        t = { s with
          lvl := t.lvl, pinOut := t.pinOut, inputs := rest
          fellAt := if v then s.fellAt else notedFall p s.lvl s.now s.fellAt })

/-- The latch gap of a pin is timed from its last fall, where the frame ended: it counts as met exactly when more than
`LATCH_US` microseconds have passed since (R171), which is `d` ticks over the clock's rate while the rate stays, and the sum
of the times at each rate where it changes between two frames (R222); FALL_END notes the fall of no other pin. The first
premises are clauses of the invariant; how the model times the gap, in ghosts, is log entry 8. -/
def Obligations.LatchGapTimedFromLastFall : Prop :=
  ∀ (x z : Bool) (s t : State), s.fellAt.length = 16 → (∀ ph ∈ s.clockPast, ph.ended ≤ s.now) →
    s.lvl.getLsbD s.pin.toNat = true → exec (.fallEnd x z) s = .next t →
    (∀ d : Nat, latchGapMet { t with now := t.now + d } s.pin =
      decide (s.clkMhz ≠ 0 ∧ s.params.latchUs * s.clkMhz.toNat < d)) ∧
    (∀ (d d' : Nat) (m : BitVec 8) (u : State), s.clkMhz ≠ 0 → m ≠ 0 →
      step { t with now := t.now + d, inputs := [.freq m] } = .next u →
      latchGapMet { u with now := u.now + d' } s.pin =
        decide (s.params.latchUs * (s.clkMhz.toNat * m.toNat) < d * m.toNat + d' * s.clkMhz.toNat)) ∧
    (∀ (q : PinId) (d : Nat), q ≠ s.pin →
      latchGapMet { t with now := t.now + d } q = latchGapMet { s with now := s.now + d } q)

/-- `FREQ` sets the platform's clock and the code that reports it, and a time at another rate before is noted; while the block
is busy a change of the rate is refused, and a `FREQ` of the unchanged rate runs (R84, R113, R222). That it moves the clock
as well as the code, for any code, is the model's inference (log entry 18); the note is log entry 8. -/
def Obligations.HostSetsClock : Prop :=
  ∀ (s : State) (m : BitVec 8) (rest : List Input), s.inputs = .freq m :: rest →
    (busy s = true → m ≠ s.clkMhz → step s = .refused .clockChanged) ∧
    (m = s.clkMhz → step s = .next { s with ports := { s.ports with cpuMhz := m }, inputs := rest }) ∧
    (busy s = false → m ≠ s.clkMhz → step s = .next { s with
      clkMhz := m, clockPast := ⟨s.now, s.clkMhz⟩ :: s.clockPast
      ports := { s.ports with cpuMhz := m }, inputs := rest })

/-- `GAP t` in an idle block with `start` low lets at least `t` ticks pass (R84, R159), in whole strides (R139, R189); the pins,
the registers and the memory stand (R121) and the counter advances by those strides. That exactly the least number `n` of
edges passes whose strides make up `t` ticks, where the rules say "at least", and that `GAP 0` takes no edge and changes
nothing, in whatever state it comes, are the model's choices (log entry 2). -/
def Obligations.GapLetsTicksPass : Prop :=
  (∀ (t n : Nat) (s : State) (rest : List Input), 0 < n → t ≤ n * s.params.ccStride →
    (n - 1) * s.params.ccStride < t → s.inputs = .gap t :: rest → s.fsm = .idle →
    s.ports.start = false → s.ports.rst = false →
    ∃ u : State, run n s = .next u ∧
      u = { s with
        inputs := rest
        cc := s.cc + BitVec.ofNat 32 (n * s.params.ccStride)
        c := s.cc + BitVec.ofNat 32 ((n - 1) * s.params.ccStride)
        cycles := s.cc + BitVec.ofNat 32 ((n - 1) * s.params.ccStride)
        now := s.now + n * s.params.ccStride
        done := false, gpio := none, memRead := none, stepSel := stepWord u }) ∧
  (∀ (s : State) (rest : List Input), s.inputs = .gap 0 :: rest → step s = .next { s with inputs := rest })

/-! ### Runs -/

/-- The first bit's wait, at stride 1: in WAITP with `START` 0, a sample at or above the period rises at once; at a sample
below the period the block waits, with everything but the counter, its records and the strobes standing, until the sample
is the period, and rises there. The rise is a SET write on `PIN` that enters the trace with its sample (R135, R218). -/
def Obligations.FirstBitWaitsForCounter : Prop :=
  ∀ s : State, s.fsm = .waitp → s.startTime = 0 → s.inputs = [] → s.ports.rst = false → s.params.ccStride = 1 →
    (s.thPeriod ≤ s.cc → step s = .next { s with
      fsm := .waith, startTime := s.cc
      lvl := s.lvl ||| gpioMask s.pin, gpio := some ⟨.set, gpioMask s.pin⟩
      trace := ⟨.set, gpioMask s.pin, s.cc⟩ :: s.trace
      c := s.cc, cycles := s.cc, cc := s.cc + 1, now := s.now + 1
      done := false, memRead := none, stepSel := stepWord (clockEdge s) }) ∧
    (s.cc < s.thPeriod → ∃ u : State, run (s.thPeriod - s.cc).toNat s = .next u ∧
      u = { s with
        c := s.thPeriod - 1, cycles := s.thPeriod - 1, cc := s.thPeriod
        now := s.now + (s.thPeriod - s.cc).toNat
        done := false, gpio := none, memRead := none, stepSel := stepWord u } ∧
      step u = .next { u with
        fsm := .waith, startTime := s.thPeriod
        lvl := s.lvl ||| gpioMask s.pin, gpio := some ⟨.set, gpioMask s.pin⟩
        trace := ⟨.set, gpioMask s.pin, s.thPeriod⟩ :: s.trace
        c := s.thPeriod, cycles := s.thPeriod, cc := s.thPeriod + 1, now := u.now + 1
        stepSel := stepWord (clockEdge u) })

/-- The engine sends the symbol of the current bit. From every state of WAITP that meets the invariant, the engine's edges
up to and including the falling write do to the pins, the trace and the notes of falls exactly what the symbol T1 (bit 1)
or T0 (bit 0) does from an idle twin whose next sample is that of the engine's rise, on the same pin with the thresholds
of its clock; the command's operands, thresholds and buffer stand; and where the transmission goes on, its next rise is at
the sample, and at the time, at which the symbol ends (R141, R165 to R168). That T0 and T1 are whole pulses as words is
log entry 14. -/
def Obligations.EngineSendsSymbolOfBit : Prop :=
  ∀ s x : State, Inv s → s.fsm = .waitp → s.inputs = [] → s.ports.rst = false →
    x.fsm = .idle → x.ports.rst = false → x.params = s.params → x.ports.pinIn = s.pin →
    x.pinOut.getLsbD s.pin.toNat = true → calibrate x.ports.cpuMhz = some ⟨s.thShort, s.thLong, s.thPeriod⟩ →
    x.lvl = s.lvl → x.trace = s.trace → x.fellAt = s.fellAt →
    x.cc = riseSample s → x.now = s.now + riseWait s * s.params.ccStride →
    ∃ (n : Nat) (u v : State), 0 < n ∧
      exec (if bit1 s then .t1 else .t0) x = .next v ∧
      run n s = .next u ∧
      (∀ k < n, ∃ y : State, run k s = .next y ∧ busy y = true) ∧
      u.lvl = v.lvl ∧ u.trace = v.trace ∧ u.fellAt = v.fellAt ∧
      u.pin = s.pin ∧ u.base = s.base ∧ u.len = s.len ∧
      u.thShort = s.thShort ∧ u.thLong = s.thLong ∧ u.thPeriod = s.thPeriod ∧ u.mem = s.mem ∧
      (busy u = true → riseSample u = v.cc ∧ u.now + riseWait u * u.params.ccStride = v.now)

/-- A whole transmission, exactly, at stride 1. From every idle state that meets the invariant, in which the command
`{p, a, l}`, `l` not zero, is presented with its preconditions met, the machine runs, step by step and without a stop, to
the `done` step after exactly `2 + w + (8 l - 1) P + t_last` steps (R140); the GPIO writes it makes are, in order and at
their exact samples, those of the waveform of the buffer's bits, most significant first (R97), each high for its bit's
target and rising one period after the one before, the first at the next sample or, near counter zero, at the period;
`done` is raised in the last step at the sample of the last fall (R138); all pins are as before, the pin low (R95); and
memory is unchanged (R94). That the command is a word in the inputs is log entry 2. -/
def Obligations.TransmissionProducesExactWaveform : Prop :=
  ∀ (s : State) (p : PinId) (a l : Nat) (bytes : List Byte) (th : Thresholds) (last : Bool),
    Presented s p a l bytes th last →
    ∃ t : State,
      run (transmissionSteps th (acceptSample s) (8 * l) last) s = .next t ∧
      t.done = true ∧ t.fsm = .idle ∧
      t.trace = (waveform (gpioMask p) th (firstRise th (acceptSample s)) (bitsOf bytes)).reverse ++ s.trace ∧
      t.trace.length = 16 * l + s.trace.length ∧
      t.lvl = s.lvl ∧ t.lvl.getLsbD p.toNat = false ∧
      t.c = firstRise th (acceptSample s) + BitVec.ofNat 32 (8 * l - 1) * th.period + targetOf th last ∧
      t.mem = s.mem ∧ t.inputs = []

/-! ### The ports, the wait for `done`, and the frame on the line -/

/-- The host drives the input ports, each at its width, with no clock edge passing (R32, log entry 2). A `start` held at 1
with `len_in` 0 is a RETURN0 in each step: `done` every time, and no register, pin or byte changes (R98, V40-D). A `start`
held at 1 with a command is one transmission until its `done` and not two: while the block is busy, an edge with it held
leaves the operands and the thresholds, and does what the edge with `start` low does; the step after `done` accepts again
(R98, R99, V40-D). -/
def Obligations.HostDrivesPorts : Prop :=
  (∀ (s : State) (p : Ports) (rest : List Input), s.inputs = .drive p :: rest →
    step s = .next { s with
      inputs := rest
      ports := { p with baseIn := p.baseIn % 2 ^ s.params.addrW, lenIn := p.lenIn % 2 ^ s.params.lenW } }) ∧
  (∀ (s : State) (k : Nat), s.inputs = [] → s.fsm = .idle → s.ports.rst = false → s.ports.start = true →
    s.ports.lenIn = 0 →
    ∃ t : State, run (k + 1) s = .next t ∧
      t = { s with
        done := true, gpio := none, memRead := none
        c := s.cc + BitVec.ofNat 32 (k * s.params.ccStride), cycles := s.cc + BitVec.ofNat 32 (k * s.params.ccStride)
        cc := s.cc + BitVec.ofNat 32 ((k + 1) * s.params.ccStride), now := s.now + (k + 1) * s.params.ccStride
        stepSel := t.stepSel }) ∧
  (∀ s t : State, s.inputs = [] → s.ports.rst = false → busy s = true → s.ports.start = true → step s = .next t →
    t.pin = s.pin ∧ t.base = s.base ∧ t.len = s.len ∧
    t.thShort = s.thShort ∧ t.thLong = s.thLong ∧ t.thPeriod = s.thPeriod ∧ t.ports = s.ports ∧
    (∃ u : State, step { s with ports := { s.ports with start := false } } = .next u ∧
      t = { u with ports := s.ports, stepSel := t.stepSel }) ∧
    (t.done = true → s.ports.lenIn ≠ 0 → TxReady s.ports.pinIn s.ports.baseIn s.ports.lenIn (clockEdge t) →
      ∃ v : State, step t = .next v ∧ v.fsm = .waitp ∧ v.pin = s.ports.pinIn ∧ v.idx = 1))

/-- The second half of `TX` (R84): while the block is busy each step of the wait is the clock edge that passes with no input,
and the wait stays first in line; in an idle block it is over and nothing else changes. From every busy state that meets
the invariant, `rst` low, it ends within 300 steps a pulse and one more, with the block idle (R100, R102). That the wait
looks at the idle block and not at `done`, which a command abandoned by reset never raises, is the model's choice (log
entry 27). -/
def Obligations.WaitLastsUntilDone : Prop :=
  (∀ (s t : State) (rest : List Input), s.inputs = .waitDone :: rest → busy s = true →
    step { s with inputs := [] } = .next t → step s = .next { t with inputs := .waitDone :: rest }) ∧
  (∀ (s : State) (rest : List Input), s.inputs = .waitDone :: rest → busy s = false →
    step s = .next { s with inputs := rest }) ∧
  (∀ (s : State) (rest : List Input), Inv s → s.inputs = .waitDone :: rest → busy s = true → s.ports.rst = false →
    ∃ (n : Nat) (t : State), n ≤ 300 * (8 * s.len) + 1 ∧ run n s = .next t ∧ t.fsm = .idle ∧ t.inputs = rest)

/-- `UNLOCK` with no `LOCK` before it is refused; with one it restores the masking in force before, and nothing else changes
(R156). That it is performed while the block is busy too, where R156 has the host give it after `done`, and the refusal of
one without a `LOCK`, are the model's choices (log entry 19). -/
def Obligations.UnlockNeedsLock : Prop :=
  ∀ (s : State) (rest : List Input), s.inputs = .unlock :: rest →
    (s.maskSaved = [] → step s = .refused .unlockUnpaired) ∧
    (∀ (m : Bool) (ms : List Bool), s.maskSaved = m :: ms →
      step s = .next { s with intMasked := m, maskSaved := ms, inputs := rest })

/-- A transmission reads each byte of its buffer exactly once, in ascending order, and no other address (R52). -/
def Obligations.BufferIsReadOnceInOrder : Prop :=
  ∀ (s : State) (p : PinId) (a l : Nat) (bytes : List Byte) (th : Thresholds) (last : Bool),
    Presented s p a l bytes th last →
    readsAlong (transmissionSteps th (acceptSample s) (8 * l) last) s =
      List.zipWith (fun i b => ⟨a + i, b⟩) (List.range l) bytes

/-- Every frame the block sends at stride 1 is well-formed, the latch gap at least one microsecond: its pulses classify, in
order, as the buffer's bits, every rise-to-rise distance is at least 1.25 microseconds, and every low time inside the
frame is shorter than the latch gap (R172). -/
def Obligations.FramesAreWellFormed : Prop :=
  ∀ (s : State) (p : PinId) (a l : Nat) (bytes : List Byte) (th : Thresholds) (last : Bool),
    Presented s p a l bytes th last → 1 ≤ s.params.latchUs →
    ∃ (t : State) (frame : List TraceEvent),
      run (transmissionSteps th (acceptSample s) (8 * l) last) s = .next t ∧
      t.trace = frame.reverse ++ s.trace ∧
      WellFormedFrame s.params s.ports.cpuMhz.toNat (gpioMask p) (bitsOf bytes) frame

/-- The level of a pin along a waveform, read off the write trace (R173): before the first rise it is what it was; `d` ticks
after the rise of pulse `n`, `d` below the period, it is high exactly while `d` is below the bit's target. The waveform lies
within one turn of the counter from `c0` (how `levelAt` orders samples is log entry 26). -/
def Obligations.WaveformLevels : Prop :=
  ∀ (m : BitVec 8) (th : Thresholds) (p : PinId) (before : Bool) (c0 : Ticks) (wait : Nat) (bits : List Bool),
    calibrate m = some th → wait + bits.length * th.period.toNat < 2 ^ 32 →
    (∀ d < wait, levelAt p before c0
      (waveform (gpioMask p) th (c0 + BitVec.ofNat 32 wait) bits).reverse (c0 + BitVec.ofNat 32 d) = before) ∧
    (∀ (n : Nat) (b : Bool) (d : Nat), bits[n]? = some b → d < th.period.toNat →
      levelAt p before c0 (waveform (gpioMask p) th (c0 + BitVec.ofNat 32 wait) bits).reverse
        (c0 + BitVec.ofNat 32 (wait + n * th.period.toNat + d)) = decide (d < (targetOf th b).toNat))

/-- `CC v` sets the counter sample of the accepting step of the next `TX` (R84), which is the step of the TRANSMIT word (R98):
accepted in an idle block, the word samples `v`, or the counter where none is set, and uses the setting up. A clock edge in
between leaves it set and samples the counter as it stands. That the TRANSMIT word is the accepting step, and that a
command accepted by a clock edge, because the host holds `start`, samples the counter as it stands and leaves the `CC`
set for the next word, are the model's choices (log entry 2). -/
def Obligations.CcSetsSampleOfNextCommand : Prop :=
  (∀ (s : State) (v : Ticks) (rest : List Input), s.inputs = .cc v :: rest →
    step s = .next { s with ccNext := some v, inputs := rest }) ∧
  (∀ s t : State, s.inputs = [] → s.ports.rst = false → step s = .next t → t.ccNext = s.ccNext ∧ t.c = s.cc) ∧
  (∀ (p : PinId) (a l : Nat) (s t : State), s.fsm = .idle → s.ports.rst = false → exec (.transmit p a l) s = .next t →
    t.ccNext = none ∧ t.c = (match s.ccNext with | some v => v | none => s.cc) ∧
    t.cc = t.c + BitVec.ofNat 32 s.params.ccStride)

/-- A first frame needs its latch gap (R171, R214): after power-up a BEGIN with every other precondition met is refused until
more than `LATCH_US` microseconds of ticks have passed, and is accepted then. In the reset state the gap counts as passed
on every pin, as the spec's own programs need, which run from reset with no `GAP` (that power-up and reset are two states,
and how the gap is timed, is log entry 8). -/
def Obligations.FirstFrameNeedsGap : Prop :=
  (∀ (g b e : Bool) (d : Nat) (ports : Ports) (mem : Memory),
    ports.cpuMhz = 80 ∨ ports.cpuMhz = 160 → ports.lenIn ≠ 0 → ports.baseIn + ports.lenIn ≤ 2 ^ 32 →
    (∀ i < ports.lenIn, (Memory.read mem (ports.baseIn + i)).isSome = true) →
    (d ≤ 50 * ports.cpuMhz.toNat →
      exec (.beginTx g b e) { State.powerUp with
        now := d, clkMhz := ports.cpuMhz, ports := ports, mem := mem } = .refused .noLatchGap) ∧
    (50 * ports.cpuMhz.toNat < d → ∃ t : State,
      exec (.beginTx g b e) { State.powerUp with
        now := d, clkMhz := ports.cpuMhz, ports := ports, mem := mem } = .next t ∧ t.fsm = .waitp)) ∧
  (∀ (p : PinId) (d : Nat), latchGapMet { State.reset with now := d } p = true)
end

