-- ==== Sys2Proof/Laws/State.lean ====
section
/-! SUPPORT. For each update of the state, the value of each field after it: one lemma per field per update, so that no proof
unfolds a record update. -/

namespace Sys2Proof.Machine

/-! ### `setLevels` -/

@[simp] theorem setLevels_params (l : PinMask) (s : State) : (setLevels l s).params = s.params := rfl
@[simp] theorem setLevels_fsm (l : PinMask) (s : State) : (setLevels l s).fsm = s.fsm := rfl
@[simp] theorem setLevels_pin (l : PinMask) (s : State) : (setLevels l s).pin = s.pin := rfl
@[simp] theorem setLevels_base (l : PinMask) (s : State) : (setLevels l s).base = s.base := rfl
@[simp] theorem setLevels_len (l : PinMask) (s : State) : (setLevels l s).len = s.len := rfl
@[simp] theorem setLevels_thShort (l : PinMask) (s : State) : (setLevels l s).thShort = s.thShort := rfl
@[simp] theorem setLevels_thLong (l : PinMask) (s : State) : (setLevels l s).thLong = s.thLong := rfl
@[simp] theorem setLevels_thPeriod (l : PinMask) (s : State) : (setLevels l s).thPeriod = s.thPeriod := rfl
@[simp] theorem setLevels_cur (l : PinMask) (s : State) : (setLevels l s).cur = s.cur := rfl
@[simp] theorem setLevels_mask (l : PinMask) (s : State) : (setLevels l s).mask = s.mask := rfl
@[simp] theorem setLevels_idx (l : PinMask) (s : State) : (setLevels l s).idx = s.idx := rfl
@[simp] theorem setLevels_startTime (l : PinMask) (s : State) : (setLevels l s).startTime = s.startTime := rfl
@[simp] theorem setLevels_ports (l : PinMask) (s : State) : (setLevels l s).ports = s.ports := rfl
@[simp] theorem setLevels_cc (l : PinMask) (s : State) : (setLevels l s).cc = s.cc := rfl
@[simp] theorem setLevels_done (l : PinMask) (s : State) : (setLevels l s).done = s.done := rfl
@[simp] theorem setLevels_gpio (l : PinMask) (s : State) : (setLevels l s).gpio = s.gpio := rfl
@[simp] theorem setLevels_memRead (l : PinMask) (s : State) : (setLevels l s).memRead = s.memRead := rfl
@[simp] theorem setLevels_c (l : PinMask) (s : State) : (setLevels l s).c = s.c := rfl
@[simp] theorem setLevels_cycles (l : PinMask) (s : State) : (setLevels l s).cycles = s.cycles := rfl
@[simp] theorem setLevels_calResult (l : PinMask) (s : State) : (setLevels l s).calResult = s.calResult := rfl
@[simp] theorem setLevels_stepSel (l : PinMask) (s : State) : (setLevels l s).stepSel = s.stepSel := rfl
@[simp] theorem setLevels_lvl (l : PinMask) (s : State) : (setLevels l s).lvl = l := rfl
@[simp] theorem setLevels_pinOut (l : PinMask) (s : State) : (setLevels l s).pinOut = s.pinOut := rfl
@[simp] theorem setLevels_mem (l : PinMask) (s : State) : (setLevels l s).mem = s.mem := rfl
@[simp] theorem setLevels_clkMhz (l : PinMask) (s : State) : (setLevels l s).clkMhz = s.clkMhz := rfl
@[simp] theorem setLevels_clockPast (l : PinMask) (s : State) : (setLevels l s).clockPast = s.clockPast := rfl
@[simp] theorem setLevels_intMasked (l : PinMask) (s : State) : (setLevels l s).intMasked = s.intMasked := rfl
@[simp] theorem setLevels_maskSaved (l : PinMask) (s : State) : (setLevels l s).maskSaved = s.maskSaved := rfl
@[simp] theorem setLevels_trace (l : PinMask) (s : State) : (setLevels l s).trace = s.trace := rfl
@[simp] theorem setLevels_now (l : PinMask) (s : State) : (setLevels l s).now = s.now := rfl
@[simp] theorem setLevels_fellAt (l : PinMask) (s : State) : (setLevels l s).fellAt =
    markFalls s.lvl l s.now 0 s.fellAt := rfl
@[simp] theorem setLevels_ccNext (l : PinMask) (s : State) : (setLevels l s).ccNext = s.ccNext := rfl
@[simp] theorem setLevels_inputs (l : PinMask) (s : State) : (setLevels l s).inputs = s.inputs := rfl

/-! ### `drivePort` -/

@[simp] theorem drivePort_params (op : GpioOp) (m : PinMask) (s : State) : (drivePort op m s).params = s.params := rfl
@[simp] theorem drivePort_fsm (op : GpioOp) (m : PinMask) (s : State) : (drivePort op m s).fsm = s.fsm := rfl
@[simp] theorem drivePort_pin (op : GpioOp) (m : PinMask) (s : State) : (drivePort op m s).pin = s.pin := rfl
@[simp] theorem drivePort_base (op : GpioOp) (m : PinMask) (s : State) : (drivePort op m s).base = s.base := rfl
@[simp] theorem drivePort_len (op : GpioOp) (m : PinMask) (s : State) : (drivePort op m s).len = s.len := rfl
@[simp] theorem drivePort_thShort (op : GpioOp) (m : PinMask) (s : State) : (drivePort op m s).thShort =
    s.thShort := rfl
@[simp] theorem drivePort_thLong (op : GpioOp) (m : PinMask) (s : State) : (drivePort op m s).thLong = s.thLong := rfl
@[simp] theorem drivePort_thPeriod (op : GpioOp) (m : PinMask) (s : State) : (drivePort op m s).thPeriod =
    s.thPeriod := rfl
@[simp] theorem drivePort_cur (op : GpioOp) (m : PinMask) (s : State) : (drivePort op m s).cur = s.cur := rfl
@[simp] theorem drivePort_mask (op : GpioOp) (m : PinMask) (s : State) : (drivePort op m s).mask = s.mask := rfl
@[simp] theorem drivePort_idx (op : GpioOp) (m : PinMask) (s : State) : (drivePort op m s).idx = s.idx := rfl
@[simp] theorem drivePort_startTime (op : GpioOp) (m : PinMask) (s : State) : (drivePort op m s).startTime =
    s.startTime := rfl
@[simp] theorem drivePort_ports (op : GpioOp) (m : PinMask) (s : State) : (drivePort op m s).ports = s.ports := rfl
@[simp] theorem drivePort_cc (op : GpioOp) (m : PinMask) (s : State) : (drivePort op m s).cc = s.cc := rfl
@[simp] theorem drivePort_done (op : GpioOp) (m : PinMask) (s : State) : (drivePort op m s).done = s.done := rfl
@[simp] theorem drivePort_gpio (op : GpioOp) (m : PinMask) (s : State) : (drivePort op m s).gpio = some ⟨op, m⟩ := rfl
@[simp] theorem drivePort_memRead (op : GpioOp) (m : PinMask) (s : State) : (drivePort op m s).memRead =
    s.memRead := rfl
@[simp] theorem drivePort_c (op : GpioOp) (m : PinMask) (s : State) : (drivePort op m s).c = s.c := rfl
@[simp] theorem drivePort_cycles (op : GpioOp) (m : PinMask) (s : State) : (drivePort op m s).cycles = s.cycles := rfl
@[simp] theorem drivePort_calResult (op : GpioOp) (m : PinMask) (s : State) : (drivePort op m s).calResult =
    s.calResult := rfl
@[simp] theorem drivePort_stepSel (op : GpioOp) (m : PinMask) (s : State) : (drivePort op m s).stepSel =
    s.stepSel := rfl
@[simp] theorem drivePort_lvl (op : GpioOp) (m : PinMask) (s : State) : (drivePort op m s).lvl =
    driveLevels op m s.lvl := rfl
@[simp] theorem drivePort_pinOut (op : GpioOp) (m : PinMask) (s : State) : (drivePort op m s).pinOut = s.pinOut := rfl
@[simp] theorem drivePort_mem (op : GpioOp) (m : PinMask) (s : State) : (drivePort op m s).mem = s.mem := rfl
@[simp] theorem drivePort_clkMhz (op : GpioOp) (m : PinMask) (s : State) : (drivePort op m s).clkMhz = s.clkMhz := rfl
@[simp] theorem drivePort_clockPast (op : GpioOp) (m : PinMask) (s : State) : (drivePort op m s).clockPast =
    s.clockPast := rfl
@[simp] theorem drivePort_intMasked (op : GpioOp) (m : PinMask) (s : State) : (drivePort op m s).intMasked =
    s.intMasked := rfl
@[simp] theorem drivePort_maskSaved (op : GpioOp) (m : PinMask) (s : State) : (drivePort op m s).maskSaved =
    s.maskSaved := rfl
@[simp] theorem drivePort_trace (op : GpioOp) (m : PinMask) (s : State) : (drivePort op m s).trace = s.trace := rfl
@[simp] theorem drivePort_now (op : GpioOp) (m : PinMask) (s : State) : (drivePort op m s).now = s.now := rfl
@[simp] theorem drivePort_fellAt (op : GpioOp) (m : PinMask) (s : State) : (drivePort op m s).fellAt =
    markFalls s.lvl (driveLevels op m s.lvl) s.now 0 s.fellAt := rfl
@[simp] theorem drivePort_ccNext (op : GpioOp) (m : PinMask) (s : State) : (drivePort op m s).ccNext = s.ccNext := rfl
@[simp] theorem drivePort_inputs (op : GpioOp) (m : PinMask) (s : State) : (drivePort op m s).inputs = s.inputs := rfl

/-! ### `gpioWrite` -/

@[simp] theorem gpioWrite_params (op : GpioOp) (m : PinMask) (s : State) : (gpioWrite op m s).params = s.params := rfl
@[simp] theorem gpioWrite_fsm (op : GpioOp) (m : PinMask) (s : State) : (gpioWrite op m s).fsm = s.fsm := rfl
@[simp] theorem gpioWrite_pin (op : GpioOp) (m : PinMask) (s : State) : (gpioWrite op m s).pin = s.pin := rfl
@[simp] theorem gpioWrite_base (op : GpioOp) (m : PinMask) (s : State) : (gpioWrite op m s).base = s.base := rfl
@[simp] theorem gpioWrite_len (op : GpioOp) (m : PinMask) (s : State) : (gpioWrite op m s).len = s.len := rfl
@[simp] theorem gpioWrite_thShort (op : GpioOp) (m : PinMask) (s : State) : (gpioWrite op m s).thShort =
    s.thShort := rfl
@[simp] theorem gpioWrite_thLong (op : GpioOp) (m : PinMask) (s : State) : (gpioWrite op m s).thLong = s.thLong := rfl
@[simp] theorem gpioWrite_thPeriod (op : GpioOp) (m : PinMask) (s : State) : (gpioWrite op m s).thPeriod =
    s.thPeriod := rfl
@[simp] theorem gpioWrite_cur (op : GpioOp) (m : PinMask) (s : State) : (gpioWrite op m s).cur = s.cur := rfl
@[simp] theorem gpioWrite_mask (op : GpioOp) (m : PinMask) (s : State) : (gpioWrite op m s).mask = s.mask := rfl
@[simp] theorem gpioWrite_idx (op : GpioOp) (m : PinMask) (s : State) : (gpioWrite op m s).idx = s.idx := rfl
@[simp] theorem gpioWrite_startTime (op : GpioOp) (m : PinMask) (s : State) : (gpioWrite op m s).startTime =
    s.startTime := rfl
@[simp] theorem gpioWrite_ports (op : GpioOp) (m : PinMask) (s : State) : (gpioWrite op m s).ports = s.ports := rfl
@[simp] theorem gpioWrite_cc (op : GpioOp) (m : PinMask) (s : State) : (gpioWrite op m s).cc = s.cc := rfl
@[simp] theorem gpioWrite_done (op : GpioOp) (m : PinMask) (s : State) : (gpioWrite op m s).done = s.done := rfl
@[simp] theorem gpioWrite_gpio (op : GpioOp) (m : PinMask) (s : State) : (gpioWrite op m s).gpio = some ⟨op, m⟩ := rfl
@[simp] theorem gpioWrite_memRead (op : GpioOp) (m : PinMask) (s : State) : (gpioWrite op m s).memRead =
    s.memRead := rfl
@[simp] theorem gpioWrite_c (op : GpioOp) (m : PinMask) (s : State) : (gpioWrite op m s).c = s.c := rfl
@[simp] theorem gpioWrite_cycles (op : GpioOp) (m : PinMask) (s : State) : (gpioWrite op m s).cycles = s.cycles := rfl
@[simp] theorem gpioWrite_calResult (op : GpioOp) (m : PinMask) (s : State) : (gpioWrite op m s).calResult =
    s.calResult := rfl
@[simp] theorem gpioWrite_stepSel (op : GpioOp) (m : PinMask) (s : State) : (gpioWrite op m s).stepSel =
    s.stepSel := rfl
@[simp] theorem gpioWrite_lvl (op : GpioOp) (m : PinMask) (s : State) : (gpioWrite op m s).lvl =
    driveLevels op m s.lvl := rfl
@[simp] theorem gpioWrite_pinOut (op : GpioOp) (m : PinMask) (s : State) : (gpioWrite op m s).pinOut = s.pinOut := rfl
@[simp] theorem gpioWrite_mem (op : GpioOp) (m : PinMask) (s : State) : (gpioWrite op m s).mem = s.mem := rfl
@[simp] theorem gpioWrite_clkMhz (op : GpioOp) (m : PinMask) (s : State) : (gpioWrite op m s).clkMhz = s.clkMhz := rfl
@[simp] theorem gpioWrite_clockPast (op : GpioOp) (m : PinMask) (s : State) : (gpioWrite op m s).clockPast =
    s.clockPast := rfl
@[simp] theorem gpioWrite_intMasked (op : GpioOp) (m : PinMask) (s : State) : (gpioWrite op m s).intMasked =
    s.intMasked := rfl
@[simp] theorem gpioWrite_maskSaved (op : GpioOp) (m : PinMask) (s : State) : (gpioWrite op m s).maskSaved =
    s.maskSaved := rfl
@[simp] theorem gpioWrite_trace (op : GpioOp) (m : PinMask) (s : State) : (gpioWrite op m s).trace =
    ⟨op, m, s.c⟩ :: s.trace := rfl
@[simp] theorem gpioWrite_now (op : GpioOp) (m : PinMask) (s : State) : (gpioWrite op m s).now = s.now := rfl
@[simp] theorem gpioWrite_fellAt (op : GpioOp) (m : PinMask) (s : State) : (gpioWrite op m s).fellAt =
    markFalls s.lvl (driveLevels op m s.lvl) s.now 0 s.fellAt := rfl
@[simp] theorem gpioWrite_ccNext (op : GpioOp) (m : PinMask) (s : State) : (gpioWrite op m s).ccNext = s.ccNext := rfl
@[simp] theorem gpioWrite_inputs (op : GpioOp) (m : PinMask) (s : State) : (gpioWrite op m s).inputs = s.inputs := rfl

/-! ### `runOn` -/

@[simp] theorem runOn_params (v : Ticks) (s : State) : (runOn v s).params = s.params := rfl
@[simp] theorem runOn_fsm (v : Ticks) (s : State) : (runOn v s).fsm = s.fsm := rfl
@[simp] theorem runOn_pin (v : Ticks) (s : State) : (runOn v s).pin = s.pin := rfl
@[simp] theorem runOn_base (v : Ticks) (s : State) : (runOn v s).base = s.base := rfl
@[simp] theorem runOn_len (v : Ticks) (s : State) : (runOn v s).len = s.len := rfl
@[simp] theorem runOn_thShort (v : Ticks) (s : State) : (runOn v s).thShort = s.thShort := rfl
@[simp] theorem runOn_thLong (v : Ticks) (s : State) : (runOn v s).thLong = s.thLong := rfl
@[simp] theorem runOn_thPeriod (v : Ticks) (s : State) : (runOn v s).thPeriod = s.thPeriod := rfl
@[simp] theorem runOn_cur (v : Ticks) (s : State) : (runOn v s).cur = s.cur := rfl
@[simp] theorem runOn_mask (v : Ticks) (s : State) : (runOn v s).mask = s.mask := rfl
@[simp] theorem runOn_idx (v : Ticks) (s : State) : (runOn v s).idx = s.idx := rfl
@[simp] theorem runOn_startTime (v : Ticks) (s : State) : (runOn v s).startTime = s.startTime := rfl
@[simp] theorem runOn_ports (v : Ticks) (s : State) : (runOn v s).ports = s.ports := rfl
@[simp] theorem runOn_cc (v : Ticks) (s : State) : (runOn v s).cc = v := rfl
@[simp] theorem runOn_done (v : Ticks) (s : State) : (runOn v s).done = s.done := rfl
@[simp] theorem runOn_gpio (v : Ticks) (s : State) : (runOn v s).gpio = s.gpio := rfl
@[simp] theorem runOn_memRead (v : Ticks) (s : State) : (runOn v s).memRead = s.memRead := rfl
@[simp] theorem runOn_c (v : Ticks) (s : State) : (runOn v s).c = s.c := rfl
@[simp] theorem runOn_cycles (v : Ticks) (s : State) : (runOn v s).cycles = s.cycles := rfl
@[simp] theorem runOn_calResult (v : Ticks) (s : State) : (runOn v s).calResult = s.calResult := rfl
@[simp] theorem runOn_stepSel (v : Ticks) (s : State) : (runOn v s).stepSel = s.stepSel := rfl
@[simp] theorem runOn_lvl (v : Ticks) (s : State) : (runOn v s).lvl = s.lvl := rfl
@[simp] theorem runOn_pinOut (v : Ticks) (s : State) : (runOn v s).pinOut = s.pinOut := rfl
@[simp] theorem runOn_mem (v : Ticks) (s : State) : (runOn v s).mem = s.mem := rfl
@[simp] theorem runOn_clkMhz (v : Ticks) (s : State) : (runOn v s).clkMhz = s.clkMhz := rfl
@[simp] theorem runOn_clockPast (v : Ticks) (s : State) : (runOn v s).clockPast = s.clockPast := rfl
@[simp] theorem runOn_intMasked (v : Ticks) (s : State) : (runOn v s).intMasked = s.intMasked := rfl
@[simp] theorem runOn_maskSaved (v : Ticks) (s : State) : (runOn v s).maskSaved = s.maskSaved := rfl
@[simp] theorem runOn_trace (v : Ticks) (s : State) : (runOn v s).trace = s.trace := rfl
@[simp] theorem runOn_now (v : Ticks) (s : State) : (runOn v s).now = s.now + (v - s.cc).toNat := rfl
@[simp] theorem runOn_fellAt (v : Ticks) (s : State) : (runOn v s).fellAt = s.fellAt := rfl
@[simp] theorem runOn_ccNext (v : Ticks) (s : State) : (runOn v s).ccNext = s.ccNext := rfl
@[simp] theorem runOn_inputs (v : Ticks) (s : State) : (runOn v s).inputs = s.inputs := rfl

/-! ### `sampleCounter` -/

@[simp] theorem sampleCounter_params (s : State) : (sampleCounter s).params = s.params := rfl
@[simp] theorem sampleCounter_fsm (s : State) : (sampleCounter s).fsm = s.fsm := rfl
@[simp] theorem sampleCounter_pin (s : State) : (sampleCounter s).pin = s.pin := rfl
@[simp] theorem sampleCounter_base (s : State) : (sampleCounter s).base = s.base := rfl
@[simp] theorem sampleCounter_len (s : State) : (sampleCounter s).len = s.len := rfl
@[simp] theorem sampleCounter_thShort (s : State) : (sampleCounter s).thShort = s.thShort := rfl
@[simp] theorem sampleCounter_thLong (s : State) : (sampleCounter s).thLong = s.thLong := rfl
@[simp] theorem sampleCounter_thPeriod (s : State) : (sampleCounter s).thPeriod = s.thPeriod := rfl
@[simp] theorem sampleCounter_cur (s : State) : (sampleCounter s).cur = s.cur := rfl
@[simp] theorem sampleCounter_mask (s : State) : (sampleCounter s).mask = s.mask := rfl
@[simp] theorem sampleCounter_idx (s : State) : (sampleCounter s).idx = s.idx := rfl
@[simp] theorem sampleCounter_startTime (s : State) : (sampleCounter s).startTime = s.startTime := rfl
@[simp] theorem sampleCounter_ports (s : State) : (sampleCounter s).ports = s.ports := rfl
@[simp] theorem sampleCounter_cc (s : State) : (sampleCounter s).cc = s.cc + s.params.stride := rfl
@[simp] theorem sampleCounter_done (s : State) : (sampleCounter s).done = s.done := rfl
@[simp] theorem sampleCounter_gpio (s : State) : (sampleCounter s).gpio = s.gpio := rfl
@[simp] theorem sampleCounter_memRead (s : State) : (sampleCounter s).memRead = s.memRead := rfl
@[simp] theorem sampleCounter_c (s : State) : (sampleCounter s).c = s.cc := rfl
@[simp] theorem sampleCounter_cycles (s : State) : (sampleCounter s).cycles = s.cc := rfl
@[simp] theorem sampleCounter_calResult (s : State) : (sampleCounter s).calResult = s.calResult := rfl
@[simp] theorem sampleCounter_stepSel (s : State) : (sampleCounter s).stepSel = s.stepSel := rfl
@[simp] theorem sampleCounter_lvl (s : State) : (sampleCounter s).lvl = s.lvl := rfl
@[simp] theorem sampleCounter_pinOut (s : State) : (sampleCounter s).pinOut = s.pinOut := rfl
@[simp] theorem sampleCounter_mem (s : State) : (sampleCounter s).mem = s.mem := rfl
@[simp] theorem sampleCounter_clkMhz (s : State) : (sampleCounter s).clkMhz = s.clkMhz := rfl
@[simp] theorem sampleCounter_clockPast (s : State) : (sampleCounter s).clockPast = s.clockPast := rfl
@[simp] theorem sampleCounter_intMasked (s : State) : (sampleCounter s).intMasked = s.intMasked := rfl
@[simp] theorem sampleCounter_maskSaved (s : State) : (sampleCounter s).maskSaved = s.maskSaved := rfl
@[simp] theorem sampleCounter_trace (s : State) : (sampleCounter s).trace = s.trace := rfl
@[simp] theorem sampleCounter_now (s : State) : (sampleCounter s).now = s.now + s.params.ccStride := rfl
@[simp] theorem sampleCounter_fellAt (s : State) : (sampleCounter s).fellAt = s.fellAt := rfl
@[simp] theorem sampleCounter_ccNext (s : State) : (sampleCounter s).ccNext = s.ccNext := rfl
@[simp] theorem sampleCounter_inputs (s : State) : (sampleCounter s).inputs = s.inputs := rfl

/-! ### `clearOutputs` -/

@[simp] theorem clearOutputs_params (s : State) : (clearOutputs s).params = s.params := rfl
@[simp] theorem clearOutputs_fsm (s : State) : (clearOutputs s).fsm = s.fsm := rfl
@[simp] theorem clearOutputs_pin (s : State) : (clearOutputs s).pin = s.pin := rfl
@[simp] theorem clearOutputs_base (s : State) : (clearOutputs s).base = s.base := rfl
@[simp] theorem clearOutputs_len (s : State) : (clearOutputs s).len = s.len := rfl
@[simp] theorem clearOutputs_thShort (s : State) : (clearOutputs s).thShort = s.thShort := rfl
@[simp] theorem clearOutputs_thLong (s : State) : (clearOutputs s).thLong = s.thLong := rfl
@[simp] theorem clearOutputs_thPeriod (s : State) : (clearOutputs s).thPeriod = s.thPeriod := rfl
@[simp] theorem clearOutputs_cur (s : State) : (clearOutputs s).cur = s.cur := rfl
@[simp] theorem clearOutputs_mask (s : State) : (clearOutputs s).mask = s.mask := rfl
@[simp] theorem clearOutputs_idx (s : State) : (clearOutputs s).idx = s.idx := rfl
@[simp] theorem clearOutputs_startTime (s : State) : (clearOutputs s).startTime = s.startTime := rfl
@[simp] theorem clearOutputs_ports (s : State) : (clearOutputs s).ports = s.ports := rfl
@[simp] theorem clearOutputs_cc (s : State) : (clearOutputs s).cc = s.cc := rfl
@[simp] theorem clearOutputs_done (s : State) : (clearOutputs s).done = false := rfl
@[simp] theorem clearOutputs_gpio (s : State) : (clearOutputs s).gpio = none := rfl
@[simp] theorem clearOutputs_memRead (s : State) : (clearOutputs s).memRead = none := rfl
@[simp] theorem clearOutputs_c (s : State) : (clearOutputs s).c = s.c := rfl
@[simp] theorem clearOutputs_cycles (s : State) : (clearOutputs s).cycles = s.cycles := rfl
@[simp] theorem clearOutputs_calResult (s : State) : (clearOutputs s).calResult = s.calResult := rfl
@[simp] theorem clearOutputs_stepSel (s : State) : (clearOutputs s).stepSel = s.stepSel := rfl
@[simp] theorem clearOutputs_lvl (s : State) : (clearOutputs s).lvl = s.lvl := rfl
@[simp] theorem clearOutputs_pinOut (s : State) : (clearOutputs s).pinOut = s.pinOut := rfl
@[simp] theorem clearOutputs_mem (s : State) : (clearOutputs s).mem = s.mem := rfl
@[simp] theorem clearOutputs_clkMhz (s : State) : (clearOutputs s).clkMhz = s.clkMhz := rfl
@[simp] theorem clearOutputs_clockPast (s : State) : (clearOutputs s).clockPast = s.clockPast := rfl
@[simp] theorem clearOutputs_intMasked (s : State) : (clearOutputs s).intMasked = s.intMasked := rfl
@[simp] theorem clearOutputs_maskSaved (s : State) : (clearOutputs s).maskSaved = s.maskSaved := rfl
@[simp] theorem clearOutputs_trace (s : State) : (clearOutputs s).trace = s.trace := rfl
@[simp] theorem clearOutputs_now (s : State) : (clearOutputs s).now = s.now := rfl
@[simp] theorem clearOutputs_fellAt (s : State) : (clearOutputs s).fellAt = s.fellAt := rfl
@[simp] theorem clearOutputs_ccNext (s : State) : (clearOutputs s).ccNext = s.ccNext := rfl
@[simp] theorem clearOutputs_inputs (s : State) : (clearOutputs s).inputs = s.inputs := rfl

/-! ### `formWord` -/

@[simp] theorem formWord_params (s : State) : (formWord s).params = s.params := rfl
@[simp] theorem formWord_fsm (s : State) : (formWord s).fsm = s.fsm := rfl
@[simp] theorem formWord_pin (s : State) : (formWord s).pin = s.pin := rfl
@[simp] theorem formWord_base (s : State) : (formWord s).base = s.base := rfl
@[simp] theorem formWord_len (s : State) : (formWord s).len = s.len := rfl
@[simp] theorem formWord_thShort (s : State) : (formWord s).thShort = s.thShort := rfl
@[simp] theorem formWord_thLong (s : State) : (formWord s).thLong = s.thLong := rfl
@[simp] theorem formWord_thPeriod (s : State) : (formWord s).thPeriod = s.thPeriod := rfl
@[simp] theorem formWord_cur (s : State) : (formWord s).cur = s.cur := rfl
@[simp] theorem formWord_mask (s : State) : (formWord s).mask = s.mask := rfl
@[simp] theorem formWord_idx (s : State) : (formWord s).idx = s.idx := rfl
@[simp] theorem formWord_startTime (s : State) : (formWord s).startTime = s.startTime := rfl
@[simp] theorem formWord_ports (s : State) : (formWord s).ports = s.ports := rfl
@[simp] theorem formWord_cc (s : State) : (formWord s).cc = s.cc := rfl
@[simp] theorem formWord_done (s : State) : (formWord s).done = s.done := rfl
@[simp] theorem formWord_gpio (s : State) : (formWord s).gpio = s.gpio := rfl
@[simp] theorem formWord_memRead (s : State) : (formWord s).memRead = s.memRead := rfl
@[simp] theorem formWord_c (s : State) : (formWord s).c = s.c := rfl
@[simp] theorem formWord_cycles (s : State) : (formWord s).cycles = s.cycles := rfl
@[simp] theorem formWord_calResult (s : State) : (formWord s).calResult = s.calResult := rfl
@[simp] theorem formWord_stepSel (s : State) : (formWord s).stepSel = stepWord s := rfl
@[simp] theorem formWord_lvl (s : State) : (formWord s).lvl = s.lvl := rfl
@[simp] theorem formWord_pinOut (s : State) : (formWord s).pinOut = s.pinOut := rfl
@[simp] theorem formWord_mem (s : State) : (formWord s).mem = s.mem := rfl
@[simp] theorem formWord_clkMhz (s : State) : (formWord s).clkMhz = s.clkMhz := rfl
@[simp] theorem formWord_clockPast (s : State) : (formWord s).clockPast = s.clockPast := rfl
@[simp] theorem formWord_intMasked (s : State) : (formWord s).intMasked = s.intMasked := rfl
@[simp] theorem formWord_maskSaved (s : State) : (formWord s).maskSaved = s.maskSaved := rfl
@[simp] theorem formWord_trace (s : State) : (formWord s).trace = s.trace := rfl
@[simp] theorem formWord_now (s : State) : (formWord s).now = s.now := rfl
@[simp] theorem formWord_fellAt (s : State) : (formWord s).fellAt = s.fellAt := rfl
@[simp] theorem formWord_ccNext (s : State) : (formWord s).ccNext = s.ccNext := rfl
@[simp] theorem formWord_inputs (s : State) : (formWord s).inputs = s.inputs := rfl

/-! ### `clockEdge` -/

@[simp] theorem clockEdge_params (s : State) : (clockEdge s).params = s.params := rfl
@[simp] theorem clockEdge_fsm (s : State) : (clockEdge s).fsm = s.fsm := rfl
@[simp] theorem clockEdge_pin (s : State) : (clockEdge s).pin = s.pin := rfl
@[simp] theorem clockEdge_base (s : State) : (clockEdge s).base = s.base := rfl
@[simp] theorem clockEdge_len (s : State) : (clockEdge s).len = s.len := rfl
@[simp] theorem clockEdge_thShort (s : State) : (clockEdge s).thShort = s.thShort := rfl
@[simp] theorem clockEdge_thLong (s : State) : (clockEdge s).thLong = s.thLong := rfl
@[simp] theorem clockEdge_thPeriod (s : State) : (clockEdge s).thPeriod = s.thPeriod := rfl
@[simp] theorem clockEdge_cur (s : State) : (clockEdge s).cur = s.cur := rfl
@[simp] theorem clockEdge_mask (s : State) : (clockEdge s).mask = s.mask := rfl
@[simp] theorem clockEdge_idx (s : State) : (clockEdge s).idx = s.idx := rfl
@[simp] theorem clockEdge_startTime (s : State) : (clockEdge s).startTime = s.startTime := rfl
@[simp] theorem clockEdge_ports (s : State) : (clockEdge s).ports = s.ports := rfl
@[simp] theorem clockEdge_cc (s : State) : (clockEdge s).cc = s.cc + s.params.stride := rfl
@[simp] theorem clockEdge_done (s : State) : (clockEdge s).done = false := rfl
@[simp] theorem clockEdge_gpio (s : State) : (clockEdge s).gpio = none := rfl
@[simp] theorem clockEdge_memRead (s : State) : (clockEdge s).memRead = none := rfl
@[simp] theorem clockEdge_c (s : State) : (clockEdge s).c = s.cc := rfl
@[simp] theorem clockEdge_cycles (s : State) : (clockEdge s).cycles = s.cc := rfl
@[simp] theorem clockEdge_calResult (s : State) : (clockEdge s).calResult = s.calResult := rfl
@[simp] theorem clockEdge_stepSel (s : State) : (clockEdge s).stepSel = stepWord (sampleCounter (clearOutputs s)) := rfl
@[simp] theorem clockEdge_lvl (s : State) : (clockEdge s).lvl = s.lvl := rfl
@[simp] theorem clockEdge_pinOut (s : State) : (clockEdge s).pinOut = s.pinOut := rfl
@[simp] theorem clockEdge_mem (s : State) : (clockEdge s).mem = s.mem := rfl
@[simp] theorem clockEdge_clkMhz (s : State) : (clockEdge s).clkMhz = s.clkMhz := rfl
@[simp] theorem clockEdge_clockPast (s : State) : (clockEdge s).clockPast = s.clockPast := rfl
@[simp] theorem clockEdge_intMasked (s : State) : (clockEdge s).intMasked = s.intMasked := rfl
@[simp] theorem clockEdge_maskSaved (s : State) : (clockEdge s).maskSaved = s.maskSaved := rfl
@[simp] theorem clockEdge_trace (s : State) : (clockEdge s).trace = s.trace := rfl
@[simp] theorem clockEdge_now (s : State) : (clockEdge s).now = s.now + s.params.ccStride := rfl
@[simp] theorem clockEdge_fellAt (s : State) : (clockEdge s).fellAt = s.fellAt := rfl
@[simp] theorem clockEdge_ccNext (s : State) : (clockEdge s).ccNext = s.ccNext := rfl
@[simp] theorem clockEdge_inputs (s : State) : (clockEdge s).inputs = s.inputs := rfl

/-! ### `resetEdge` -/

@[simp] theorem resetEdge_params (s : State) : (resetEdge s).params = s.params := rfl
@[simp] theorem resetEdge_fsm (s : State) : (resetEdge s).fsm = .idle := rfl
@[simp] theorem resetEdge_pin (s : State) : (resetEdge s).pin = s.pin := rfl
@[simp] theorem resetEdge_base (s : State) : (resetEdge s).base = s.base := rfl
@[simp] theorem resetEdge_len (s : State) : (resetEdge s).len = s.len := rfl
@[simp] theorem resetEdge_thShort (s : State) : (resetEdge s).thShort = s.thShort := rfl
@[simp] theorem resetEdge_thLong (s : State) : (resetEdge s).thLong = s.thLong := rfl
@[simp] theorem resetEdge_thPeriod (s : State) : (resetEdge s).thPeriod = s.thPeriod := rfl
@[simp] theorem resetEdge_cur (s : State) : (resetEdge s).cur = s.cur := rfl
@[simp] theorem resetEdge_mask (s : State) : (resetEdge s).mask = s.mask := rfl
@[simp] theorem resetEdge_idx (s : State) : (resetEdge s).idx = s.idx := rfl
@[simp] theorem resetEdge_startTime (s : State) : (resetEdge s).startTime = s.startTime := rfl
@[simp] theorem resetEdge_ports (s : State) : (resetEdge s).ports = s.ports := rfl
@[simp] theorem resetEdge_cc (s : State) : (resetEdge s).cc = s.cc + s.params.stride := rfl
@[simp] theorem resetEdge_done (s : State) : (resetEdge s).done = false := rfl
@[simp] theorem resetEdge_gpio (s : State) : (resetEdge s).gpio = none := rfl
@[simp] theorem resetEdge_memRead (s : State) : (resetEdge s).memRead = none := rfl
@[simp] theorem resetEdge_c (s : State) : (resetEdge s).c = s.c := rfl
@[simp] theorem resetEdge_cycles (s : State) : (resetEdge s).cycles = s.cycles := rfl
@[simp] theorem resetEdge_calResult (s : State) : (resetEdge s).calResult = s.calResult := rfl
@[simp] theorem resetEdge_stepSel (s : State) : (resetEdge s).stepSel = s.stepSel := rfl
@[simp] theorem resetEdge_lvl (s : State) : (resetEdge s).lvl = s.lvl := rfl
@[simp] theorem resetEdge_pinOut (s : State) : (resetEdge s).pinOut = s.pinOut := rfl
@[simp] theorem resetEdge_mem (s : State) : (resetEdge s).mem = s.mem := rfl
@[simp] theorem resetEdge_clkMhz (s : State) : (resetEdge s).clkMhz = s.clkMhz := rfl
@[simp] theorem resetEdge_clockPast (s : State) : (resetEdge s).clockPast = s.clockPast := rfl
@[simp] theorem resetEdge_intMasked (s : State) : (resetEdge s).intMasked = s.intMasked := rfl
@[simp] theorem resetEdge_maskSaved (s : State) : (resetEdge s).maskSaved = s.maskSaved := rfl
@[simp] theorem resetEdge_trace (s : State) : (resetEdge s).trace = s.trace := rfl
@[simp] theorem resetEdge_now (s : State) : (resetEdge s).now = s.now + s.params.ccStride := rfl
@[simp] theorem resetEdge_fellAt (s : State) : (resetEdge s).fellAt = s.fellAt := rfl
@[simp] theorem resetEdge_ccNext (s : State) : (resetEdge s).ccNext = s.ccNext := rfl
@[simp] theorem resetEdge_inputs (s : State) : (resetEdge s).inputs = s.inputs := rfl

/-! ### `idleEdges` -/

@[simp] theorem idleEdges_params (n : Nat) (s : State) : (idleEdges n s).params = s.params := by cases n <;> rfl
@[simp] theorem idleEdges_fsm (n : Nat) (s : State) : (idleEdges n s).fsm = s.fsm := by cases n <;> rfl
@[simp] theorem idleEdges_pin (n : Nat) (s : State) : (idleEdges n s).pin = s.pin := by cases n <;> rfl
@[simp] theorem idleEdges_base (n : Nat) (s : State) : (idleEdges n s).base = s.base := by cases n <;> rfl
@[simp] theorem idleEdges_len (n : Nat) (s : State) : (idleEdges n s).len = s.len := by cases n <;> rfl
@[simp] theorem idleEdges_thShort (n : Nat) (s : State) : (idleEdges n s).thShort = s.thShort := by cases n <;> rfl
@[simp] theorem idleEdges_thLong (n : Nat) (s : State) : (idleEdges n s).thLong = s.thLong := by cases n <;> rfl
@[simp] theorem idleEdges_thPeriod (n : Nat) (s : State) : (idleEdges n s).thPeriod = s.thPeriod := by cases n <;> rfl
@[simp] theorem idleEdges_cur (n : Nat) (s : State) : (idleEdges n s).cur = s.cur := by cases n <;> rfl
@[simp] theorem idleEdges_mask (n : Nat) (s : State) : (idleEdges n s).mask = s.mask := by cases n <;> rfl
@[simp] theorem idleEdges_idx (n : Nat) (s : State) : (idleEdges n s).idx = s.idx := by cases n <;> rfl
@[simp] theorem idleEdges_startTime (n : Nat) (s : State) : (idleEdges n s).startTime =
    s.startTime := by cases n <;> rfl
@[simp] theorem idleEdges_ports (n : Nat) (s : State) : (idleEdges n s).ports = s.ports := by cases n <;> rfl
@[simp] theorem idleEdges_cc (n : Nat) (s : State) : (idleEdges n s).cc =
    s.cc + BitVec.ofNat 32 (n * s.params.ccStride) := by
  cases n <;> simp [idleEdges, Params.stride, Nat.succ_mul, BitVec.ofNat_add, BitVec.add_assoc]
@[simp] theorem idleEdges_calResult (n : Nat) (s : State) : (idleEdges n s).calResult =
    s.calResult := by cases n <;> rfl
@[simp] theorem idleEdges_lvl (n : Nat) (s : State) : (idleEdges n s).lvl = s.lvl := by cases n <;> rfl
@[simp] theorem idleEdges_pinOut (n : Nat) (s : State) : (idleEdges n s).pinOut = s.pinOut := by cases n <;> rfl
@[simp] theorem idleEdges_mem (n : Nat) (s : State) : (idleEdges n s).mem = s.mem := by cases n <;> rfl
@[simp] theorem idleEdges_clkMhz (n : Nat) (s : State) : (idleEdges n s).clkMhz = s.clkMhz := by cases n <;> rfl
@[simp] theorem idleEdges_clockPast (n : Nat) (s : State) : (idleEdges n s).clockPast =
    s.clockPast := by cases n <;> rfl
@[simp] theorem idleEdges_intMasked (n : Nat) (s : State) : (idleEdges n s).intMasked =
    s.intMasked := by cases n <;> rfl
@[simp] theorem idleEdges_maskSaved (n : Nat) (s : State) : (idleEdges n s).maskSaved =
    s.maskSaved := by cases n <;> rfl
@[simp] theorem idleEdges_trace (n : Nat) (s : State) : (idleEdges n s).trace = s.trace := by cases n <;> rfl
@[simp] theorem idleEdges_now (n : Nat) (s : State) : (idleEdges n s).now =
    s.now + n * s.params.ccStride := by
  cases n <;> simp [idleEdges, Nat.succ_mul, Nat.add_assoc]
@[simp] theorem idleEdges_fellAt (n : Nat) (s : State) : (idleEdges n s).fellAt = s.fellAt := by cases n <;> rfl
@[simp] theorem idleEdges_ccNext (n : Nat) (s : State) : (idleEdges n s).ccNext = s.ccNext := by cases n <;> rfl
@[simp] theorem idleEdges_inputs (n : Nat) (s : State) : (idleEdges n s).inputs = s.inputs := by cases n <;> rfl

/-! ### `setFsm` -/

@[simp] theorem setFsm_params (f : FsmState) (s : State) : (setFsm f s).params = s.params := rfl
@[simp] theorem setFsm_fsm (f : FsmState) (s : State) : (setFsm f s).fsm = f := rfl
@[simp] theorem setFsm_pin (f : FsmState) (s : State) : (setFsm f s).pin = s.pin := rfl
@[simp] theorem setFsm_base (f : FsmState) (s : State) : (setFsm f s).base = s.base := rfl
@[simp] theorem setFsm_len (f : FsmState) (s : State) : (setFsm f s).len = s.len := rfl
@[simp] theorem setFsm_thShort (f : FsmState) (s : State) : (setFsm f s).thShort = s.thShort := rfl
@[simp] theorem setFsm_thLong (f : FsmState) (s : State) : (setFsm f s).thLong = s.thLong := rfl
@[simp] theorem setFsm_thPeriod (f : FsmState) (s : State) : (setFsm f s).thPeriod = s.thPeriod := rfl
@[simp] theorem setFsm_cur (f : FsmState) (s : State) : (setFsm f s).cur = s.cur := rfl
@[simp] theorem setFsm_mask (f : FsmState) (s : State) : (setFsm f s).mask = s.mask := rfl
@[simp] theorem setFsm_idx (f : FsmState) (s : State) : (setFsm f s).idx = s.idx := rfl
@[simp] theorem setFsm_startTime (f : FsmState) (s : State) : (setFsm f s).startTime = s.startTime := rfl
@[simp] theorem setFsm_ports (f : FsmState) (s : State) : (setFsm f s).ports = s.ports := rfl
@[simp] theorem setFsm_cc (f : FsmState) (s : State) : (setFsm f s).cc = s.cc := rfl
@[simp] theorem setFsm_done (f : FsmState) (s : State) : (setFsm f s).done = s.done := rfl
@[simp] theorem setFsm_gpio (f : FsmState) (s : State) : (setFsm f s).gpio = s.gpio := rfl
@[simp] theorem setFsm_memRead (f : FsmState) (s : State) : (setFsm f s).memRead = s.memRead := rfl
@[simp] theorem setFsm_c (f : FsmState) (s : State) : (setFsm f s).c = s.c := rfl
@[simp] theorem setFsm_cycles (f : FsmState) (s : State) : (setFsm f s).cycles = s.cycles := rfl
@[simp] theorem setFsm_calResult (f : FsmState) (s : State) : (setFsm f s).calResult = s.calResult := rfl
@[simp] theorem setFsm_stepSel (f : FsmState) (s : State) : (setFsm f s).stepSel = s.stepSel := rfl
@[simp] theorem setFsm_lvl (f : FsmState) (s : State) : (setFsm f s).lvl = s.lvl := rfl
@[simp] theorem setFsm_pinOut (f : FsmState) (s : State) : (setFsm f s).pinOut = s.pinOut := rfl
@[simp] theorem setFsm_mem (f : FsmState) (s : State) : (setFsm f s).mem = s.mem := rfl
@[simp] theorem setFsm_clkMhz (f : FsmState) (s : State) : (setFsm f s).clkMhz = s.clkMhz := rfl
@[simp] theorem setFsm_clockPast (f : FsmState) (s : State) : (setFsm f s).clockPast = s.clockPast := rfl
@[simp] theorem setFsm_intMasked (f : FsmState) (s : State) : (setFsm f s).intMasked = s.intMasked := rfl
@[simp] theorem setFsm_maskSaved (f : FsmState) (s : State) : (setFsm f s).maskSaved = s.maskSaved := rfl
@[simp] theorem setFsm_trace (f : FsmState) (s : State) : (setFsm f s).trace = s.trace := rfl
@[simp] theorem setFsm_now (f : FsmState) (s : State) : (setFsm f s).now = s.now := rfl
@[simp] theorem setFsm_fellAt (f : FsmState) (s : State) : (setFsm f s).fellAt = s.fellAt := rfl
@[simp] theorem setFsm_ccNext (f : FsmState) (s : State) : (setFsm f s).ccNext = s.ccNext := rfl
@[simp] theorem setFsm_inputs (f : FsmState) (s : State) : (setFsm f s).inputs = s.inputs := rfl

/-! ### `setThresholds` -/

@[simp] theorem setThresholds_params (th : Thresholds) (s : State) : (setThresholds th s).params = s.params := rfl
@[simp] theorem setThresholds_fsm (th : Thresholds) (s : State) : (setThresholds th s).fsm = s.fsm := rfl
@[simp] theorem setThresholds_pin (th : Thresholds) (s : State) : (setThresholds th s).pin = s.pin := rfl
@[simp] theorem setThresholds_base (th : Thresholds) (s : State) : (setThresholds th s).base = s.base := rfl
@[simp] theorem setThresholds_len (th : Thresholds) (s : State) : (setThresholds th s).len = s.len := rfl
@[simp] theorem setThresholds_thShort (th : Thresholds) (s : State) : (setThresholds th s).thShort = th.short := rfl
@[simp] theorem setThresholds_thLong (th : Thresholds) (s : State) : (setThresholds th s).thLong = th.long := rfl
@[simp] theorem setThresholds_thPeriod (th : Thresholds) (s : State) : (setThresholds th s).thPeriod = th.period := rfl
@[simp] theorem setThresholds_cur (th : Thresholds) (s : State) : (setThresholds th s).cur = s.cur := rfl
@[simp] theorem setThresholds_mask (th : Thresholds) (s : State) : (setThresholds th s).mask = s.mask := rfl
@[simp] theorem setThresholds_idx (th : Thresholds) (s : State) : (setThresholds th s).idx = s.idx := rfl
@[simp] theorem setThresholds_startTime (th : Thresholds) (s : State) : (setThresholds th s).startTime =
    s.startTime := rfl
@[simp] theorem setThresholds_ports (th : Thresholds) (s : State) : (setThresholds th s).ports = s.ports := rfl
@[simp] theorem setThresholds_cc (th : Thresholds) (s : State) : (setThresholds th s).cc = s.cc := rfl
@[simp] theorem setThresholds_done (th : Thresholds) (s : State) : (setThresholds th s).done = s.done := rfl
@[simp] theorem setThresholds_gpio (th : Thresholds) (s : State) : (setThresholds th s).gpio = s.gpio := rfl
@[simp] theorem setThresholds_memRead (th : Thresholds) (s : State) : (setThresholds th s).memRead = s.memRead := rfl
@[simp] theorem setThresholds_c (th : Thresholds) (s : State) : (setThresholds th s).c = s.c := rfl
@[simp] theorem setThresholds_cycles (th : Thresholds) (s : State) : (setThresholds th s).cycles = s.cycles := rfl
@[simp] theorem setThresholds_calResult (th : Thresholds) (s : State) : (setThresholds th s).calResult =
    s.calResult := rfl
@[simp] theorem setThresholds_stepSel (th : Thresholds) (s : State) : (setThresholds th s).stepSel = s.stepSel := rfl
@[simp] theorem setThresholds_lvl (th : Thresholds) (s : State) : (setThresholds th s).lvl = s.lvl := rfl
@[simp] theorem setThresholds_pinOut (th : Thresholds) (s : State) : (setThresholds th s).pinOut = s.pinOut := rfl
@[simp] theorem setThresholds_mem (th : Thresholds) (s : State) : (setThresholds th s).mem = s.mem := rfl
@[simp] theorem setThresholds_clkMhz (th : Thresholds) (s : State) : (setThresholds th s).clkMhz = s.clkMhz := rfl
@[simp] theorem setThresholds_clockPast (th : Thresholds) (s : State) : (setThresholds th s).clockPast =
    s.clockPast := rfl
@[simp] theorem setThresholds_intMasked (th : Thresholds) (s : State) : (setThresholds th s).intMasked =
    s.intMasked := rfl
@[simp] theorem setThresholds_maskSaved (th : Thresholds) (s : State) : (setThresholds th s).maskSaved =
    s.maskSaved := rfl
@[simp] theorem setThresholds_trace (th : Thresholds) (s : State) : (setThresholds th s).trace = s.trace := rfl
@[simp] theorem setThresholds_now (th : Thresholds) (s : State) : (setThresholds th s).now = s.now := rfl
@[simp] theorem setThresholds_fellAt (th : Thresholds) (s : State) : (setThresholds th s).fellAt = s.fellAt := rfl
@[simp] theorem setThresholds_ccNext (th : Thresholds) (s : State) : (setThresholds th s).ccNext = s.ccNext := rfl
@[simp] theorem setThresholds_inputs (th : Thresholds) (s : State) : (setThresholds th s).inputs = s.inputs := rfl

/-! ### `setStart` -/

@[simp] theorem setStart_params (v : Ticks) (s : State) : (setStart v s).params = s.params := rfl
@[simp] theorem setStart_fsm (v : Ticks) (s : State) : (setStart v s).fsm = s.fsm := rfl
@[simp] theorem setStart_pin (v : Ticks) (s : State) : (setStart v s).pin = s.pin := rfl
@[simp] theorem setStart_base (v : Ticks) (s : State) : (setStart v s).base = s.base := rfl
@[simp] theorem setStart_len (v : Ticks) (s : State) : (setStart v s).len = s.len := rfl
@[simp] theorem setStart_thShort (v : Ticks) (s : State) : (setStart v s).thShort = s.thShort := rfl
@[simp] theorem setStart_thLong (v : Ticks) (s : State) : (setStart v s).thLong = s.thLong := rfl
@[simp] theorem setStart_thPeriod (v : Ticks) (s : State) : (setStart v s).thPeriod = s.thPeriod := rfl
@[simp] theorem setStart_cur (v : Ticks) (s : State) : (setStart v s).cur = s.cur := rfl
@[simp] theorem setStart_mask (v : Ticks) (s : State) : (setStart v s).mask = s.mask := rfl
@[simp] theorem setStart_idx (v : Ticks) (s : State) : (setStart v s).idx = s.idx := rfl
@[simp] theorem setStart_startTime (v : Ticks) (s : State) : (setStart v s).startTime = v := rfl
@[simp] theorem setStart_ports (v : Ticks) (s : State) : (setStart v s).ports = s.ports := rfl
@[simp] theorem setStart_cc (v : Ticks) (s : State) : (setStart v s).cc = s.cc := rfl
@[simp] theorem setStart_done (v : Ticks) (s : State) : (setStart v s).done = s.done := rfl
@[simp] theorem setStart_gpio (v : Ticks) (s : State) : (setStart v s).gpio = s.gpio := rfl
@[simp] theorem setStart_memRead (v : Ticks) (s : State) : (setStart v s).memRead = s.memRead := rfl
@[simp] theorem setStart_c (v : Ticks) (s : State) : (setStart v s).c = s.c := rfl
@[simp] theorem setStart_cycles (v : Ticks) (s : State) : (setStart v s).cycles = s.cycles := rfl
@[simp] theorem setStart_calResult (v : Ticks) (s : State) : (setStart v s).calResult = s.calResult := rfl
@[simp] theorem setStart_stepSel (v : Ticks) (s : State) : (setStart v s).stepSel = s.stepSel := rfl
@[simp] theorem setStart_lvl (v : Ticks) (s : State) : (setStart v s).lvl = s.lvl := rfl
@[simp] theorem setStart_pinOut (v : Ticks) (s : State) : (setStart v s).pinOut = s.pinOut := rfl
@[simp] theorem setStart_mem (v : Ticks) (s : State) : (setStart v s).mem = s.mem := rfl
@[simp] theorem setStart_clkMhz (v : Ticks) (s : State) : (setStart v s).clkMhz = s.clkMhz := rfl
@[simp] theorem setStart_clockPast (v : Ticks) (s : State) : (setStart v s).clockPast = s.clockPast := rfl
@[simp] theorem setStart_intMasked (v : Ticks) (s : State) : (setStart v s).intMasked = s.intMasked := rfl
@[simp] theorem setStart_maskSaved (v : Ticks) (s : State) : (setStart v s).maskSaved = s.maskSaved := rfl
@[simp] theorem setStart_trace (v : Ticks) (s : State) : (setStart v s).trace = s.trace := rfl
@[simp] theorem setStart_now (v : Ticks) (s : State) : (setStart v s).now = s.now := rfl
@[simp] theorem setStart_fellAt (v : Ticks) (s : State) : (setStart v s).fellAt = s.fellAt := rfl
@[simp] theorem setStart_ccNext (v : Ticks) (s : State) : (setStart v s).ccNext = s.ccNext := rfl
@[simp] theorem setStart_inputs (v : Ticks) (s : State) : (setStart v s).inputs = s.inputs := rfl

/-! ### `selectState` -/

@[simp] theorem selectState_params (f : FsmState) (s : State) : (selectState f s).params = s.params := rfl
@[simp] theorem selectState_fsm (f : FsmState) (s : State) : (selectState f s).fsm = s.fsm := rfl
@[simp] theorem selectState_pin (f : FsmState) (s : State) : (selectState f s).pin = s.pin := rfl
@[simp] theorem selectState_base (f : FsmState) (s : State) : (selectState f s).base = s.base := rfl
@[simp] theorem selectState_len (f : FsmState) (s : State) : (selectState f s).len = s.len := rfl
@[simp] theorem selectState_thShort (f : FsmState) (s : State) : (selectState f s).thShort = s.thShort := rfl
@[simp] theorem selectState_thLong (f : FsmState) (s : State) : (selectState f s).thLong = s.thLong := rfl
@[simp] theorem selectState_thPeriod (f : FsmState) (s : State) : (selectState f s).thPeriod = s.thPeriod := rfl
@[simp] theorem selectState_cur (f : FsmState) (s : State) : (selectState f s).cur = s.cur := rfl
@[simp] theorem selectState_mask (f : FsmState) (s : State) : (selectState f s).mask = s.mask := rfl
@[simp] theorem selectState_idx (f : FsmState) (s : State) : (selectState f s).idx = s.idx := rfl
@[simp] theorem selectState_startTime (f : FsmState) (s : State) : (selectState f s).startTime = s.startTime := rfl
@[simp] theorem selectState_ports (f : FsmState) (s : State) : (selectState f s).ports = s.ports := rfl
@[simp] theorem selectState_cc (f : FsmState) (s : State) : (selectState f s).cc = s.cc := rfl
@[simp] theorem selectState_done (f : FsmState) (s : State) : (selectState f s).done = s.done := rfl
@[simp] theorem selectState_gpio (f : FsmState) (s : State) : (selectState f s).gpio = s.gpio := rfl
@[simp] theorem selectState_memRead (f : FsmState) (s : State) : (selectState f s).memRead = s.memRead := rfl
@[simp] theorem selectState_c (f : FsmState) (s : State) : (selectState f s).c = s.c := rfl
@[simp] theorem selectState_cycles (f : FsmState) (s : State) : (selectState f s).cycles = s.cycles := rfl
@[simp] theorem selectState_calResult (f : FsmState) (s : State) : (selectState f s).calResult = s.calResult := rfl
@[simp] theorem selectState_stepSel (f : FsmState) (s : State) : (selectState f s).stepSel =
    BitVec.ofNat 7 (f.code * 32 + s.stepSel.toNat % 32) := rfl
@[simp] theorem selectState_lvl (f : FsmState) (s : State) : (selectState f s).lvl = s.lvl := rfl
@[simp] theorem selectState_pinOut (f : FsmState) (s : State) : (selectState f s).pinOut = s.pinOut := rfl
@[simp] theorem selectState_mem (f : FsmState) (s : State) : (selectState f s).mem = s.mem := rfl
@[simp] theorem selectState_clkMhz (f : FsmState) (s : State) : (selectState f s).clkMhz = s.clkMhz := rfl
@[simp] theorem selectState_clockPast (f : FsmState) (s : State) : (selectState f s).clockPast = s.clockPast := rfl
@[simp] theorem selectState_intMasked (f : FsmState) (s : State) : (selectState f s).intMasked = s.intMasked := rfl
@[simp] theorem selectState_maskSaved (f : FsmState) (s : State) : (selectState f s).maskSaved = s.maskSaved := rfl
@[simp] theorem selectState_trace (f : FsmState) (s : State) : (selectState f s).trace = s.trace := rfl
@[simp] theorem selectState_now (f : FsmState) (s : State) : (selectState f s).now = s.now := rfl
@[simp] theorem selectState_fellAt (f : FsmState) (s : State) : (selectState f s).fellAt = s.fellAt := rfl
@[simp] theorem selectState_ccNext (f : FsmState) (s : State) : (selectState f s).ccNext = s.ccNext := rfl
@[simp] theorem selectState_inputs (f : FsmState) (s : State) : (selectState f s).inputs = s.inputs := rfl

/-! ### `present` -/

@[simp] theorem present_params (p : PinId) (a : Nat) (l : Nat) (s : State) : (present p a l s).params = s.params := rfl
@[simp] theorem present_fsm (p : PinId) (a : Nat) (l : Nat) (s : State) : (present p a l s).fsm = s.fsm := rfl
@[simp] theorem present_pin (p : PinId) (a : Nat) (l : Nat) (s : State) : (present p a l s).pin = s.pin := rfl
@[simp] theorem present_base (p : PinId) (a : Nat) (l : Nat) (s : State) : (present p a l s).base = s.base := rfl
@[simp] theorem present_len (p : PinId) (a : Nat) (l : Nat) (s : State) : (present p a l s).len = s.len := rfl
@[simp] theorem present_thShort (p : PinId) (a : Nat) (l : Nat) (s : State) : (present p a l s).thShort =
    s.thShort := rfl
@[simp] theorem present_thLong (p : PinId) (a : Nat) (l : Nat) (s : State) : (present p a l s).thLong = s.thLong := rfl
@[simp] theorem present_thPeriod (p : PinId) (a : Nat) (l : Nat) (s : State) : (present p a l s).thPeriod =
    s.thPeriod := rfl
@[simp] theorem present_cur (p : PinId) (a : Nat) (l : Nat) (s : State) : (present p a l s).cur = s.cur := rfl
@[simp] theorem present_mask (p : PinId) (a : Nat) (l : Nat) (s : State) : (present p a l s).mask = s.mask := rfl
@[simp] theorem present_idx (p : PinId) (a : Nat) (l : Nat) (s : State) : (present p a l s).idx = s.idx := rfl
@[simp] theorem present_startTime (p : PinId) (a : Nat) (l : Nat) (s : State) : (present p a l s).startTime =
    s.startTime := rfl
@[simp] theorem present_ports (p : PinId) (a : Nat) (l : Nat) (s : State) : (present p a l s).ports =
    Ports.fit s.params { s.ports with start := true, pinIn := p, baseIn := a, lenIn := l } := rfl
@[simp] theorem present_cc (p : PinId) (a : Nat) (l : Nat) (s : State) : (present p a l s).cc = s.cc := rfl
@[simp] theorem present_done (p : PinId) (a : Nat) (l : Nat) (s : State) : (present p a l s).done = s.done := rfl
@[simp] theorem present_gpio (p : PinId) (a : Nat) (l : Nat) (s : State) : (present p a l s).gpio = s.gpio := rfl
@[simp] theorem present_memRead (p : PinId) (a : Nat) (l : Nat) (s : State) : (present p a l s).memRead =
    s.memRead := rfl
@[simp] theorem present_c (p : PinId) (a : Nat) (l : Nat) (s : State) : (present p a l s).c = s.c := rfl
@[simp] theorem present_cycles (p : PinId) (a : Nat) (l : Nat) (s : State) : (present p a l s).cycles = s.cycles := rfl
@[simp] theorem present_calResult (p : PinId) (a : Nat) (l : Nat) (s : State) : (present p a l s).calResult =
    s.calResult := rfl
@[simp] theorem present_stepSel (p : PinId) (a : Nat) (l : Nat) (s : State) : (present p a l s).stepSel =
    s.stepSel := rfl
@[simp] theorem present_lvl (p : PinId) (a : Nat) (l : Nat) (s : State) : (present p a l s).lvl = s.lvl := rfl
@[simp] theorem present_pinOut (p : PinId) (a : Nat) (l : Nat) (s : State) : (present p a l s).pinOut = s.pinOut := rfl
@[simp] theorem present_mem (p : PinId) (a : Nat) (l : Nat) (s : State) : (present p a l s).mem = s.mem := rfl
@[simp] theorem present_clkMhz (p : PinId) (a : Nat) (l : Nat) (s : State) : (present p a l s).clkMhz = s.clkMhz := rfl
@[simp] theorem present_clockPast (p : PinId) (a : Nat) (l : Nat) (s : State) : (present p a l s).clockPast =
    s.clockPast := rfl
@[simp] theorem present_intMasked (p : PinId) (a : Nat) (l : Nat) (s : State) : (present p a l s).intMasked =
    s.intMasked := rfl
@[simp] theorem present_maskSaved (p : PinId) (a : Nat) (l : Nat) (s : State) : (present p a l s).maskSaved =
    s.maskSaved := rfl
@[simp] theorem present_trace (p : PinId) (a : Nat) (l : Nat) (s : State) : (present p a l s).trace = s.trace := rfl
@[simp] theorem present_now (p : PinId) (a : Nat) (l : Nat) (s : State) : (present p a l s).now = s.now := rfl
@[simp] theorem present_fellAt (p : PinId) (a : Nat) (l : Nat) (s : State) : (present p a l s).fellAt = s.fellAt := rfl
@[simp] theorem present_ccNext (p : PinId) (a : Nat) (l : Nat) (s : State) : (present p a l s).ccNext = s.ccNext := rfl
@[simp] theorem present_inputs (p : PinId) (a : Nat) (l : Nat) (s : State) : (present p a l s).inputs = s.inputs := rfl

/-! ### `dropStart` -/

@[simp] theorem dropStart_params (s : State) : (dropStart s).params = s.params := rfl
@[simp] theorem dropStart_fsm (s : State) : (dropStart s).fsm = s.fsm := rfl
@[simp] theorem dropStart_pin (s : State) : (dropStart s).pin = s.pin := rfl
@[simp] theorem dropStart_base (s : State) : (dropStart s).base = s.base := rfl
@[simp] theorem dropStart_len (s : State) : (dropStart s).len = s.len := rfl
@[simp] theorem dropStart_thShort (s : State) : (dropStart s).thShort = s.thShort := rfl
@[simp] theorem dropStart_thLong (s : State) : (dropStart s).thLong = s.thLong := rfl
@[simp] theorem dropStart_thPeriod (s : State) : (dropStart s).thPeriod = s.thPeriod := rfl
@[simp] theorem dropStart_cur (s : State) : (dropStart s).cur = s.cur := rfl
@[simp] theorem dropStart_mask (s : State) : (dropStart s).mask = s.mask := rfl
@[simp] theorem dropStart_idx (s : State) : (dropStart s).idx = s.idx := rfl
@[simp] theorem dropStart_startTime (s : State) : (dropStart s).startTime = s.startTime := rfl
@[simp] theorem dropStart_ports (s : State) : (dropStart s).ports = { s.ports with start := false } := rfl
@[simp] theorem dropStart_cc (s : State) : (dropStart s).cc = s.cc := rfl
@[simp] theorem dropStart_done (s : State) : (dropStart s).done = s.done := rfl
@[simp] theorem dropStart_gpio (s : State) : (dropStart s).gpio = s.gpio := rfl
@[simp] theorem dropStart_memRead (s : State) : (dropStart s).memRead = s.memRead := rfl
@[simp] theorem dropStart_c (s : State) : (dropStart s).c = s.c := rfl
@[simp] theorem dropStart_cycles (s : State) : (dropStart s).cycles = s.cycles := rfl
@[simp] theorem dropStart_calResult (s : State) : (dropStart s).calResult = s.calResult := rfl
@[simp] theorem dropStart_stepSel (s : State) : (dropStart s).stepSel = s.stepSel := rfl
@[simp] theorem dropStart_lvl (s : State) : (dropStart s).lvl = s.lvl := rfl
@[simp] theorem dropStart_pinOut (s : State) : (dropStart s).pinOut = s.pinOut := rfl
@[simp] theorem dropStart_mem (s : State) : (dropStart s).mem = s.mem := rfl
@[simp] theorem dropStart_clkMhz (s : State) : (dropStart s).clkMhz = s.clkMhz := rfl
@[simp] theorem dropStart_clockPast (s : State) : (dropStart s).clockPast = s.clockPast := rfl
@[simp] theorem dropStart_intMasked (s : State) : (dropStart s).intMasked = s.intMasked := rfl
@[simp] theorem dropStart_maskSaved (s : State) : (dropStart s).maskSaved = s.maskSaved := rfl
@[simp] theorem dropStart_trace (s : State) : (dropStart s).trace = s.trace := rfl
@[simp] theorem dropStart_now (s : State) : (dropStart s).now = s.now := rfl
@[simp] theorem dropStart_fellAt (s : State) : (dropStart s).fellAt = s.fellAt := rfl
@[simp] theorem dropStart_ccNext (s : State) : (dropStart s).ccNext = s.ccNext := rfl
@[simp] theorem dropStart_inputs (s : State) : (dropStart s).inputs = s.inputs := rfl

/-! ### `setCpuMhz` -/

@[simp] theorem setCpuMhz_params (m : BitVec 8) (s : State) : (setCpuMhz m s).params = s.params := rfl
@[simp] theorem setCpuMhz_fsm (m : BitVec 8) (s : State) : (setCpuMhz m s).fsm = s.fsm := rfl
@[simp] theorem setCpuMhz_pin (m : BitVec 8) (s : State) : (setCpuMhz m s).pin = s.pin := rfl
@[simp] theorem setCpuMhz_base (m : BitVec 8) (s : State) : (setCpuMhz m s).base = s.base := rfl
@[simp] theorem setCpuMhz_len (m : BitVec 8) (s : State) : (setCpuMhz m s).len = s.len := rfl
@[simp] theorem setCpuMhz_thShort (m : BitVec 8) (s : State) : (setCpuMhz m s).thShort = s.thShort := rfl
@[simp] theorem setCpuMhz_thLong (m : BitVec 8) (s : State) : (setCpuMhz m s).thLong = s.thLong := rfl
@[simp] theorem setCpuMhz_thPeriod (m : BitVec 8) (s : State) : (setCpuMhz m s).thPeriod = s.thPeriod := rfl
@[simp] theorem setCpuMhz_cur (m : BitVec 8) (s : State) : (setCpuMhz m s).cur = s.cur := rfl
@[simp] theorem setCpuMhz_mask (m : BitVec 8) (s : State) : (setCpuMhz m s).mask = s.mask := rfl
@[simp] theorem setCpuMhz_idx (m : BitVec 8) (s : State) : (setCpuMhz m s).idx = s.idx := rfl
@[simp] theorem setCpuMhz_startTime (m : BitVec 8) (s : State) : (setCpuMhz m s).startTime = s.startTime := rfl
@[simp] theorem setCpuMhz_ports (m : BitVec 8) (s : State) : (setCpuMhz m s).ports = { s.ports with cpuMhz := m } := rfl
@[simp] theorem setCpuMhz_cc (m : BitVec 8) (s : State) : (setCpuMhz m s).cc = s.cc := rfl
@[simp] theorem setCpuMhz_done (m : BitVec 8) (s : State) : (setCpuMhz m s).done = s.done := rfl
@[simp] theorem setCpuMhz_gpio (m : BitVec 8) (s : State) : (setCpuMhz m s).gpio = s.gpio := rfl
@[simp] theorem setCpuMhz_memRead (m : BitVec 8) (s : State) : (setCpuMhz m s).memRead = s.memRead := rfl
@[simp] theorem setCpuMhz_c (m : BitVec 8) (s : State) : (setCpuMhz m s).c = s.c := rfl
@[simp] theorem setCpuMhz_cycles (m : BitVec 8) (s : State) : (setCpuMhz m s).cycles = s.cycles := rfl
@[simp] theorem setCpuMhz_calResult (m : BitVec 8) (s : State) : (setCpuMhz m s).calResult = s.calResult := rfl
@[simp] theorem setCpuMhz_stepSel (m : BitVec 8) (s : State) : (setCpuMhz m s).stepSel = s.stepSel := rfl
@[simp] theorem setCpuMhz_lvl (m : BitVec 8) (s : State) : (setCpuMhz m s).lvl = s.lvl := rfl
@[simp] theorem setCpuMhz_pinOut (m : BitVec 8) (s : State) : (setCpuMhz m s).pinOut = s.pinOut := rfl
@[simp] theorem setCpuMhz_mem (m : BitVec 8) (s : State) : (setCpuMhz m s).mem = s.mem := rfl
@[simp] theorem setCpuMhz_clkMhz (m : BitVec 8) (s : State) : (setCpuMhz m s).clkMhz = s.clkMhz := rfl
@[simp] theorem setCpuMhz_clockPast (m : BitVec 8) (s : State) : (setCpuMhz m s).clockPast = s.clockPast := rfl
@[simp] theorem setCpuMhz_intMasked (m : BitVec 8) (s : State) : (setCpuMhz m s).intMasked = s.intMasked := rfl
@[simp] theorem setCpuMhz_maskSaved (m : BitVec 8) (s : State) : (setCpuMhz m s).maskSaved = s.maskSaved := rfl
@[simp] theorem setCpuMhz_trace (m : BitVec 8) (s : State) : (setCpuMhz m s).trace = s.trace := rfl
@[simp] theorem setCpuMhz_now (m : BitVec 8) (s : State) : (setCpuMhz m s).now = s.now := rfl
@[simp] theorem setCpuMhz_fellAt (m : BitVec 8) (s : State) : (setCpuMhz m s).fellAt = s.fellAt := rfl
@[simp] theorem setCpuMhz_ccNext (m : BitVec 8) (s : State) : (setCpuMhz m s).ccNext = s.ccNext := rfl
@[simp] theorem setCpuMhz_inputs (m : BitVec 8) (s : State) : (setCpuMhz m s).inputs = s.inputs := rfl

/-! ### `setClock` -/

@[simp] theorem setClock_params (m : BitVec 8) (s : State) : (setClock m s).params = s.params := rfl
@[simp] theorem setClock_fsm (m : BitVec 8) (s : State) : (setClock m s).fsm = s.fsm := rfl
@[simp] theorem setClock_pin (m : BitVec 8) (s : State) : (setClock m s).pin = s.pin := rfl
@[simp] theorem setClock_base (m : BitVec 8) (s : State) : (setClock m s).base = s.base := rfl
@[simp] theorem setClock_len (m : BitVec 8) (s : State) : (setClock m s).len = s.len := rfl
@[simp] theorem setClock_thShort (m : BitVec 8) (s : State) : (setClock m s).thShort = s.thShort := rfl
@[simp] theorem setClock_thLong (m : BitVec 8) (s : State) : (setClock m s).thLong = s.thLong := rfl
@[simp] theorem setClock_thPeriod (m : BitVec 8) (s : State) : (setClock m s).thPeriod = s.thPeriod := rfl
@[simp] theorem setClock_cur (m : BitVec 8) (s : State) : (setClock m s).cur = s.cur := rfl
@[simp] theorem setClock_mask (m : BitVec 8) (s : State) : (setClock m s).mask = s.mask := rfl
@[simp] theorem setClock_idx (m : BitVec 8) (s : State) : (setClock m s).idx = s.idx := rfl
@[simp] theorem setClock_startTime (m : BitVec 8) (s : State) : (setClock m s).startTime = s.startTime := rfl
@[simp] theorem setClock_ports (m : BitVec 8) (s : State) : (setClock m s).ports = s.ports := rfl
@[simp] theorem setClock_cc (m : BitVec 8) (s : State) : (setClock m s).cc = s.cc := rfl
@[simp] theorem setClock_done (m : BitVec 8) (s : State) : (setClock m s).done = s.done := rfl
@[simp] theorem setClock_gpio (m : BitVec 8) (s : State) : (setClock m s).gpio = s.gpio := rfl
@[simp] theorem setClock_memRead (m : BitVec 8) (s : State) : (setClock m s).memRead = s.memRead := rfl
@[simp] theorem setClock_c (m : BitVec 8) (s : State) : (setClock m s).c = s.c := rfl
@[simp] theorem setClock_cycles (m : BitVec 8) (s : State) : (setClock m s).cycles = s.cycles := rfl
@[simp] theorem setClock_calResult (m : BitVec 8) (s : State) : (setClock m s).calResult = s.calResult := rfl
@[simp] theorem setClock_stepSel (m : BitVec 8) (s : State) : (setClock m s).stepSel = s.stepSel := rfl
@[simp] theorem setClock_lvl (m : BitVec 8) (s : State) : (setClock m s).lvl = s.lvl := rfl
@[simp] theorem setClock_pinOut (m : BitVec 8) (s : State) : (setClock m s).pinOut = s.pinOut := rfl
@[simp] theorem setClock_mem (m : BitVec 8) (s : State) : (setClock m s).mem = s.mem := rfl
@[simp] theorem setClock_clkMhz (m : BitVec 8) (s : State) : (setClock m s).clkMhz = m := rfl
@[simp] theorem setClock_clockPast (m : BitVec 8) (s : State) : (setClock m s).clockPast =
    if m = s.clkMhz then s.clockPast else ⟨s.now, s.clkMhz⟩ :: s.clockPast := rfl
@[simp] theorem setClock_intMasked (m : BitVec 8) (s : State) : (setClock m s).intMasked = s.intMasked := rfl
@[simp] theorem setClock_maskSaved (m : BitVec 8) (s : State) : (setClock m s).maskSaved = s.maskSaved := rfl
@[simp] theorem setClock_trace (m : BitVec 8) (s : State) : (setClock m s).trace = s.trace := rfl
@[simp] theorem setClock_now (m : BitVec 8) (s : State) : (setClock m s).now = s.now := rfl
@[simp] theorem setClock_fellAt (m : BitVec 8) (s : State) : (setClock m s).fellAt = s.fellAt := rfl
@[simp] theorem setClock_ccNext (m : BitVec 8) (s : State) : (setClock m s).ccNext = s.ccNext := rfl
@[simp] theorem setClock_inputs (m : BitVec 8) (s : State) : (setClock m s).inputs = s.inputs := rfl

/-! ### `takeSample` -/

/-- Taking the sample of an accepting step moves the counter and clears the mark, and nothing else. -/
theorem takeSample_eq (s : State) :
    takeSample s = { s with cc := (takeSample s).cc, now := (takeSample s).now, ccNext := (takeSample s).ccNext } := by
  unfold takeSample
  split
  · split <;> rfl
  · rfl

@[simp] theorem takeSample_params (s : State) : (takeSample s).params = s.params := by rw [takeSample_eq]
@[simp] theorem takeSample_fsm (s : State) : (takeSample s).fsm = s.fsm := by rw [takeSample_eq]
@[simp] theorem takeSample_pin (s : State) : (takeSample s).pin = s.pin := by rw [takeSample_eq]
@[simp] theorem takeSample_base (s : State) : (takeSample s).base = s.base := by rw [takeSample_eq]
@[simp] theorem takeSample_len (s : State) : (takeSample s).len = s.len := by rw [takeSample_eq]
@[simp] theorem takeSample_thShort (s : State) : (takeSample s).thShort = s.thShort := by rw [takeSample_eq]
@[simp] theorem takeSample_thLong (s : State) : (takeSample s).thLong = s.thLong := by rw [takeSample_eq]
@[simp] theorem takeSample_thPeriod (s : State) : (takeSample s).thPeriod = s.thPeriod := by rw [takeSample_eq]
@[simp] theorem takeSample_cur (s : State) : (takeSample s).cur = s.cur := by rw [takeSample_eq]
@[simp] theorem takeSample_mask (s : State) : (takeSample s).mask = s.mask := by rw [takeSample_eq]
@[simp] theorem takeSample_idx (s : State) : (takeSample s).idx = s.idx := by rw [takeSample_eq]
@[simp] theorem takeSample_startTime (s : State) : (takeSample s).startTime = s.startTime := by rw [takeSample_eq]
@[simp] theorem takeSample_ports (s : State) : (takeSample s).ports = s.ports := by rw [takeSample_eq]
@[simp] theorem takeSample_done (s : State) : (takeSample s).done = s.done := by rw [takeSample_eq]
@[simp] theorem takeSample_gpio (s : State) : (takeSample s).gpio = s.gpio := by rw [takeSample_eq]
@[simp] theorem takeSample_memRead (s : State) : (takeSample s).memRead = s.memRead := by rw [takeSample_eq]
@[simp] theorem takeSample_c (s : State) : (takeSample s).c = s.c := by rw [takeSample_eq]
@[simp] theorem takeSample_cycles (s : State) : (takeSample s).cycles = s.cycles := by rw [takeSample_eq]
@[simp] theorem takeSample_calResult (s : State) : (takeSample s).calResult = s.calResult := by rw [takeSample_eq]
@[simp] theorem takeSample_stepSel (s : State) : (takeSample s).stepSel = s.stepSel := by rw [takeSample_eq]
@[simp] theorem takeSample_lvl (s : State) : (takeSample s).lvl = s.lvl := by rw [takeSample_eq]
@[simp] theorem takeSample_pinOut (s : State) : (takeSample s).pinOut = s.pinOut := by rw [takeSample_eq]
@[simp] theorem takeSample_mem (s : State) : (takeSample s).mem = s.mem := by rw [takeSample_eq]
@[simp] theorem takeSample_clkMhz (s : State) : (takeSample s).clkMhz = s.clkMhz := by rw [takeSample_eq]
@[simp] theorem takeSample_clockPast (s : State) : (takeSample s).clockPast = s.clockPast := by rw [takeSample_eq]
@[simp] theorem takeSample_intMasked (s : State) : (takeSample s).intMasked = s.intMasked := by rw [takeSample_eq]
@[simp] theorem takeSample_maskSaved (s : State) : (takeSample s).maskSaved = s.maskSaved := by rw [takeSample_eq]
@[simp] theorem takeSample_trace (s : State) : (takeSample s).trace = s.trace := by rw [takeSample_eq]
@[simp] theorem takeSample_fellAt (s : State) : (takeSample s).fellAt = s.fellAt := by rw [takeSample_eq]
@[simp] theorem takeSample_inputs (s : State) : (takeSample s).inputs = s.inputs := by rw [takeSample_eq]

/-! ### `pulse` -/

@[simp] theorem pulse_params (p : PinId) (x y : Ticks) (s : State) : (pulse p x y s).params =
    s.params := by simp [pulse]
@[simp] theorem pulse_fsm (p : PinId) (x y : Ticks) (s : State) : (pulse p x y s).fsm = s.fsm := by simp [pulse]
@[simp] theorem pulse_pin (p : PinId) (x y : Ticks) (s : State) : (pulse p x y s).pin = s.pin := by simp [pulse]
@[simp] theorem pulse_base (p : PinId) (x y : Ticks) (s : State) : (pulse p x y s).base = s.base := by simp [pulse]
@[simp] theorem pulse_len (p : PinId) (x y : Ticks) (s : State) : (pulse p x y s).len = s.len := by simp [pulse]
@[simp] theorem pulse_thShort (p : PinId) (x y : Ticks) (s : State) : (pulse p x y s).thShort =
    s.thShort := by simp [pulse]
@[simp] theorem pulse_thLong (p : PinId) (x y : Ticks) (s : State) : (pulse p x y s).thLong =
    s.thLong := by simp [pulse]
@[simp] theorem pulse_thPeriod (p : PinId) (x y : Ticks) (s : State) : (pulse p x y s).thPeriod =
    s.thPeriod := by simp [pulse]
@[simp] theorem pulse_cur (p : PinId) (x y : Ticks) (s : State) : (pulse p x y s).cur = s.cur := by simp [pulse]
@[simp] theorem pulse_mask (p : PinId) (x y : Ticks) (s : State) : (pulse p x y s).mask = s.mask := by simp [pulse]
@[simp] theorem pulse_idx (p : PinId) (x y : Ticks) (s : State) : (pulse p x y s).idx = s.idx := by simp [pulse]
@[simp] theorem pulse_startTime (p : PinId) (x y : Ticks) (s : State) : (pulse p x y s).startTime =
    s.startTime := by simp [pulse]
@[simp] theorem pulse_ports (p : PinId) (x y : Ticks) (s : State) : (pulse p x y s).ports = s.ports := by simp [pulse]
@[simp] theorem pulse_cc (p : PinId) (x y : Ticks) (s : State) : (pulse p x y s).cc =
    s.cc + s.params.stride + BitVec.ofNat 32 (edgesFor s.params x.toNat * s.params.ccStride) +
      BitVec.ofNat 32 ((edgesFor s.params y.toNat - edgesFor s.params x.toNat - 1) * s.params.ccStride) := by
  simp [pulse]
@[simp] theorem pulse_calResult (p : PinId) (x y : Ticks) (s : State) : (pulse p x y s).calResult =
    s.calResult := by simp [pulse]
@[simp] theorem pulse_lvl (p : PinId) (x y : Ticks) (s : State) : (pulse p x y s).lvl =
    driveLevels .clr (gpioMask p) (driveLevels .set (gpioMask p) s.lvl) := by simp [pulse]
@[simp] theorem pulse_pinOut (p : PinId) (x y : Ticks) (s : State) : (pulse p x y s).pinOut =
    s.pinOut := by simp [pulse]
@[simp] theorem pulse_mem (p : PinId) (x y : Ticks) (s : State) : (pulse p x y s).mem = s.mem := by simp [pulse]
@[simp] theorem pulse_clkMhz (p : PinId) (x y : Ticks) (s : State) : (pulse p x y s).clkMhz =
    s.clkMhz := by simp [pulse]
@[simp] theorem pulse_clockPast (p : PinId) (x y : Ticks) (s : State) : (pulse p x y s).clockPast =
    s.clockPast := by simp [pulse]
@[simp] theorem pulse_intMasked (p : PinId) (x y : Ticks) (s : State) : (pulse p x y s).intMasked =
    s.intMasked := by simp [pulse]
@[simp] theorem pulse_maskSaved (p : PinId) (x y : Ticks) (s : State) : (pulse p x y s).maskSaved =
    s.maskSaved := by simp [pulse]
@[simp] theorem pulse_now (p : PinId) (x y : Ticks) (s : State) : (pulse p x y s).now =
    s.now + s.params.ccStride + edgesFor s.params x.toNat * s.params.ccStride +
      (edgesFor s.params y.toNat - edgesFor s.params x.toNat - 1) * s.params.ccStride := by simp [pulse]
@[simp] theorem pulse_ccNext (p : PinId) (x y : Ticks) (s : State) : (pulse p x y s).ccNext =
    s.ccNext := by simp [pulse]
@[simp] theorem pulse_inputs (p : PinId) (x y : Ticks) (s : State) : (pulse p x y s).inputs =
    s.inputs := by simp [pulse]

end Sys2Proof.Machine
end

