-- ==== Sys2Proof/Laws/Flags.lean ====
section
/-! SUPPORT. The conditions of R31 seen through a clock edge, and the step-select word as a number. -/

namespace Sys2Proof.Machine

@[simp] theorem elapsed_clockEdge (s : State) : elapsed (clockEdge s) = s.cc - s.startTime := rfl
@[simp] theorem busy_clockEdge (s : State) : busy (clockEdge s) = busy s := rfl
@[simp] theorem lenz_clockEdge (s : State) : lenz (clockEdge s) = lenz s := rfl
@[simp] theorem bit1_clockEdge (s : State) : bit1 (clockEdge s) = bit1 s := rfl
@[simp] theorem target_clockEdge (s : State) : target (clockEdge s) = target s := rfl
@[simp] theorem lastbit_clockEdge (s : State) : lastbit (clockEdge s) = lastbit s := rfl
@[simp] theorem lastbyte_clockEdge (s : State) : lastbyte (clockEdge s) = lastbyte s := rfl

/-- The step-select word does not read itself. -/
theorem stepWord_stepSel (w : BitVec 7) (s : State) : stepWord { s with stepSel := w } = stepWord s := by
  unfold stepWord ge target bit1 elapsed lenz lastbit lastbyte
  rfl

/-- The step-select word does not read itself: the word a clock edge forms is the word of the state after it. -/
theorem clockEdge_stepSel_eq (s : State) : (clockEdge s).stepSel = stepWord (clockEdge s) := rfl

theorem busy_eq_true {s : State} : busy s = true ↔ s.fsm = .waitp ∨ s.fsm = .waith := by
  cases h : s.fsm <;> simp [busy, h]

theorem busy_eq_false {s : State} : busy s = false ↔ s.fsm = .idle := by
  cases h : s.fsm <;> simp [busy, h]

theorem packStep_lt (f : FsmState) (t z g b e : Bool) : packStep f.code t z g b e < 2 ^ 7 := by
  cases f <;> cases t <;> cases z <;> cases g <;> cases b <;> cases e <;> decide

/-- The step-select word, as a number, is its fields packed (R72). -/
theorem stepWord_toNat (s : State) : (stepWord s).toNat =
    packStep s.fsm.code s.ports.start (lenz s) (ge s) (lastbit s) (lastbyte s) := by
  rw [stepWord, BitVec.toNat_ofNat, Nat.mod_eq_of_lt (packStep_lt ..)]

/-- `gpio_mask` has exactly the bit of its pin. -/
theorem gpioMask_eq_twoPow (p : PinId) : gpioMask p = BitVec.twoPow 16 p.toNat := rfl

@[simp] theorem gpioMask_getLsbD (p q : PinId) : (gpioMask p).getLsbD q.toNat = decide (q = p) := by
  revert p q; decide

end Sys2Proof.Machine
end

