-- ==== Sys2Proof/Laws/Memory.lean ====
section
/-! SUPPORT. The buffer memory: what is read after a store, and that every operation keeps the canonical form and the
address space. -/

namespace Sys2Proof.Machine

theorem Memory.read_write_same (m : Memory) (a : Nat) (v : Byte) : Memory.read (Memory.write m a v) a = some v := by
  induction m with
  | nil => simp [Memory.write, Memory.read]
  | cons c m ih =>
    obtain ⟨b, u⟩ := c
    unfold Memory.write
    split
    · simp [Memory.read]
    · split
      · simp [Memory.read]
      · simp [Memory.read, ih]; omega

theorem Memory.read_write_other (m : Memory) {a b : Nat} (v : Byte) (h : b ≠ a) :
    Memory.read (Memory.write m a v) b = Memory.read m b := by
  induction m with
  | nil => simp [Memory.write, Memory.read]; omega
  | cons c m ih =>
    obtain ⟨x, u⟩ := c
    unfold Memory.write
    split
    · simp [Memory.read]; intro hab; omega
    · split
      · subst_vars; simp [Memory.read, Ne.symm h]
      · simp [Memory.read, ih]

theorem Memory.wfFrom_write {m : Memory} {lo a : Nat} (v : Byte) (h : Memory.wfFrom lo m = true) (hl : lo ≤ a) :
    Memory.wfFrom lo (Memory.write m a v) = true := by
  induction m generalizing lo with
  | nil => simp [Memory.write, Memory.wfFrom, hl]
  | cons c m ih =>
    obtain ⟨b, u⟩ := c
    simp only [Memory.wfFrom, Bool.and_eq_true, decide_eq_true_eq] at h
    unfold Memory.write
    split
    · simp [Memory.wfFrom, hl, h]; omega
    · split
      · subst_vars; simp [Memory.wfFrom, h]
      · simp only [Memory.wfFrom, Bool.and_eq_true, decide_eq_true_eq]
        exact ⟨h.1, ih h.2 (by omega)⟩

/-- A store keeps the canonical form. -/
theorem Memory.wf_write {m : Memory} {a : Nat} (v : Byte) (h : Memory.wf m = true) :
    Memory.wf (Memory.write m a v) = true :=
  Memory.wfFrom_write v h (Nat.zero_le a)

/-- Storing bytes keeps the canonical form. -/
theorem Memory.wf_writeAll {m : Memory} {a : Nat} (vs : List Byte) (h : Memory.wf m = true) :
    Memory.wf (Memory.writeAll m a vs) = true := by
  induction vs generalizing m a with
  | nil => exact h
  | cons v vs ih => exact ih (Memory.wf_write v h)

/-- A store inside an address space stays inside it. -/
theorem Memory.within_write {n : Nat} {m : Memory} {a : Nat} (v : Byte) (h : Memory.within n m = true) (ha : a < n) :
    Memory.within n (Memory.write m a v) = true := by
  induction m with
  | nil => simp [Memory.write, Memory.within, ha]
  | cons c m ih =>
    obtain ⟨b, u⟩ := c
    simp only [Memory.within, Bool.and_eq_true, decide_eq_true_eq] at h
    unfold Memory.write
    split
    · simp [Memory.within, ha, h]
    · split
      · simp [Memory.within, ha, h]
      · simp [Memory.within, h, ih h.2]

/-- Storing bytes inside an address space stays inside it. -/
theorem Memory.within_writeAll {n : Nat} {m : Memory} {a : Nat} (vs : List Byte) (h : Memory.within n m = true)
    (ha : a + vs.length ≤ n) : Memory.within n (Memory.writeAll m a vs) = true := by
  induction vs generalizing m a with
  | nil => exact h
  | cons v vs ih =>
    rw [List.length_cons] at ha
    exact ih (Memory.within_write v h (by omega)) (by omega)

theorem Memory.reset_wf : Memory.wf State.reset.mem = true := rfl

/-- A buffer is readable exactly when each of its bytes is stored. -/
theorem Memory.readable_iff (m : Memory) (a n : Nat) :
    Memory.readable m a n = true ↔ ∀ i < n, (Memory.read m (a + i)).isSome = true := by
  induction n generalizing a with
  | zero => simp [Memory.readable]
  | succ n ih =>
    rw [Memory.readable, Bool.and_eq_true, ih]
    constructor
    · rintro ⟨h0, h⟩ i hi
      cases i with
      | zero => exact h0
      | succ i => simpa [Nat.add_assoc, Nat.add_comm 1] using h i (by omega)
    · intro h
      exact ⟨h 0 (by omega), fun i hi => by simpa [Nat.add_assoc, Nat.add_comm 1] using h (i + 1) (by omega)⟩

/-- Bytes below or above those stored are read as before. -/
theorem Memory.read_writeAll_outside (m : Memory) {a b : Nat} (vs : List Byte) (h : b < a ∨ a + vs.length ≤ b) :
    Memory.read (Memory.writeAll m a vs) b = Memory.read m b := by
  induction vs generalizing m a with
  | nil => rfl
  | cons v vs ih =>
    rw [List.length_cons] at h
    rw [Memory.writeAll, ih _ (by omega), Memory.read_write_other _ _ (by omega)]

/-- Each stored byte is read at its address. -/
theorem Memory.read_writeAll_inside (m : Memory) {a i : Nat} {vs : List Byte} {v : Byte} (h : vs[i]? = some v) :
    Memory.read (Memory.writeAll m a vs) (a + i) = some v := by
  induction vs generalizing m a i with
  | nil => simp at h
  | cons u vs ih =>
    cases i with
    | zero =>
      simp only [List.getElem?_cons_zero, Option.some.injEq] at h
      rw [Memory.writeAll, Memory.read_writeAll_outside _ _ (by omega), Nat.add_zero, h, Memory.read_write_same]
    | succ i =>
      rw [List.getElem?_cons_succ] at h
      rw [Memory.writeAll, show a + (i + 1) = a + 1 + i by omega]
      exact ih _ h

/-- `changesWithin` finds exactly a stored byte of the range that would get another value. -/
theorem Memory.changesWithin_iff (m : Memory) (lo n a : Nat) (vs : List Byte) :
    Memory.changesWithin m lo n a vs = true ↔
      ∃ i v, vs[i]? = some v ∧ lo ≤ a + i ∧ a + i < lo + n ∧ Memory.read m (a + i) ≠ some v := by
  induction vs generalizing a with
  | nil => simp [Memory.changesWithin]
  | cons u vs ih =>
    rw [Memory.changesWithin, Bool.or_eq_true, ih]
    constructor
    · rintro (h | ⟨i, v, h⟩)
      · simp only [Bool.and_eq_true, decide_eq_true_eq, bne_iff_ne] at h
        exact ⟨0, u, rfl, h.1.1, h.1.2, h.2⟩
      · exact ⟨i + 1, v, by simpa [Nat.add_assoc, Nat.add_comm 1] using h⟩
    · rintro ⟨i, v, hv, h⟩
      cases i with
      | zero =>
        simp only [List.getElem?_cons_zero, Option.some.injEq] at hv
        left; simpa [hv, and_assoc] using h
      | succ i =>
        right
        exact ⟨i, v, by simpa using hv, by simpa [Nat.add_assoc, Nat.add_comm 1] using h⟩

end Sys2Proof.Machine
end

