-- ==== Sys2Proof/Laws/Meanings.lean ====
section
/-! SUPPORT. For each shared operation and each meaning that can stop, one lemma that says once what a next state of it is, so
that no proof unfolds it again. -/

namespace Sys2Proof.Machine

open Host (Outcome)

/-- A next state of a mapped outcome is the image of a next state. -/
theorem mapNext_next {f : State → State} {o : Outcome State Fault Refusal} {t : State} (h : mapNext f o = .next t) :
    ∃ u, o = .next u ∧ t = f u := by
  cases o <;> simp_all [mapNext]

/-- A command on the ports is refused by no clause of R181 exactly when its preconditions are met. -/
theorem beginRefusal_none_iff (s : State) :
    beginRefusal s = none ↔ TxReady s.ports.pinIn s.ports.baseIn s.ports.lenIn s := by
  have hc : calibrate s.ports.cpuMhz ≠ none ↔ s.ports.cpuMhz = 80 ∨ s.ports.cpuMhz = 160 := by
    unfold calibrate; split
    · simp_all
    · split <;> simp_all
  constructor
  · intro h
    unfold beginRefusal at h
    split at h; · cases h
    split at h; · cases h
    split at h; · cases h
    split at h; · cases h
    split at h; · cases h
    split at h; · cases h
    rename_i h1 h2 h3 h4 h5 h6
    exact
      { output := by simpa using h1
        room := by omega
        buffer := (Memory.readable_iff ..).mp (by simpa using h3)
        clock := hc.mp h4
        low := by simpa using h5
        gap := by simpa using h6 }
  · intro h
    have hb := (Memory.readable_iff ..).mpr h.buffer
    unfold beginRefusal
    rw [if_neg (by simp [h.output]), if_neg (by have := h.room; omega), if_neg (by simp [hb]), if_neg (hc.mpr h.clock),
      if_neg (by simp [h.low]), if_neg (by simp [h.gap])]

/-- A next state of BEGIN. -/
theorem execBegin_next {s t : State} (h : execBegin s = .next t) :
    TxReady s.ports.pinIn s.ports.baseIn s.ports.lenIn s ∧
      ∃ th b, calibrate s.ports.cpuMhz = some th ∧ Memory.read s.mem s.ports.baseIn = some b ∧
        t = beginState th b s := by
  unfold execBegin at h
  split at h
  · cases h
  · rename_i hr
    split at h
    · rename_i th b hth hb
      cases h
      exact ⟨(beginRefusal_none_iff s).mp hr, th, b, hth, hb, rfl⟩
    · cases h
    · cases h

/-- A next state of FALL_BYTE. -/
theorem execFallByte_next {s t : State} (h : execFallByte s = .next t) :
    ∃ b, Memory.read s.mem (bufAddr s.params s.base s.idx) = some b ∧
      t = setFsm .waitp
        { gpioWrite .clr (gpioMask s.pin) s with
          cur := b, idx := nextIndex s.params s.idx, mask := 0x80
          memRead := some ⟨bufAddr s.params s.base s.idx, b⟩ } := by
  unfold execFallByte at h
  split at h
  · cases h
  · rename_i b hb
    cases h
    exact ⟨b, hb, rfl⟩

/-- A next state of a GPIO word. -/
theorem gpioWord_next {op : GpioOp} {m : PinMask} {s t : State} (h : gpioWord op m s = .next t) :
    oneHot 16 m = true ∧ (busy s = false ∨ m.getLsbD s.pin.toNat = false) ∧ t = drivePort op m s := by
  unfold gpioWord at h
  split at h
  · cases h
  · split at h
    · cases h
    · rename_i h1 h2
      cases h
      refine ⟨by simpa using h1, ?_, rfl⟩
      cases hb : busy s <;> simp_all

/-- A next state of READ_CYCLES. -/
theorem execReadCycles_next {v : Ticks} {s t : State} (h : execReadCycles v s = .next t) :
    t = { runOn v s with cycles := v } := by
  unfold execReadCycles at h
  split at h
  · cases h
  · split at h
    · cases h
    · split at h
      · cases h
      · cases h; rfl

/-- READ_CYCLES of a busy block that gives a next state has passed its three guards. -/
theorem execReadCycles_guards {v : Ticks} {s t : State} (h : execReadCycles v s = .next t) (hb : busy s = true) :
    v ≠ s.c ∧ ticksSince v s + s.thPeriod.toNat < 2 ^ 32 ∧
      (startStamped s = true → (s.c - s.startTime).toNat + ticksSince v s + nextCompare s < 2 ^ 32) := by
  unfold execReadCycles at h
  split at h
  · cases h
  · split at h
    · cases h
    · split at h
      · cases h
      · rename_i h1 h2 h3
        rw [hb, Bool.true_and] at h1 h2 h3
        simp only [beq_iff_eq, decide_eq_true_eq, Bool.and_eq_true, not_and, Nat.not_le] at h1 h2 h3
        exact ⟨h1, h2, h3⟩

/-- A next state of CALIBRATE. -/
theorem execCalibrate_next {m : BitVec 8} {s t : State} (h : execCalibrate m s = .next t) :
    ∃ th, calibrate m = some th ∧ t = { s with calResult := th } := by
  unfold execCalibrate at h
  split at h
  · rename_i th hth
    cases h
    exact ⟨th, hth, rfl⟩
  · cases h

/-- A next state of a symbol: the reset edge, or the pulse of an idle block. -/
theorem symbol_next {f : Thresholds → Ticks} {s t : State} (h : symbol f s = .next t) :
    (s.ports.rst = true ∧ t = resetEdge s) ∨
      (s.ports.rst = false ∧ busy s = false ∧ s.pinOut.getLsbD s.ports.pinIn.toNat = true ∧
        s.lvl.getLsbD s.ports.pinIn.toNat = false ∧
        ∃ th, calibrate s.ports.cpuMhz = some th ∧ t = pulse s.ports.pinIn (f th) th.period (dropStart s)) := by
  unfold symbol at h
  split at h
  · rename_i hr
    cases h
    exact .inl ⟨hr, rfl⟩
  · rename_i hr
    split at h
    · cases h
    · rename_i hb
      split at h
      · cases h
      · rename_i ho
        split at h
        · cases h
        · rename_i th hth
          split at h
          · cases h
          · rename_i hl
            cases h
            exact .inr ⟨by simpa using hr, by simpa using hb, by simpa using ho, by simpa using hl, th, hth, rfl⟩

/-- The two rows of the threshold table. -/
theorem calibrate_some {m : BitVec 8} {th : Thresholds} (h : calibrate m = some th) :
    (m = 80 ∧ th = ⟨24, 48, 100⟩) ∨ (m = 160 ∧ th = ⟨48, 96, 200⟩) := by
  unfold calibrate at h
  split at h
  · simp_all
  · split at h
    · simp_all
    · cases h

/-- A pin level after a write: set or cleared in the mask, as before outside it. -/
theorem driveLevels_getLsbD (op : GpioOp) (m l : PinMask) (p : PinId) :
    (driveLevels op m l).getLsbD p.toNat =
      if m.getLsbD p.toNat then decide (op = .set) else l.getLsbD p.toNat := by
  have hp : p.toNat < 16 := p.isLt
  cases op
  · rw [driveLevels, BitVec.getLsbD_or]
    cases m.getLsbD p.toNat <;> simp
  · rw [driveLevels, BitVec.getLsbD_and, BitVec.getLsbD_not]
    cases m.getLsbD p.toNat <;> simp [hp]

theorem markFalls_length (b a : PinMask) (t p : Nat) (fs : List (Option Nat)) :
    (markFalls b a t p fs).length = fs.length := by
  induction fs generalizing p with
  | nil => rfl
  | cons f fs ih => simp [markFalls, ih]

/-- The note of each pin after a change of levels: the time at the pins that fall, as before at the others. -/
theorem markFalls_getD (b a : PinMask) (t : Nat) (fs : List (Option Nat)) (p i : Nat) :
    (markFalls b a t p fs).getD i none =
      if i < fs.length ∧ b.getLsbD (p + i) = true ∧ a.getLsbD (p + i) = false then some t else fs.getD i none := by
  induction fs generalizing p i with
  | nil => simp [markFalls]
  | cons f fs ih =>
    cases i with
    | zero => simp [markFalls]
    | succ i =>
      rw [markFalls, List.getD_cons_succ, ih, List.getD_cons_succ, List.length_cons,
        show p + 1 + i = p + (i + 1) by omega]
      simp

/-- No note changes where no pin falls. -/
theorem markFalls_set (m l : PinMask) (t p : Nat) (fs : List (Option Nat)) :
    markFalls l (driveLevels .set m l) t p fs = fs := by
  induction fs generalizing p with
  | nil => rfl
  | cons f fs ih =>
    rw [markFalls, ih]
    cases h : l.getLsbD p <;> simp [driveLevels, h]

/-- The notes after one pin is driven low: that pin's is the time if it was high, the others stand. -/
theorem markFalls_clr (p : PinId) (l : PinMask) (t : Nat) (fs : List (Option Nat)) :
    markFalls l (driveLevels .clr (gpioMask p) l) t 0 fs = notedFall p l t fs := by
  apply List.ext_getElem?
  intro i
  have key : ∀ (k : Nat) (gs : List (Option Nat)) (j : Nat),
      (markFalls l (driveLevels .clr (gpioMask p) l) t k gs)[j]? =
        if k + j = p.toNat ∧ l.getLsbD p.toNat = true ∧ j < gs.length then some (some t) else gs[j]? := by
    intro k gs
    induction gs generalizing k with
    | nil => intro j; simp [markFalls]
    | cons g gs ih =>
      intro j
      cases j with
      | zero =>
        rw [markFalls, List.getElem?_cons_zero, List.getElem?_cons_zero, Nat.add_zero]
        have hm : (driveLevels .clr (gpioMask p) l).getLsbD k = (l.getLsbD k && decide (k ≠ p.toNat)) := by
          rw [driveLevels, BitVec.getLsbD_and, BitVec.getLsbD_not, gpioMask_eq_twoPow, BitVec.getLsbD_twoPow]
          by_cases hk : k < 16
          · by_cases he : k = p.toNat
            · simp [he]
            · simp [hk, he, Ne.symm he]
          · simp [BitVec.getLsbD_of_ge l k (by omega)]
        rw [hm]
        by_cases he : k = p.toNat
        · subst he; cases l.getLsbD p.toNat <;> simp
        · cases l.getLsbD k <;> simp [he]
      | succ j =>
        rw [markFalls, List.getElem?_cons_succ, List.getElem?_cons_succ, ih]
        simp [Nat.add_assoc, Nat.add_comm 1]
  rw [key, Nat.zero_add, notedFall]
  by_cases hl : l.getLsbD p.toNat = true
  · rw [if_pos hl, List.getElem?_set]
    by_cases hi : p.toNat = i
    · subst hi
      by_cases hlen : p.toNat < fs.length <;> simp [hl, hlen]
    · rw [if_neg (fun h => hi h.1.symm), if_neg hi]
  · rw [if_neg (fun h => hl h.2.1), if_neg hl]

/-- A next state of the host's `LEVEL`. -/
theorem inputLevel_next {p : PinId} {v : Bool} {s t : State} (h : inputLevel p v s = .next t) :
    (busy s = false ∨ p ≠ s.pin) ∧
      t = { setLevels (driveLevels (if v then .set else .clr) (gpioMask p) s.lvl) s with
        pinOut := s.pinOut ||| gpioMask p } := by
  unfold inputLevel at h
  split at h
  · cases h
  · rename_i hc
    cases h
    refine ⟨?_, rfl⟩
    cases hb : busy s <;> simp_all

/-- A next state of the host's `BUF`. -/
theorem inputBuf_next {a : Nat} {vs : List Byte} {s t : State} (h : inputBuf a vs s = .next t) :
    a + vs.length ≤ s.params.addrSpace ∧
      (busy s = false ∨ Memory.changesWithin s.mem s.base s.len a vs = false) ∧
      t = { s with mem := Memory.writeAll s.mem a vs } := by
  unfold inputBuf at h
  split at h
  · cases h
  · split at h
    · cases h
    · rename_i h1 h2
      cases h
      refine ⟨by omega, ?_, rfl⟩
      cases hb : busy s <;> simp_all

/-- The time since a tick at or after which the clock has kept its rate. -/
theorem microsSince_same {t e mhz : Nat} {past : List ClockPhase} (h : ∀ ph ∈ past, ph.ended ≤ t) :
    microsSince t e mhz past = addTicks (e - t) mhz (0, 1) := by
  cases past with
  | nil => rfl
  | cons ph past => rw [microsSince, if_pos (h ph (by simp))]

/-- `n` ticks at one rate are more than `us` microseconds exactly when they are more than `us` times the rate. -/
theorem addTicks_lt {us n mhz : Nat} :
    us * (addTicks n mhz (0, 1)).2 < (addTicks n mhz (0, 1)).1 ↔ mhz ≠ 0 ∧ us * mhz < n := by
  by_cases h : mhz = 0 <;> simp [addTicks, h]

/-- A next state of the host's `FREQ`. -/
theorem inputFreq_next {m : BitVec 8} {s t : State} (h : inputFreq m s = .next t) :
    t = setCpuMhz m (setClock m s) := by
  unfold inputFreq at h
  split at h
  · cases h
  · cases h; rfl

/-- A next state of the host's `UNLOCK`. -/
theorem inputUnlock_next {s t : State} (h : inputUnlock s = .next t) :
    ∃ m ms, s.maskSaved = m :: ms ∧ t = { s with intMasked := m, maskSaved := ms } := by
  unfold inputUnlock at h
  split at h
  · rename_i m ms hm
    cases h
    exact ⟨m, ms, hm, rfl⟩
  · cases h

/-- An interrupt that does not stop the run changes nothing. -/
theorem inputInterrupt_next {s t : State} (h : inputInterrupt s = .next t) : t = s := by
  unfold inputInterrupt at h
  split at h
  · cases h
  · cases h; rfl

/-- A next state of a word from outside is a next state of the instruction it decodes to, or a reserved clock code on the
port. -/
theorem runWord_next {f : Format} {w : Nat} {s t : State} (h : runWord f w s = .next t) :
    f ≠ .step ∧ ((∃ i, decode s.params f w = .ok i ∧ exec i s = .next t) ∨
      (decode s.params f w = .rejected .reservedClock ∧ t = setCpuMhz (BitVec.ofNat 8 w) s)) := by
  unfold runWord at h
  split at h
  · cases h
  · rename_i hf
    split at h
    · rename_i i hi
      exact ⟨hf, .inl ⟨i, hi, h⟩⟩
    · rename_i hi
      cases h
      exact ⟨hf, .inr ⟨hi, rfl⟩⟩
    · cases h

/-- At an accepting step the counter stands at the sample a `CC v` has set, which is used up; with none set nothing
changes. -/
theorem takeSample_idle {s : State} (f : s.fsm = .idle) (hr : s.ports.rst = false) :
    takeSample s =
      { s with cc := acceptSample s, now := s.now + (acceptSample s - s.cc).toNat, ccNext := none } := by
  have hb : busy s = false := busy_eq_false.mpr f
  unfold takeSample acceptSample
  cases h : s.ccNext with
  | none => apply State.ext <;> simp [h]
  | some v => simp [hb, hr, runOn]

/-- While the block is busy no step accepts a command. -/
theorem takeSample_busy {s : State} (hb : busy s = true) : takeSample s = s := by
  unfold takeSample
  cases s.ccNext <;> simp [hb]

/-- The state with another step-select word. -/
def setWord (w : BitVec 7) (s : State) : State := { s with stepSel := w }

/-- Forming the step-select word forgets the one that stood. -/
theorem formWord_setWord (w : BitVec 7) (s : State) : formWord (setWord w s) = formWord s := by
  apply State.ext <;> simp [setWord, stepWord_stepSel]

/-- Two clock edges in a row: the second reads nothing the first has shown. -/
theorem clockEdge_clockEdge (s : State) : clockEdge (clockEdge s) =
    clockEdge { s with cc := s.cc + s.params.stride, now := s.now + s.params.ccStride } := by
  have h : sampleCounter (clearOutputs (clockEdge s)) =
      setWord (clockEdge s).stepSel
        (sampleCounter (clearOutputs { s with cc := s.cc + s.params.stride, now := s.now + s.params.ccStride })) := by
    apply State.ext <;> simp [setWord]
  rw [clockEdge, h, formWord_setWord]
  rfl

/-- Several edges of an idle block are that many clock edges in a row. -/
theorem idleEdges_succ (n : Nat) (s : State) : idleEdges (n + 1) s = clockEdge (idleEdges n s) := by
  cases n with
  | zero => simp [idleEdges]
  | succ n =>
    have hc : s.cc + BitVec.ofNat 32 ((n + 1) * s.params.ccStride) =
        s.cc + BitVec.ofNat 32 (n * s.params.ccStride) + s.params.stride := by
      rw [Nat.succ_mul, BitVec.ofNat_add, ← BitVec.add_assoc]; rfl
    have hn : s.now + (n + 1) * s.params.ccStride = s.now + n * s.params.ccStride + s.params.ccStride := by
      rw [Nat.succ_mul, Nat.add_assoc]
    rw [idleEdges, hc, hn, idleEdges, clockEdge_clockEdge]

/-- `n` edges are the least number after which at least `t` ticks have passed. -/
theorem edgesFor_le_iff {q : Params} (h : 0 < q.ccStride) (t n : Nat) : edgesFor q t ≤ n ↔ t ≤ n * q.ccStride := by
  unfold edgesFor
  rw [← Nat.lt_succ_iff, Nat.div_lt_iff_lt_mul h, Nat.succ_mul]
  omega

/-- At stride 1 an edge is a tick. -/
@[simp] theorem edgesFor_one {q : Params} (h : q.ccStride = 1) (t : Nat) : edgesFor q t = t := by
  simp [edgesFor, h]

end Sys2Proof.Machine
end

