-- ==== Sys2Proof/Laws/Engine.lean ====
section
/-! SUPPORT. What the engine's choice of operation can be, said once: nine cases, each with its condition, the operation and
the next state it has; for the written-out step of R120 and for the step-select word of R72. -/

namespace Sys2Proof.Machine

/-- The state a RISE leaves. -/
def riseState (s : State) : State := setFsm .waith (setStart s.c (gpioWrite .set (gpioMask s.pin) s))

/-- A case of the engine's choice on the sampled state `s`, with next state `t`. -/
inductive EngineNext (s t : State) : Prop where
  | nopIdle (f : s.fsm = .idle) (r : s.ports.start = false) (h : t = s)
  | return0 (f : s.fsm = .idle) (r : s.ports.start = true) (l : s.ports.lenIn = 0) (h : t = { s with done := true })
  | beginTx (f : s.fsm = .idle) (r : s.ports.start = true) (l : s.ports.lenIn ≠ 0)
      (ready : TxReady s.ports.pinIn s.ports.baseIn s.ports.lenIn s) (th : Thresholds) (b : Byte)
      (c : calibrate s.ports.cpuMhz = some th) (m : Memory.read s.mem s.ports.baseIn = some b)
      (h : t = beginState th b s)
  | spinp (f : s.fsm = .waitp) (g : ¬ s.thPeriod ≤ elapsed s) (h : t = s)
  | rise (f : s.fsm = .waitp) (g : s.thPeriod ≤ elapsed s) (h : t = riseState s)
  | spinh (f : s.fsm = .waith) (g : ¬ target s ≤ elapsed s) (h : t = s)
  | fallBit (f : s.fsm = .waith) (g : target s ≤ elapsed s) (b : s.mask ≠ 1)
      (h : t = setFsm .waitp { gpioWrite .clr (gpioMask s.pin) s with mask := s.mask >>> 1 })
  | fallByte (f : s.fsm = .waith) (g : target s ≤ elapsed s) (b : s.mask = 1) (e : s.idx ≠ s.len) (v : Byte)
      (m : Memory.read s.mem (bufAddr s.params s.base s.idx) = some v)
      (h : t = setFsm .waitp
        { gpioWrite .clr (gpioMask s.pin) s with
          cur := v, idx := nextIndex s.params s.idx, mask := 0x80
          memRead := some ⟨bufAddr s.params s.base s.idx, v⟩ })
  | fallEnd (f : s.fsm = .waith) (g : target s ≤ elapsed s) (b : s.mask = 1) (e : s.idx = s.len)
      (h : t = setFsm .idle { gpioWrite .clr (gpioMask s.pin) s with mask := 0, done := true })

/-- A next state of the engine's choice is one of the nine cases. -/
theorem engineCase_next {s t : State} (h : engineCase s = .next t) : EngineNext s t := by
  unfold engineCase at h
  split at h
  · rename_i f
    split at h
    · rename_i r
      cases h
      exact .nopIdle f r rfl
    · rename_i r
      have r' : s.ports.start = true := by simpa using r
      split at h
      · rename_i l
        cases h
        exact .return0 f r' l rfl
      · rename_i l
        obtain ⟨ready, th, b, c, m, rfl⟩ := execBegin_next h
        exact .beginTx f r' l ready th b c m rfl
  · rename_i f
    split at h
    · rename_i g
      cases h
      exact .rise f g rfl
    · rename_i g
      cases h
      exact .spinp f g rfl
  · rename_i f
    split at h
    · rename_i g
      split at h
      · rename_i b
        cases h
        exact .fallBit f g b rfl
      · rename_i b
        have b' : s.mask = 1 := by simpa using b
        split at h
        · rename_i e
          obtain ⟨v, m, rfl⟩ := execFallByte_next h
          exact .fallByte f g b' e v m rfl
        · rename_i e
          cases h
          exact .fallEnd f g b' (by simpa using e) rfl
    · rename_i g
      cases h
      exact .spinh f g rfl

/-- A next state of a clock edge is the reset of R210 or one of the nine cases after the edge (R120). -/
theorem engineEdge_next {s t : State} (h : engineEdge s = .next t) :
    (s.ports.rst = true ∧ t = resetEdge s) ∨ (s.ports.rst = false ∧ EngineNext (clockEdge s) t) := by
  unfold engineEdge at h
  cases hr : s.ports.rst <;> simp only [hr, Bool.false_eq_true, if_false, if_true] at h
  · exact .inr ⟨rfl, engineCase_next h⟩
  · cases h
    exact .inl ⟨rfl, rfl⟩

/-- The operation the step decode table of R73 selects for a step-select word with these fields. -/
def selectedOf (f : FsmState) (t z g b e : Bool) : Instr :=
  match f with
  | .idle => if t then (if z then .return0 g b e else .beginTx g b e) else .nopIdle z g b e
  | .waitp => if g then .rise t z b e else .spinp t z b e
  | .waith => if g then (if b then (if e then .fallEnd t z else .fallByte t z) else .fallBit t z e) else .spinh t z b e

/-- The operation the engine performs on the sampled state `s`. -/
def selected (s : State) : Instr :=
  selectedOf s.fsm s.ports.start (lenz s) (ge s) (lastbit s) (lastbyte s)

theorem decode_packStep (q : Params) (f : FsmState) (t z g b e : Bool) :
    decode q .step (packStep f.code t z g b e) = .ok (selectedOf f t z g b e) := by
  have h : decodeStep (packStep f.code t z g b e) = .ok (selectedOf f t z g b e) := by
    revert t z g b e
    cases f <;> decide
  rw [decode, if_pos (show _ < 2 ^ Format.step.width q from packStep_lt f t z g b e), h]

/-- The step-select word decodes to the selected operation. -/
theorem decode_stepWord (q : Params) (s : State) : decode q .step (stepWord s).toNat = .ok (selected s) := by
  rw [stepWord_toNat, decode_packStep]
  rfl

/-- A next state of the selected operation is one of the nine cases. -/
theorem exec_selected_next {s t : State} (h : exec (selected s) s = .next t) : EngineNext s t := by
  unfold selected selectedOf at h
  cases f : s.fsm <;> simp only [f] at h
  · cases r : s.ports.start <;> simp only [r, Bool.false_eq_true, if_false, if_true] at h
    · cases h
      exact .nopIdle f r rfl
    · cases z : lenz s <;> simp only [z, Bool.false_eq_true, if_false, if_true] at h
      · obtain ⟨ready, th, b, c, m, rfl⟩ := execBegin_next h
        exact .beginTx f r (by simpa [lenz] using z) ready th b c m rfl
      · cases h
        exact .return0 f r (by simpa [lenz] using z) rfl
  · cases g : ge s <;> simp only [g, Bool.false_eq_true, if_false, if_true] at h <;> simp [ge, f] at g
    · cases h
      exact .spinp f (BitVec.not_le.mpr g) rfl
    · cases h
      exact .rise f g rfl
  · cases g : ge s <;> simp only [g, Bool.false_eq_true, if_false, if_true] at h <;> simp [ge, f] at g
    · cases h
      exact .spinh f (BitVec.not_le.mpr g) rfl
    · cases b : lastbit s <;> simp only [b, Bool.false_eq_true, if_false, if_true] at h
      · cases h
        exact .fallBit f g (by simpa [lastbit] using b) rfl
      · have b' : s.mask = 1 := by simpa [lastbit] using b
        cases e : lastbyte s <;> simp only [e, Bool.false_eq_true, if_false, if_true] at h
        · obtain ⟨v, m, rfl⟩ := execFallByte_next h
          exact .fallByte f g b' (by simpa [lastbyte] using e) v m rfl
        · cases h
          exact .fallEnd f g b' (by simpa [lastbyte] using e) rfl

/-- A next state of a clock edge of the machine: reset, or one of the nine cases after the edge. -/
theorem edge_next {s t : State} (h : edge s = .next t) :
    (s.ports.rst = true ∧ t = resetEdge s) ∨ (s.ports.rst = false ∧ EngineNext (clockEdge s) t) := by
  unfold edge at h
  cases hr : s.ports.rst <;> simp only [hr, Bool.false_eq_true, if_false, if_true] at h
  · rw [clockEdge_stepSel_eq, decode_stepWord] at h
    exact .inr ⟨rfl, exec_selected_next h⟩
  · cases h
    exact .inl ⟨rfl, rfl⟩

end Sys2Proof.Machine
end

