-- ==== Sys2Proof/Laws/Invariant.lean ====
section
/-! SUPPORT. How the invariant is built: in IDLE most of it is void, and it depends on the listed fields only. -/

namespace Sys2Proof

/-- Parameters a machine can have: each bound by itself. -/
theorem Params.legal_iff {q : Params} :
    q.legal = true ↔ 0 < q.addrW ∧ 0 < q.lenW ∧ 0 < q.ccStride ∧ 2 * q.ccStride + 200 < 2 ^ 32 := by
  simp [Params.legal, and_assoc]

theorem Params.addrSpace_pos (q : Params) : 0 < q.addrSpace := Nat.two_pow_pos _

theorem Params.lenSpace_pos (q : Params) : 0 < q.lenSpace := Nat.two_pow_pos _

end Sys2Proof

namespace Sys2Proof.Machine

/-- The clock's past phases stay past while ticks go by. -/
theorem Inv.phases_mono {s t : State} (h : Inv s) (h1 : t.clockPast = s.clockPast) (h2 : s.now ≤ t.now) :
    ∀ ph ∈ t.clockPast, ph.ended ≤ t.now :=
  fun ph hp => Nat.le_trans (h.phases ph (h1 ▸ hp)) h2

/-- In IDLE only the clauses on parameters, widths, memory and notes remain. -/
theorem Inv.ofIdle {s : State} (f : s.fsm = .idle) (q : s.params.legal = true)
    (p : s.ports.baseIn < s.params.addrSpace ∧ s.ports.lenIn < s.params.lenSpace)
    (w : s.base < s.params.addrSpace ∧ s.len < s.params.lenSpace ∧ s.idx < s.params.lenSpace)
    (m : Memory.wf s.mem = true) (i : Memory.within s.params.addrSpace s.mem = true)
    (l : s.fellAt.length = Config.nPins) (c : ∀ ph ∈ s.clockPast, ph.ended ≤ s.now) : Inv s := by
  have hb : busy s = false := busy_eq_false.mpr f
  constructor <;> first | assumption | (intro h; rw [hb] at h; cases h) | (intro h; rw [f] at h; cases h)

/-- The invariant carries over to a state that agrees on the fields it speaks of; the command ports may carry other values of
their widths, and ticks may go by. -/
theorem Inv.congr {s t : State} (h : Inv s) (h0 : t.params = s.params)
    (hp : t.ports.baseIn < s.params.addrSpace ∧ t.ports.lenIn < s.params.lenSpace)
    (h1 : t.fsm = s.fsm) (h2 : t.thShort = s.thShort)
    (h3 : t.thLong = s.thLong) (h4 : t.thPeriod = s.thPeriod) (h5 : t.mask = s.mask) (h6 : t.idx = s.idx)
    (h7 : t.len = s.len) (h8 : t.base = s.base) (h9 : t.mem = s.mem) (h10 : t.cur = s.cur) (h11 : t.lvl = s.lvl)
    (h12 : t.pin = s.pin) (h13 : t.trace = s.trace) (h14 : t.startTime = s.startTime)
    (h15 : t.fellAt.length = s.fellAt.length) (h16 : t.clockPast = s.clockPast) (h17 : s.now ≤ t.now) : Inv t := by
  have hb : busy t = busy s := by unfold busy; rw [h1]
  exact
    { params := by rw [h0]; exact h.params
      ports := by rw [h0]; exact hp
      widths := by rw [h0, h8, h7, h6]; exact h.widths
      thresholds := by unfold LegalThresholds; rw [hb, h2, h3, h4]; exact h.thresholds
      mask := by rw [hb, h5]; exact h.mask
      index := by rw [hb, h6, h7]; exact h.index
      room := by rw [h0, hb, h8, h7]; exact h.room
      buffer := by rw [hb, h7, h9, h8]; exact h.buffer
      current := by rw [hb, h9, h8, h6, h10]; exact h.current
      low := by rw [h1, h11, h12]; exact h.low
      high := by rw [h1, h11, h12]; exact h.high
      risen := by rw [h1, h12, h13, h14]; exact h.risen
      memory := by rw [h9]; exact h.memory
      inside := by rw [h0, h9]; exact h.inside
      falls := by rw [h15]; exact h.falls
      phases := h.phases_mono h16 h17 }

/-- What the ports carry after they are driven fits their widths. -/
theorem Ports.fit_lt (q : Params) (p : Ports) :
    (Ports.fit q p).baseIn < q.addrSpace ∧ (Ports.fit q p).lenIn < q.lenSpace :=
  ⟨Nat.mod_lt _ (Params.addrSpace_pos q), Nat.mod_lt _ (Params.lenSpace_pos q)⟩

/-- Thresholds loaded from the table are legal. -/
theorem legalThresholds_setThresholds {m : BitVec 8} {th : Thresholds} (h : calibrate m = some th) (s : State) :
    LegalThresholds (setThresholds th s) := by
  rcases calibrate_some h with ⟨_, rfl⟩ | ⟨_, rfl⟩ <;> simp [LegalThresholds]

end Sys2Proof.Machine
end

