-- ==== Sys2Proof/Laws/PerInstr.lean ====
section
/-! SUPPORT. The family `EncodeWidth`, one lemma per instruction: the encoded word fits its format (R70). -/

namespace Sys2Proof.Laws.EncodeWidth

/-- At any widths its operands fit, the word of the instruction is no wider than its format. -/
def Statement (i : Instr) : Prop := ∀ q : Params, i.operandsFit q = true → encode q i < 2 ^ i.format.width q

theorem transmit (p : PinId) (a : Nat) (l : Nat) : Statement (.transmit p a l) := by
  intro q h
  obtain ⟨ha, hl⟩ : a < q.addrSpace ∧ l < q.lenSpace := by simpa [Instr.operandsFit] using h
  unfold Params.addrSpace at ha
  unfold Params.lenSpace at hl
  have hp : p.toNat + 1 ≤ 2 ^ 4 := p.isLt
  show p.toNat * 2 ^ (q.addrW + q.lenW) + a * 2 ^ q.lenW + l < 2 ^ (4 + q.addrW + q.lenW)
  have h1 : a * 2 ^ q.lenW + l < 2 ^ q.addrW * 2 ^ q.lenW := by
    have := Nat.mul_le_mul_right (2 ^ q.lenW) (show a + 1 ≤ 2 ^ q.addrW from ha)
    rw [Nat.succ_mul] at this
    omega
  have h2 := Nat.mul_le_mul_right (2 ^ (q.addrW + q.lenW)) hp
  rw [Nat.succ_mul] at h2
  rw [Nat.add_assoc 4, Nat.pow_add 2 4]
  rw [← Nat.pow_add] at h1
  omega

theorem nopIdle (z g b e : Bool) : Statement (.nopIdle z g b e) := fun _ _ => by
  show encode Config.defaults (.nopIdle z g b e) < 2 ^ 7
  clear * -
  revert z g b e; decide
theorem return0 (g b e : Bool) : Statement (.return0 g b e) := fun _ _ => by
  show encode Config.defaults (.return0 g b e) < 2 ^ 7
  clear * -
  revert g b e; decide
theorem beginTx (g b e : Bool) : Statement (.beginTx g b e) := fun _ _ => by
  show encode Config.defaults (.beginTx g b e) < 2 ^ 7
  clear * -
  revert g b e; decide
theorem spinp (t z b e : Bool) : Statement (.spinp t z b e) := fun _ _ => by
  show encode Config.defaults (.spinp t z b e) < 2 ^ 7
  clear * -
  revert t z b e; decide
theorem rise (t z b e : Bool) : Statement (.rise t z b e) := fun _ _ => by
  show encode Config.defaults (.rise t z b e) < 2 ^ 7
  clear * -
  revert t z b e; decide
theorem spinh (t z b e : Bool) : Statement (.spinh t z b e) := fun _ _ => by
  show encode Config.defaults (.spinh t z b e) < 2 ^ 7
  clear * -
  revert t z b e; decide
theorem fallBit (t z e : Bool) : Statement (.fallBit t z e) := fun _ _ => by
  show encode Config.defaults (.fallBit t z e) < 2 ^ 7
  clear * -
  revert t z e; decide
theorem fallByte (t z : Bool) : Statement (.fallByte t z) := fun _ _ => by
  show encode Config.defaults (.fallByte t z) < 2 ^ 7
  clear * -
  revert t z; decide
theorem fallEnd (t z : Bool) : Statement (.fallEnd t z) := fun _ _ => by
  show encode Config.defaults (.fallEnd t z) < 2 ^ 7
  clear * -
  revert t z; decide

theorem setHigh (m : PinMask) : Statement (.setHigh m) := fun _ _ => by
  have hm := m.isLt
  show 2 ^ 16 + m.toNat < 2 ^ 17
  omega

theorem setLow (m : PinMask) : Statement (.setLow m) := fun _ _ => by
  have hm := m.isLt
  show m.toNat < 2 ^ 17
  omega

theorem readCycles (v : Ticks) : Statement (.readCycles v) := fun _ _ => v.isLt
theorem calibrate (m : BitVec 8) : Statement (.calibrate m) := fun _ _ => m.isLt
theorem freq80 : Statement .freq80 := fun _ _ => show 0x50 < 2 ^ 8 by decide
theorem freq160 : Statement .freq160 := fun _ _ => show 0xA0 < 2 ^ 8 by decide
theorem t0 : Statement .t0 := fun _ _ => show 0 < 2 ^ 1 by decide
theorem t1 : Statement .t1 := fun _ _ => show 1 < 2 ^ 1 by decide
theorem stateIdle : Statement .stateIdle := fun _ _ => show 0 < 2 ^ 2 by decide
theorem stateWaitp : Statement .stateWaitp := fun _ _ => show 1 < 2 ^ 2 by decide
theorem stateWaith : Statement .stateWaith := fun _ _ => show 2 < 2 ^ 2 by decide

end Sys2Proof.Laws.EncodeWidth
end

