-- ==== Sys2Proof/Laws/Run.lean ====
section
/-! SUPPORT. Runs of several steps, and everything one step can be: an inversion lemma that proofs cite instead of unfolding
the step. -/

namespace Sys2Proof.Machine

@[simp] theorem run_zero (s : State) : run 0 s = .next s := rfl

/-- A run whose first step gives `u` goes on from `u`. -/
theorem run_next {s u : State} (n : Nat) (h : step s = .next u) : run (n + 1) s = run n u := by
  have key : ∀ (M : Host.Core) (x y : M.State), M.step x = .next y → M.run (n + 1) x = M.run n y := by
    intro M x y hxy
    simp only [Host.Core.run, hxy]
  exact key Sys2Proof.core s u h

/-- The first step of a run that does not stop. -/
theorem run_succ_next {s v : State} {n : Nat} (h : run (n + 1) s = .next v) : ∃ u, step s = .next u ∧ run n u = .next v := by
  cases hs : step s with
  | next u => exact ⟨u, rfl, by rw [← run_next n hs]; exact h⟩
  | fault r => cases r
  | refused r =>
    exfalso
    have key : ∀ (M : Host.Core) (x : M.State) (q : M.Refusal), M.step x = .refused q → M.run (n + 1) x = .refused q := by
      intro M x q hx
      simp only [Host.Core.run, hx]
    have := (key Sys2Proof.core s r hs).symm.trans h
    cases this

/-- Two runs in a row. -/
theorem run_add {s u v : State} {m n : Nat} (h : run m s = .next u) (h' : run n u = .next v) :
    run (m + n) s = .next v := by
  induction m generalizing s with
  | zero => cases h; simpa using h'
  | succ m ih =>
    obtain ⟨x, hx, hr⟩ := run_succ_next h
    rw [Nat.succ_add, run_next _ hx]
    exact ih hr

/-- Everything one step can be, with `s'` the state whose first input is taken: a clock edge, a word from outside, one of the
host's other inputs, or an input that is only dropped (a finished wait, `GAP 0`). -/
inductive StepNext (s t : State) : Prop where
  | edge (rest : List Input) (h : Machine.edge { s with inputs := rest } = .next t)
  | word (f : Format) (w : Nat) (rest : List Input) (i : s.inputs = .word f w :: rest)
      (h : runWord f w { s with inputs := rest } = .next t)
  | drive (p : Ports) (rest : List Input) (i : s.inputs = .drive p :: rest)
      (h : inputDrive p { s with inputs := rest } = .next t)
  | cc (v : Ticks) (rest : List Input) (i : s.inputs = .cc v :: rest)
      (h : inputCc v { s with inputs := rest } = .next t)
  | freq (m : BitVec 8) (rest : List Input) (i : s.inputs = .freq m :: rest)
      (h : inputFreq m { s with inputs := rest } = .next t)
  | level (p : PinId) (v : Bool) (rest : List Input) (i : s.inputs = .level p v :: rest)
      (h : inputLevel p v { s with inputs := rest } = .next t)
  | buf (a : Nat) (bytes : List Byte) (rest : List Input) (i : s.inputs = .buf a bytes :: rest)
      (h : inputBuf a bytes { s with inputs := rest } = .next t)
  | lock (rest : List Input) (i : s.inputs = .lock :: rest) (h : inputLock { s with inputs := rest } = .next t)
  | unlock (rest : List Input) (i : s.inputs = .unlock :: rest) (h : inputUnlock { s with inputs := rest } = .next t)
  | interrupt (rest : List Input) (i : s.inputs = .interrupt :: rest)
      (h : inputInterrupt { s with inputs := rest } = .next t)
  | dropped (x : Input) (rest : List Input) (i : s.inputs = x :: rest) (hx : ∀ f w, x ≠ .word f w)
      (h : t = { s with inputs := rest })

theorem step_cases {s t : State} (h : step s = .next t) : StepNext s t := by
  unfold step cycle at h
  split at h <;> rename_i hi
  · exact .edge s.inputs h
  · exact .word _ _ _ hi h
  · exact .drive _ _ hi h
  · exact .cc _ _ hi h
  · exact .freq _ _ hi h
  · exact .level _ _ _ hi h
  · exact .buf _ _ _ hi h
  · exact .lock _ hi h
  · exact .unlock _ hi h
  · exact .interrupt _ hi h
  · split at h
    · cases h
      exact .dropped _ _ hi (by simp) rfl
    · split at h
      · exact .edge _ h
      · exact .edge _ h
  · split at h
    · exact .edge s.inputs h
    · cases h
      exact .dropped _ _ hi (by simp) rfl

/-- With no input left a step is a clock edge. -/
theorem step_no_inputs {s : State} (hi : s.inputs = []) : step s = edge s := by
  unfold step cycle
  rw [hi]

end Sys2Proof.Machine
end

