-- ==== Sys2Proof/Tests/Slice0.lean ====
section
/-! SUPPORT. Tests: the syntax check refuses ill-formed terms; words written out from spec/30_encoding.md decode to their
instructions; one step or one instruction on a small state against spec/95_test_vectors.md; and, for every statement
with hypotheses, a state and operands that meet them. -/

namespace Sys2Proof.Tests

open Sys2Proof.Machine

/-- The default parameters (R13). -/
abbrev std : Params := Config.defaults

/-- The next state of an outcome, if it is one. -/
def after (o : Host.Outcome State Fault Refusal) : Option State :=
  match o with
  | .next t => some t
  | _ => none

/-- The refusal of an outcome, if it is one. -/
def refusal (o : Host.Outcome State Fault Refusal) : Option Refusal :=
  match o with
  | .refused r => some r
  | _ => none

/-- An idle block with the command `{2, 0x1000, n}` on its ports (spec/95_test_vectors.md V42-B): `start` is `t`, the clock
code `m`, the counter at `c`. -/
def idle (t : Bool) (n : Nat) (m : BitVec 8) (c : Ticks) : State :=
  { State.reset with
    ports := { rst := false, start := t, pinIn := 2, baseIn := 0x1000, lenIn := n, cpuMhz := m }
    cc := c
    mem := [(0x1000, 0x80), (0x1001, 0x3C)] }

/-- A transmission of the byte `0x80` on pin 2 at 80 MHz, waiting for the period: `START` is `x`, the mask `m`, the counter at
`c`. -/
def waitp (x c : Ticks) (m : Byte) : State :=
  { idle false 1 0x50 c with fsm := .waitp, pin := 2, base := 0x1000, len := 1, cur := 0x80, mask := m, idx := 1, startTime := x }

/-- The same, `n` bytes long, with the pin high since `x`. -/
def waith (x c : Ticks) (m : Byte) (n : Nat) : State :=
  { waitp x c m with fsm := .waith, len := n, lvl := 4, trace := [⟨.set, 4, x⟩] }

/-! ### The syntax check -/

theorem test_maskOneHot_refuses_two_pins : (Instr.setHigh 3).wellFormed std = false := by decide
theorem test_maskOneHot_refuses_no_pin : (Instr.setLow 0).wellFormed std = false := by decide
theorem test_codeSupported_refuses_81 : (Instr.calibrate 0x51).wellFormed std = false := by decide
theorem test_operandsFit_refuses_wide_operands :
    (Instr.transmit 2 0x100000000 1).wellFormed std = false ∧
      (Instr.transmit 2 0x1000 1).wellFormed { addrW := 12 } = false ∧
      (Instr.transmit 2 0xFFF 256).wellFormed { addrW := 12, lenW := 8 } = false := by decide
theorem test_wellFormed_accepts :
    (Instr.setHigh 0x8000).wellFormed std = true ∧ (Instr.setLow 1).wellFormed std = true ∧
      (Instr.calibrate 0xA0).wellFormed std = true ∧ (Instr.transmit 2 0xFFFFFFFF 0xFFFFFFFF).wellFormed std = true := by decide

/-! ### Words written out from the spec -/

/-- R71 and V40-A: pin, base, length. -/
theorem test_decode_transmit : decode std .cmd 0xF0000002000000002 = .ok (.transmit 15 0x20 2) := by decide

/-- R71 at `ADDR_W` = 12 and `LEN_W` = 8: a word of 24 bits. -/
theorem test_decode_transmit_narrow :
    decode { addrW := 12, lenW := 8 } .cmd 0xFABC02 = .ok (.transmit 15 0xABC 2) ∧
    decode { addrW := 12, lenW := 8 } .cmd 0x1000000 = .rejected .tooWide := by decide

/-- R73, patterns in `IDLE`. -/
theorem test_decode_idle_operations :
    decode std .step 0b0001111 = .ok (.nopIdle true true true true) ∧
    decode std .step 0b0011000 = .ok (.return0 false false false) ∧
    decode std .step 0b0010111 = .ok (.beginTx true true true) := by decide

/-- R73, patterns in `WAITP`. -/
theorem test_decode_waitp_operations :
    decode std .step 0b0111011 = .ok (.spinp true true true true) ∧
    decode std .step 0b0101100 = .ok (.rise false true false false) := by decide

/-- R73, patterns in `WAITH`. -/
theorem test_decode_waith_operations :
    decode std .step 0b1011011 = .ok (.spinh true true true true) ∧
    decode std .step 0b1011101 = .ok (.fallBit true true true) ∧
    decode std .step 0b1000110 = .ok (.fallByte false false) ∧
    decode std .step 0b1001111 = .ok (.fallEnd false true) := by decide

/-- R75 and V43-A. -/
theorem test_decode_gpio_words :
    decode std .gpw 0b10000000000000100 = .ok (.setHigh 4) ∧
    decode std .gpw 0b01000000000000000 = .ok (.setLow 0x8000) := by decide

/-- R76, R78, R105. -/
theorem test_decode_codes :
    decode std .frq 0b01010000 = .ok .freq80 ∧ decode std .frq 0b10100000 = .ok .freq160 ∧
    decode std .cal 0b10100000 = .ok (.calibrate 0xA0) ∧
    decode std .ctr 0xFFFFFFFE = .ok (.readCycles 0xFFFFFFFE) := by decide

/-- R74, R77. -/
theorem test_decode_symbols_and_states :
    decode std .sym 0 = .ok .t0 ∧ decode std .sym 1 = .ok .t1 ∧ decode std .fsm 0 = .ok .stateIdle ∧
    decode std .fsm 1 = .ok .stateWaitp ∧ decode std .fsm 2 = .ok .stateWaith := by decide

/-- R81: the reserved words. -/
theorem test_decode_reserved :
    decode std .step 0x60 = .rejected .reservedState ∧ decode std .step 0x7F = .rejected .reservedState ∧
    decode std .fsm 3 = .rejected .reservedState ∧ decode std .frq 0x51 = .rejected .reservedClock ∧
    decode std .step 0x80 = .rejected .tooWide := by decide

/-! ### One step each, from V42-B -/

theorem test_nopIdle : (after (step (idle false 1 0x50 5))).map (fun t => (t.fsm, t.pin, t.done)) = some (.idle, 0, false) := by
  decide

theorem test_return0 :
    (after (step (idle true 0 0x00 77))).map (fun t => (t.fsm, t.pin, t.done)) = some (.idle, 0, true) := by decide

theorem test_beginTx :
    (after (step (idle true 1 0x50 1000))).map
      (fun t => (t.fsm, t.pin, t.base, t.len, t.thPeriod)) = some (.waitp, 2, 0x1000, 1, 100) ∧
    (after (step (idle true 1 0x50 1000))).map (fun t => (t.startTime, t.cur, t.idx, t.mask)) =
      some (0, 0x80, 1, 0x80) := by decide

theorem test_beginTx_reserved_clock : refusal (step (idle true 1 0x51 1000)) = some .unsupportedClock := by decide

/-- R30: the last byte of a 12-bit address space, and one past it. -/
theorem test_beginTx_narrow :
    refusal (step { idle true 2 0x50 9 with
      params := { addrW := 12 }
      ports := { (idle true 2 0x50 9).ports with baseIn := 0xFFF } }) = some .bufferWraps ∧
    (after (step { idle true 1 0x50 9 with
      params := { addrW := 12 }
      ports := { (idle true 1 0x50 9).ports with baseIn := 0xFFF }
      mem := [(0xFFF, 1)] })).map (·.base) = some 0xFFF := by decide

theorem test_spinp : (after (step (waitp 1001 1100 0x40))).map (fun t => (t.fsm, t.gpio)) = some (.waitp, none) := by decide

theorem test_rise :
    (after (step (waitp 1001 1101 0x40))).map (fun t => (t.fsm, t.startTime, t.gpio)) =
      some (.waith, 1101, some ⟨.set, 4⟩) := by decide

/-- V42-C: an unsigned comparison. -/
theorem test_rise_unsigned : (after (step (waitp 0 0x80000000 0x80))).map (·.fsm) = some .waith := by decide

theorem test_spinh : (after (step (waith 1101 1124 0x40 1))).map (fun t => (t.fsm, t.gpio)) = some (.waith, none) := by decide

/-- The first bit of `0x80` is 1: 24 ticks are not enough. -/
theorem test_spinh_long : (after (step (waith 1001 1025 0x80 1))).map (·.fsm) = some .waith := by decide

theorem test_fallBit :
    (after (step (waith 1001 1049 0x80 1))).map (fun t => (t.fsm, t.mask, t.startTime, t.lvl, t.gpio)) =
      some (.waitp, 0x40, 1001, 0, some ⟨.clr, 4⟩) := by decide

/-- R128's example: `Mem[0x1001] = 0x3C`. -/
theorem test_fallByte :
    (after (step (waith 1701 1725 0x01 2))).map (fun t => (t.fsm, t.cur, t.idx, t.mask, t.memRead)) =
      some (.waitp, 0x3C, 2, 0x80, some ⟨0x1001, 0x3C⟩) := by decide

theorem test_fallEnd :
    (after (step (waith 1701 1725 0x01 1))).map (fun t => (t.fsm, t.mask, t.done, t.lvl)) = some (.idle, 0, true, 0) := by
  decide

/-- V42-C: the comparator across the wrap. -/
theorem test_elapsed_across_wrap : (elapsed (clockEdge (waith 0xFFFFFFF0 0x00000008 0x40 1))).toNat = 24 := by decide

/-- V70: reset has priority over the fall that is due; the pin stays high. -/
theorem test_reset_wins :
    (after (step { waith 1001 1049 0x80 1 with ports := { State.reset.ports with rst := true } })).map
      (fun t => (t.fsm, t.lvl, t.gpio)) = some (.idle, 4, none) := by decide

/-! ### The other instructions -/

/-- V60: a zero-length command with a reserved clock code. -/
theorem test_transmit_zero :
    (after (exec (.transmit 5 0 0) (idle false 1 0x51 77))).map (fun t => (t.fsm, t.done, t.c)) = some (.idle, true, 77) := by
  decide

/-- V60: `TX 0, 0xFFFFFFFF, 2`. -/
theorem test_transmit_wraps :
    refusal (exec (.transmit 0 0xFFFFFFFF 2) (idle false 1 0x50 0)) = some .bufferWraps := by decide

/-- V43-B. -/
theorem test_setHigh :
    (after (exec (.setHigh 0x0004) { State.reset with lvl := 0x0100 })).map (·.lvl) = some 0x0104 := by decide

/-- V43-B. -/
theorem test_setLow :
    (after (exec (.setLow 0x8000) { State.reset with lvl := 0xFFFF })).map (·.lvl) = some 0x7FFF := by decide

/-- R81, R55: a mask that is not one-hot, and the pin of a transmission. -/
theorem test_gpio_refusals :
    refusal (exec (.setHigh 0x0003) State.reset) = some .reservedEncoding ∧
    refusal (exec (.setLow 0x0000) State.reset) = some .reservedEncoding ∧
    refusal (exec (.setLow 0x0004) (waitp 0 0 0x80)) = some .pinShared := by decide

theorem test_readCycles :
    (after (exec (.readCycles 0xFFFFFFFE) State.reset)).map (fun t => (t.cycles, t.cc)) =
      some (0xFFFFFFFE, 0xFFFFFFFE) := by decide

/-- R189: a second word behind the first, while the block is busy. -/
theorem test_readCycles_backwards :
    (after (exec (.readCycles 1050) { waitp 1001 1010 0x40 with c := 1009 })).map (·.cc) = some 1050 ∧
    ((after (exec (.readCycles 1050) { waitp 1001 1010 0x40 with c := 1009 })).bind fun t => refusal (exec (.readCycles 1045) t)) =
      some .counterBackwards := by decide

/-- V43-D. -/
theorem test_frequency_codes :
    (after (exec .freq80 State.reset)).map (·.ports.cpuMhz) = cpuMhzOfHz 80000000 ∧
    (after (exec .freq160 State.reset)).map (·.ports.cpuMhz) = cpuMhzOfHz 160000000 ∧
    cpuMhzOfHz 80000000 = some 0x50 ∧ cpuMhzOfHz 160000000 = some 0xA0 := by decide

/-- U23: a reserved code goes on the port and harms nothing outside BEGIN. -/
theorem test_reserved_code_on_port :
    (after (step { waitp 1001 1100 0x40 with inputs := [.word .frq 0x51] })).map
      (fun t => (t.ports.cpuMhz, t.thPeriod, t.fsm)) = some (0x51, 100, .waitp) := by decide

/-- V41-A, in a busy block, whose registers stand (R22). -/
theorem test_calibrate :
    (after (exec (.calibrate 0xA0) (waitp 1001 1100 0x40))).map (fun t => (t.calResult, t.thPeriod)) =
      some (⟨48, 96, 200⟩, 100) := by decide

theorem test_calibrate_reserved : refusal (exec (.calibrate 0x9F) State.reset) = some .unsupportedClock := by decide

/-- V44-B at 80 MHz: `H@r L@r+24`, next `H@r+100`. -/
theorem test_t0 :
    (after (exec .t0 (idle false 1 0x50 1101))).map (fun t => (t.trace, t.cc)) =
      some ([⟨.clr, 4, 1125⟩, ⟨.set, 4, 1101⟩], 1201) := by decide

/-- V44-B at 160 MHz: `H@r L@r+96`. -/
theorem test_t1 :
    (after (exec .t1 (idle false 1 0xA0 1001))).map (fun t => (t.trace, t.cc)) =
      some ([⟨.clr, 4, 1097⟩, ⟨.set, 4, 1001⟩], 1201) := by decide

theorem test_state_codes :
    (after (exec .stateIdle { State.reset with stepSel := 0x5F })).map (·.stepSel) = some 0x1F ∧
    (after (exec .stateWaitp { State.reset with stepSel := 0x1F })).map (·.stepSel) = some 0x3F ∧
    (after (exec .stateWaith { State.reset with stepSel := 0x00 })).map (·.stepSel) = some 0x40 := by decide

/-- V44-A, at the edges of both windows. -/
theorem test_classify :
    (classify 15 80, classify 16 80, classify 40 80, classify 41 80) = (.invalid, .zero, .zero, .invalid) ∧
    (classify 43 80, classify 44 80, classify 68 80, classify 69 80) = (.invalid, .one, .one, .invalid) ∧
    (classify 48 80, classify 48 160) = (.one, .zero) := by decide

/-- V44-D, the trace of P1: before the first rise, in a high time, in a low time, at both edges. -/
theorem test_levelAt :
    [1000, 1001, 1048, 1049, 1100, 1101, 1125].map
      (levelAt 2 false 1000 [⟨.clr, 4, 1125⟩, ⟨.set, 4, 1101⟩, ⟨.clr, 4, 1049⟩, ⟨.set, 4, 1001⟩]) =
      [false, true, true, false, false, true, false] := by decide

/-- R84: the next command samples the value of `CC`, after a `GAP` too. -/
theorem test_cc :
    (after (run 5 { idle false 1 0x50 7 with
      inputs := [.cc 1000, .gap 3, .word .cmd (encode std (.transmit 2 0x1000 1))] })).map
      (fun t => (t.c, t.cc, t.ccNext, t.fsm)) = some (1000, 1001, none, .waitp) := by decide

/-- D23: exactly `LATCH_US * cpu_mhz` = 4000 ticks are no gap, one more are (V43-F). -/
theorem test_latchGap :
    latchGapMet { idle true 1 0x50 9 with now := 4005, fellAt := List.replicate 16 (some 5) } 2 = false ∧
    latchGapMet { idle true 1 0x50 9 with now := 4006, fellAt := List.replicate 16 (some 5) } 2 = true := by decide

/-- A word placed for the next step runs there. -/
theorem test_withFetchWord :
    (after (step (State.reset.withFetchWord 17 0x10004))).map (·.lvl) = some 4 ∧
    (after (step (State.reset.withFetchWord 7 0x47))).map (·.done) = some true ∧
    (after (step (State.reset.withFetchWord 68 0x20000100000000000))).map (·.done) = some true := by decide

/-- R171, R222: 4001 ticks at 80 MHz are a gap, a change to 160 MHz after them or not; 4001 at 160 MHz are none. -/
theorem test_latchGap_clockChange :
    ((after (step { State.powerUp with now := 4001, inputs := [.freq 160] })).map fun t => latchGapMet t 2) =
      some true ∧
    ((after (step { State.powerUp with now := 4001, clkMhz := 160, inputs := [.freq 80] })).map fun t =>
      latchGapMet t 2) = some false := by decide

/-! ### Witnesses: hypotheses that can be met together -/

theorem inv_waitp : Inv (waitp 1001 1100 0x40) := by
  constructor <;> first | decide | (unfold LegalThresholds; decide)

theorem inv_waith : Inv (waith 1001 1049 0x80 1) := by
  constructor <;> first | decide | (unfold LegalThresholds; decide)

theorem inv_waith_two_bytes : Inv (waith 1701 1725 0x01 2) := by
  constructor <;> first | decide | (unfold LegalThresholds; decide)

theorem inv_idle : Inv (idle true 3 0x50 1000) := by
  constructor <;> first | decide | (unfold LegalThresholds; decide)

theorem ready_80 : TxReady 2 0x1000 2 (clockEdge (idle true 2 0x50 1000)) := by
  constructor <;> decide

theorem ready_160 : TxReady 2 0x1000 1 (clockEdge (idle true 1 0xA0 1000)) := by
  constructor <;> decide

/-- The last byte of the address space is a buffer that does not wrap (V40-A). -/
theorem ready_at_top : TxReady 0 0xFFFFFFFF 1 (clockEdge { State.reset with mem := [(0xFFFFFFFF, 1)] }) := by
  constructor <;> decide

theorem witness_DecodeOfEncodeIsIdentity :
    (Instr.transmit 15 0xFFFFFFFF 0xFFFFFFFF).operandsFit std = true ∧
    (Instr.transmit 15 0xFFF 0xFF).operandsFit { addrW := 12, lenW := 8 } = true ∧
    (Instr.fallEnd true true).operandsFit std = true := by decide

theorem witness_EncodeOfDecodeIsIdentity : decode std .step 0x17 = .ok (.beginTx true true true) := by decide

theorem witness_DecoderFollowsOpcodeTable :
    0x5F < 2 ^ Format.step.width std ∧ decode std .step 0x5F = .ok (.fallEnd true true) ∧
    0x7F < 2 ^ Format.step.width std ∧ decode std .step 0x7F = .rejected .reservedState := by decide

/-- One state for each clause: no input, a word, a reserved clock code, another word that is none, a `STEP` word. -/
theorem witness_StepRunsDecodedInstruction :
    (State.reset.inputs = [] ∧ State.reset.ports.rst = false) ∧
    (Format.gpw ≠ Format.step ∧ decode std .gpw 0x10004 = .ok (.setHigh 4)) ∧
    (Format.frq ≠ Format.step ∧ decode std .frq 0x51 = .rejected .reservedClock) ∧
    (Format.fsm ≠ Format.step ∧ decode std .fsm 3 = .rejected .reservedState ∧
      DecodeError.reservedState ≠ .reservedClock) ∧
    refusal (step { State.reset with inputs := [.word .step 0] }) = some .engineWord := by decide

/-- Each state of the step's case distinction, with no input and `rst` low. -/
theorem witness_DecodeTableIsStepAlgorithm :
    [idle false 1 0x50 5, idle true 0 0x50 5, idle true 1 0x50 5, waitp 1001 1100 0x40, waitp 1001 1101 0x40,
      waith 1101 1124 0x40 1, waith 1001 1049 0x80 1, waith 1701 1725 0x01 2, waith 1701 1725 0x01 1].all
      (fun s => s.inputs == [] && !s.ports.rst) = true := by decide

theorem witness_ResetEdge :
    ({ waith 1001 1049 0x80 1 with ports := { State.reset.ports with rst := true } } : State).inputs = [] ∧
    (idle true 1 0x50 1000).inputs = [] ∧ (idle true 1 0x50 1000).ports.rst = false ∧
    (idle true 1 0x50 1000).fsm = .idle := by decide

theorem witness_InvariantKeptByEveryStep :
    Inv (waith 1701 1725 0x01 2) ∧ (after (step (waith 1701 1725 0x01 2))).isSome = true :=
  ⟨inv_waith_two_bytes, by decide⟩

theorem witness_BusyEngineAlwaysAdvances :
    Inv (waith 1701 1725 0x01 2) ∧ busy (waith 1701 1725 0x01 2) = true ∧ (waith 1701 1725 0x01 2).inputs = [] :=
  ⟨inv_waith_two_bytes, by decide, by decide⟩

/-- A command of three bytes, two of them stored, is refused; an edge of a busy block is not. -/
theorem witness_EdgeRefusesOnlyBadCommands :
    Inv (idle true 3 0x50 1000) ∧ (idle true 3 0x50 1000).inputs = [] ∧ (idle true 3 0x50 1000).fsm = .idle ∧
    (idle true 3 0x50 1000).ports.start = true ∧ (idle true 3 0x50 1000).ports.lenIn ≠ 0 ∧
    ¬ TxReady 2 0x1000 3 (clockEdge (idle true 3 0x50 1000)) ∧
    refusal (step (idle true 3 0x50 1000)) = some .bufferInvalid ∧
    refusal (step (waith 1701 1725 0x01 2)) = none :=
  ⟨inv_idle, by decide, by decide, by decide, by decide, fun h => absurd (h.buffer 2 (by decide)) (by decide), by decide,
    by decide⟩

theorem witness_Return0OnlyRaisesDone :
    (idle true 0 0x51 77).inputs = [] ∧ (idle true 0 0x51 77).ports.rst = false ∧ (idle true 0 0x51 77).fsm = .idle ∧
    (idle true 0 0x51 77).ports.start = true ∧ (idle true 0 0x51 77).ports.lenIn = 0 := by decide

theorem witness_BeginLatchesCommand :
    (clockEdge (idle true 2 0x50 1000)).ports.lenIn ≠ 0 ∧
    TxReady (clockEdge (idle true 2 0x50 1000)).ports.pinIn (clockEdge (idle true 2 0x50 1000)).ports.baseIn
      (clockEdge (idle true 2 0x50 1000)).ports.lenIn (clockEdge (idle true 2 0x50 1000)) :=
  ⟨by decide, ready_80⟩

/-- One state for each clause: pin, wrap, buffer, clock, level, gap. -/
theorem witness_BeginRefusesViolatedPreconditions :
    refusal (exec (.beginTx false false false) { idle true 1 0x50 9 with pinOut := 0xFFFB }) = some .pinNotOutput ∧
    refusal (exec (.beginTx false false false) (idle true 0xFFFFF001 0x50 9)) = some .bufferWraps ∧
    refusal (exec (.beginTx false false false) (idle true 3 0x50 9)) = some .bufferInvalid ∧
    refusal (exec (.beginTx false false false) (idle true 2 0x4F 9)) = some .unsupportedClock ∧
    refusal (exec (.beginTx false false false) { idle true 2 0x50 9 with lvl := 4 }) = some .pinNotLow ∧
    refusal (exec (.beginTx false false false)
      { idle true 2 0x50 9 with now := 4000, fellAt := List.replicate 16 (some 0) }) = some .noLatchGap := by decide

theorem witness_FallByteFetchesNext :
    Memory.read (waith 1701 1725 0x01 2).mem
      (((waith 1701 1725 0x01 2).base + (waith 1701 1725 0x01 2).idx) % 2 ^ (waith 1701 1725 0x01 2).params.addrW) =
      some 0x3C ∧
    refusal (exec (.fallByte false false) { waith 1701 1725 0x01 2 with mem := [] }) = some .bufferInvalid := by decide

theorem witness_GpioWordsDrivePin :
    refusal (exec (.setHigh (gpioMask 2)) (waitp 0 0 0x80)) = some .pinShared ∧
    (after (exec (.setLow (gpioMask 15)) (waitp 0 0 0x80))).isSome = true ∧
    (after (exec (.setHigh (gpioMask 0)) State.reset)).isSome = true ∧
    ((3 : PinMask) ≠ gpioMask 0 ∧ ∀ p : PinId, (3 : PinMask) ≠ gpioMask p) := by decide

/-- Each clause at its boundary: the greatest step ahead, the same sample, the least step that counts as backwards (both with
`START` the constant of BEGIN), and 2^32 ticks past `START`, one tick fewer being taken. -/
theorem witness_ReadCyclesReturnsCounter :
    (after (exec (.readCycles 0xFFFFFF9B) (waitp 0 0 0x80))).map (·.cc) = some 0xFFFFFF9B ∧
    refusal (exec (.readCycles 0) (waitp 0 0 0x80)) = some .counterStopped ∧
    refusal (exec (.readCycles 0xFFFFFF9C) (waitp 0 0 0x80)) = some .counterBackwards ∧
    (after (exec (.readCycles 999) { waitp 1000 1200 0x40 with c := 1199 })).map (·.cc) = some 999 ∧
    refusal (exec (.readCycles 1000) { waitp 1000 1200 0x40 with c := 1199 }) = some .interrupted := by decide

/-- The same in WAITH at stride 150, `START` = `c` = 1150: the edge after the fall is compared too, so 150 ticks fewer; after a
FALL_END none is. -/
theorem witness_ReadCyclesReturnsCounter_waith :
    (after (exec (.readCycles 999) { waith 1150 1300 0x40 1 with c := 1150, params := { ccStride := 150 } })).map (·.cc) =
      some 999 ∧
    refusal (exec (.readCycles 1000) { waith 1150 1300 0x40 1 with c := 1150, params := { ccStride := 150 } }) =
      some .interrupted ∧
    refusal (exec (.readCycles 1049) { waith 1150 1300 0x40 1 with c := 1150, params := { ccStride := 150 } }) =
      some .interrupted ∧
    (after (exec (.readCycles 1049) { waith 1150 1300 0x01 1 with c := 1150, params := { ccStride := 150 } })).map (·.cc) =
      some 1049 := by decide

theorem witness_ThresholdsWithinWindows : calibrate 160 = some ⟨48, 96, 200⟩ := by decide

theorem witness_PulsesClassifyAsTheirBits : calibrate 80 = some ⟨24, 48, 100⟩ := by decide

/-- One state for each clause: reset, the busy pin, another pin of a busy block, no output, no clock, high, and the pulse. -/
theorem witness_SymbolsArePulses :
    (after (exec .t0 { waitp 1001 1100 0x40 with ports := { State.reset.ports with rst := true } })).map (·.fsm) =
      some .idle ∧
    refusal (exec .t1 (waitp 1001 1100 0x40)) = some .pinShared ∧
    refusal (exec .t1 { waitp 1001 1100 0x40 with ports := State.reset.ports }) = some .interrupted ∧
    refusal (exec .t0 { idle false 1 0x50 9 with pinOut := 0xFFFB }) = some .pinNotOutput ∧
    refusal (exec .t0 (idle false 1 0x51 9)) = some .unsupportedClock ∧
    refusal (exec .t0 { idle false 1 0x50 9 with lvl := 4 }) = some .pinNotLow ∧
    (after (exec .t0 (idle false 1 0x50 9))).isSome = true ∧ 0 < (idle false 1 0x50 9).params.ccStride := by decide

theorem witness_TransmitZeroLengthReturnsAtOnce :
    (idle false 1 0x51 77).fsm = .idle ∧ (idle false 1 0x51 77).ports.rst = false ∧
    0xFFFFFFFF < 2 ^ (idle false 1 0x51 77).params.addrW := by decide

theorem witness_TransmitIsAccepted :
    (idle true 2 0x50 1000).fsm = .idle ∧ (idle true 2 0x50 1000).ports.rst = false ∧ (2 : Nat) ≠ 0 ∧
    0x1000 < 2 ^ (idle true 2 0x50 1000).params.addrW ∧ 2 < 2 ^ (idle true 2 0x50 1000).params.lenW ∧
    TxReady 2 0x1000 2 (clockEdge (takeSample (idle true 2 0x50 1000))) :=
  ⟨by decide, by decide, by decide, by decide, by decide, ready_80⟩

theorem witness_TransmitWhileBusyIsIgnored :
    busy (waith 1001 1049 0x80 1) = true ∧ (waith 1001 1049 0x80 1).ports.rst = false ∧
    (waith 1001 1049 0x80 1).inputs = [] ∧ 7 < 2 ^ (waith 1001 1049 0x80 1).params.addrW ∧
    9 < 2 ^ (waith 1001 1049 0x80 1).params.lenW ∧ (after (step (waith 1001 1049 0x80 1))).isSome = true := by decide

theorem witness_ResetWinsOverTransmit :
    ({ State.reset with ports := { State.reset.ports with rst := true } } : State).ports.rst = true ∧
    0x1000 < 2 ^ State.reset.params.addrW ∧ 1 < 2 ^ State.reset.params.lenW := by decide

/-- The hypotheses of the statements about a next state of an instruction, of a step, and of a clock edge. -/
theorem witness_next_states :
    (after (exec (.fallByte false false) (waith 1701 1725 0x01 2))).isSome = true ∧
    (after (step { waitp 0 0 0x80 with inputs := [.lock] })).isSome = true ∧
    busy ({ waitp 0 0 0x80 with inputs := [.lock] } : State) = true ∧
    (after (step (waith 1001 1049 0x80 1))).isSome = true := by decide

/-- One state for each row of the transition table. -/
theorem witness_TransitionTable :
    decode std .step (stepWord (clockEdge (idle false 1 0x50 5))).toNat = .ok (.nopIdle false false false true) ∧
    decode std .step (stepWord (clockEdge (idle true 0 0x50 5))).toNat = .ok (.return0 false false true) ∧
    decode std .step (stepWord (clockEdge (idle true 1 0x50 5))).toNat = .ok (.beginTx false false true) ∧
    decode std .step (stepWord (clockEdge (waitp 1001 1100 0x40))).toNat = .ok (.spinp false false false true) ∧
    decode std .step (stepWord (clockEdge (waitp 1001 1101 0x40))).toNat = .ok (.rise false false false true) := by decide

theorem witness_TransitionTable_waith :
    decode std .step (stepWord (clockEdge (waith 1101 1124 0x40 1))).toNat = .ok (.spinh false false false true) ∧
    decode std .step (stepWord (clockEdge (waith 1001 1049 0x80 1))).toNat = .ok (.fallBit false false true) ∧
    decode std .step (stepWord (clockEdge (waith 1701 1725 0x01 2))).toNat = .ok (.fallByte false false) ∧
    decode std .step (stepWord (clockEdge (waith 1701 1725 0x01 1))).toNat = .ok (.fallEnd false false) := by decide

/-- A fall that goes on to the next byte, and a turn that stands. -/
theorem witness_CursorAdvancesByOne :
    Inv (waith 1701 1725 0x01 2) ∧ (after (step (waith 1701 1725 0x01 2))).map busy = some true ∧
    Inv (waitp 1001 1100 0x40) ∧ (after (step (waitp 1001 1100 0x40))).map busy = some true :=
  ⟨inv_waith_two_bytes, by decide, inv_waitp, by decide⟩

/-- Each clause at its boundary: elapsed 99 and 100 of 100, 47 and 48 of 48. -/
theorem witness_EdgesWaitForTheirThresholds :
    (after (step (waitp 1001 1100 0x40))).map (·.fsm) = some .waitp ∧
    (after (step (waitp 1001 1101 0x40))).map (·.fsm) = some .waith ∧
    (after (step (waith 1001 1048 0x80 1))).map (·.fsm) = some .waith ∧
    (after (step (waith 1001 1049 0x80 1))).map (·.fsm) = some .waitp := by decide

theorem witness_ElapsedIsTrueTickCount :
    (24 : Nat) < 2 ^ 32 ∧ (waith 0xFFFFFFF0 8 0x40 1).cc = (waith 0xFFFFFFF0 8 0x40 1).startTime + BitVec.ofNat 32 24 := by
  decide

theorem witness_PortsIgnoredWhileBusy :
    busy (waitp 1001 1101 0x40) = true ∧ ({ State.reset.ports with start := true, pinIn := 7 } : Ports).rst = false ∧
    (after (step (waitp 1001 1101 0x40))).isSome = true := by decide

/-- Two idle states with other registers, before a command and with none. -/
theorem witness_RegistersDeadWhenIdle :
    (after (step (idle true 1 0x50 1000))).map busy = some true ∧
    (after (step { idle true 1 0x50 1000 with cur := 7, mask := 3, idx := 9, startTime := 5 })).map busy = some true ∧
    (after (step (idle false 1 0x50 1000))).map busy = some false := by decide

/-- Each clause of `BUF`: past the top, a change inside the buffer, no change inside it, outside it. -/
theorem witness_HostStoresBuffer :
    refusal (step { State.reset with inputs := [.buf 0xFFFFFFFF [1, 2]] }) = some .bufferWraps ∧
    refusal (step { waitp 0 0 0x80 with inputs := [.buf 0x1000 [0x81]] }) = some .bufferChanged ∧
    (after (step { waitp 0 0 0x80 with inputs := [.buf 0x1000 [0x80, 0x77]] })).isSome = true ∧
    (after (step { State.reset with inputs := [.buf 0xFFFFFFFF [1]] })).map (·.mem) = some [(0xFFFFFFFF, 1)] := by decide

theorem witness_CriticalSectionMasksInterrupts :
    (after (step { State.reset with inputs := [.lock, .interrupt, .unlock] })).map (·.intMasked) = some true ∧
    refusal (step { waitp 0 0 0x80 with inputs := [.interrupt] }) = some .interrupted ∧
    (after (step { State.reset with inputs := [.interrupt] })).isSome = true := by decide

theorem witness_UnlockNeedsLock :
    refusal (step { State.reset with inputs := [.unlock] }) = some .unlockUnpaired ∧
    (after (step { waitp 0 0 0x80 with maskSaved := [false], intMasked := true, inputs := [.unlock] })).map
      (fun t => (t.intMasked, t.maskSaved)) = some (false, []) := by decide

theorem witness_HostSetsPinLevel :
    refusal (step { waitp 0 0 0x80 with inputs := [.level 2 true] }) = some .pinShared ∧
    (after (step { waitp 0 0 0x80 with inputs := [.level 3 true] })).map (·.lvl) = some 8 := by decide

theorem witness_LatchGapTimedFromLastFall :
    (waith 1701 1725 0x01 1).fellAt.length = 16 ∧
    (∀ ph ∈ (waith 1701 1725 0x01 1).clockPast, ph.ended ≤ (waith 1701 1725 0x01 1).now) ∧ (waith 1701 1725 0x01 1).lvl.getLsbD 2 = true ∧
    (after (exec (.fallEnd false false) (waith 1701 1725 0x01 1))).isSome = true ∧
    (waith 1701 1725 0x01 1).clkMhz ≠ 0 ∧
    ((after (exec (.fallEnd false false) (waith 1701 1725 0x01 1))).bind fun t =>
      after (step { t with now := t.now + 4001, inputs := [.freq 160] })).isSome = true := by decide

theorem witness_HostSetsClock :
    refusal (step { waitp 0 0 0x80 with inputs := [.freq 0xA0] }) = some .clockChanged ∧
    (after (step { waitp 0 0 0x80 with inputs := [.freq 0x50] })).isSome = true ∧
    (after (step { State.reset with inputs := [.freq 0xA0] })).map (·.ports.cpuMhz) = some 0xA0 := by decide

/-- At stride 1 three edges for 3 ticks; at stride 2 three edges for 5 ticks; no edge for none. -/
theorem witness_GapLetsTicksPass :
    (0 < 3 ∧ 3 ≤ 3 * State.reset.params.ccStride ∧ (3 - 1) * State.reset.params.ccStride < 3) ∧
    (5 ≤ 3 * 2 ∧ (3 - 1) * 2 < 5) ∧
    ({ State.reset with inputs := [.gap 3] } : State).fsm = .idle ∧
    (after (run 3 { State.reset with inputs := [.gap 3] })).map (·.cc) = some 3 ∧
    (after (run 3 { State.reset with params := { ccStride := 2 }, inputs := [.gap 5] })).map (·.cc) = some 6 ∧
    (after (step { waitp 1001 1100 0x40 with inputs := [.gap 0] })).map (·.cc) = some 1100 := by decide

/-- The two clauses meet between the samples 99 and 100 (V42-F). -/
theorem witness_FirstBitWaitsForCounter :
    (waitp 0 99 0x80).startTime = 0 ∧ (waitp 0 99 0x80).cc < (waitp 0 99 0x80).thPeriod ∧
    (waitp 0 100 0x80).thPeriod ≤ (waitp 0 100 0x80).cc ∧ (waitp 0 100 0x80).inputs = [] ∧
    (waitp 0 100 0x80).params.ccStride = 1 := by decide

/-- A block that waits one more tick before its rise, and the idle twin that starts at the rise. -/
theorem witness_EngineSendsSymbolOfBit :
    Inv (waitp 1001 1100 0x40) ∧ (waitp 1001 1100 0x40).fsm = .waitp ∧ (waitp 1001 1100 0x40).inputs = [] ∧
    (waitp 1001 1100 0x40).ports.rst = false ∧ (idle false 1 0x50 1101).fsm = .idle ∧
    (idle false 1 0x50 1101).ports.pinIn = (waitp 1001 1100 0x40).pin ∧
    (idle false 1 0x50 1101).pinOut.getLsbD 2 = true ∧
    calibrate (idle false 1 0x50 1101).ports.cpuMhz = some ⟨24, 48, 100⟩ ∧
    (idle false 1 0x50 1101).cc = riseSample (waitp 1001 1100 0x40) ∧
    ({ idle false 1 0x50 1101 with now := 1 } : State).now =
      (waitp 1001 1100 0x40).now + riseWait (waitp 1001 1100 0x40) * std.ccStride :=
  ⟨inv_waitp, by decide, by decide, by decide, by decide, by decide, by decide, by decide, by decide, by decide⟩

/-- Program P1 of spec/95_test_vectors.md: `TX 2, 0x1000, 1` with the byte `0x80` at 80 MHz, accepted at sample 1000. -/
def programP1 : State := { idle false 0 0x50 1000 with inputs := [.word .cmd (encode std (.transmit 2 0x1000 1))] }

theorem inv_programP1 : Inv programP1 := by
  constructor <;> first | decide | (unfold LegalThresholds; decide)

/-- The hypotheses of TransmissionProducesExactWaveform, BufferIsReadOnceInOrder and FramesAreWellFormed. -/
theorem witness_TransmissionProducesExactWaveform :
    Presented programP1 2 0x1000 1 [0x80] ⟨24, 48, 100⟩ false ∧ 1 ≤ programP1.params.latchUs :=
  ⟨{  inv := inv_programP1, stride := by decide, input := by decide, idle := by decide, running := by decide
      positive := by decide, fits := by decide, ready := by constructor <;> decide, length := by decide
      stored := by decide, clock := by decide, lastBit := by decide }, by decide⟩

/-- R140 and V40-C: 726 steps, the first rise at 1001. -/
theorem test_transmissionSteps :
    transmissionSteps ⟨24, 48, 100⟩ 1000 8 false = 726 ∧ firstRise ⟨24, 48, 100⟩ 1000 = 1001 ∧
    transmissionSteps ⟨24, 48, 100⟩ 0xFFFFFFFF 8 true = 850 := by decide

/-- A block in its last fall with `start` held and a second command, on pin 3, on its ports. -/
def held : State :=
  { waith 1701 1725 0x01 1 with
    ports := { rst := false, start := true, pinIn := 3, baseIn := 0x1000, lenIn := 1, cpuMhz := 0x50 } }

theorem witness_HostDrivesPorts :
    (after (step { State.reset with
      inputs := [.drive { State.reset.ports with baseIn := 0x100000000 }] })).map (·.ports.baseIn) = some 0 ∧
    ((idle true 0 0x50 5).inputs = [] ∧ (idle true 0 0x50 5).fsm = .idle ∧ (idle true 0 0x50 5).ports.lenIn = 0) ∧
    (held.inputs = [] ∧ busy held = true ∧ held.ports.start = true) ∧
    ∃ t, step held = .next t ∧ t.done = true ∧ held.ports.lenIn ≠ 0 ∧
      TxReady held.ports.pinIn held.ports.baseIn held.ports.lenIn (clockEdge t) :=
  ⟨by decide, by decide, by decide, _, rfl, by decide, by decide, by constructor <;> decide⟩

theorem witness_WaitLastsUntilDone :
    (after (step { waitp 1001 1100 0x40 with inputs := [] })).isSome = true ∧
    busy ({ State.reset with inputs := [.waitDone] } : State) = false ∧
    Inv { waitp 1001 1100 0x40 with inputs := [.waitDone] } ∧
    busy ({ waitp 1001 1100 0x40 with inputs := [.waitDone] } : State) = true :=
  ⟨by decide, by decide, by constructor <;> first | decide | (unfold LegalThresholds; decide), by decide⟩

theorem witness_WaveformLevels :
    calibrate 160 = some ⟨48, 96, 200⟩ ∧ 99 + [true, false].length * (200 : Ticks).toNat < 2 ^ 32 ∧
    ([true, false] : List Bool)[1]? = some false ∧ 199 < (200 : Ticks).toNat := by decide

theorem witness_CcSetsSampleOfNextCommand :
    (after (step { State.reset with inputs := [.cc 1000] })).map (·.ccNext) = some (some 1000) ∧
    (after (step { idle false 1 0x50 5 with ccNext := some 1000 })).map (fun t => (t.c, t.ccNext)) =
      some (5, some 1000) ∧
    (after (exec (.transmit 2 0x1000 1) { idle false 1 0x50 5 with ccNext := some 1000 })).map (·.c) = some 1000 ∧
    (after (exec (.transmit 2 0x1000 1) (idle false 1 0x50 5))).map (·.c) = some 5 := by decide

/-- The two clauses meet between 4000 and 4001 ticks after power-up (V43-F). -/
theorem witness_FirstFrameNeedsGap :
    refusal (exec (.beginTx false false false) { State.powerUp with
      now := 4000, ports := (idle true 2 0x50 9).ports, mem := (idle true 2 0x50 9).mem }) = some .noLatchGap ∧
    (after (exec (.beginTx false false false) { State.powerUp with
      now := 4001, ports := (idle true 2 0x50 9).ports, mem := (idle true 2 0x50 9).mem })).map (·.fsm) =
      some .waitp := by decide

end Sys2Proof.Tests
end

section
/-! PROOFS of the family `00_scope`, first part: the encoder and the decoder agree, format by format (R70 to R78). -/

namespace Sys2Proof

/-! ### What the decoder answers for a word that fits its format -/

theorem decode_cmd {q : Params} {w : Nat} (h : w < 2 ^ Format.cmd.width q) : decode q .cmd w = decodeCmd q w := if_pos h

theorem decode_gpw {q : Params} {w : Nat} (h : w < 2 ^ Format.gpw.width q) :
    decode q .gpw w = .ok (if w.testBit 16 then .setHigh (BitVec.ofNat 16 w) else .setLow (BitVec.ofNat 16 w)) :=
  if_pos h

theorem decode_cal {q : Params} {w : Nat} (h : w < 2 ^ Format.cal.width q) :
    decode q .cal w = .ok (.calibrate (BitVec.ofNat 8 w)) := if_pos h

theorem decode_ctr {q : Params} {w : Nat} (h : w < 2 ^ Format.ctr.width q) :
    decode q .ctr w = .ok (.readCycles (BitVec.ofNat 32 w)) := if_pos h

/-! ### Decoding an encoded instruction -/

/-- A field of `n` bits below another one leaves that field standing above it. -/
theorem mul_two_pow_add_div {x y n : Nat} (h : y < 2 ^ n) : (x * 2 ^ n + y) / 2 ^ n = x := by
  rw [Nat.add_comm, Nat.add_mul_div_right _ _ (Nat.two_pow_pos n), Nat.div_eq_of_lt h, Nat.zero_add]

/-- Each field of a `CMD` word is read back, since it is smaller than the power of two that shifts the field above it
(R71). -/
theorem decodeCmd_encode {q : Params} (p : PinId) {a l : Nat} (ha : a < q.addrSpace) (hl : l < q.lenSpace) :
    decodeCmd q (encode q (.transmit p a l)) = .ok (.transmit p a l) := by
  have hword : encode q (.transmit p a l) = (p.toNat * 2 ^ q.addrW + a) * 2 ^ q.lenW + l := by
    rw [encode, Nat.pow_add, Nat.add_mul, Nat.mul_assoc]
  have hhigh : encode q (.transmit p a l) / 2 ^ q.lenW = p.toNat * 2 ^ q.addrW + a := by
    rw [hword, mul_two_pow_add_div hl]
  have hpin : encode q (.transmit p a l) / 2 ^ (q.addrW + q.lenW) = p.toNat := by
    rw [Nat.add_comm, Nat.pow_add, ← Nat.div_div_eq_div_mul, hhigh, mul_two_pow_add_div ha]
  have hbase : (p.toNat * 2 ^ q.addrW + a) % 2 ^ q.addrW = a := Nat.mul_add_mod_of_lt ha
  have hlen : encode q (.transmit p a l) % 2 ^ q.lenW = l := by
    rw [hword]; exact Nat.mul_add_mod_of_lt hl
  rw [decodeCmd, hpin, hhigh, hbase, hlen, BitVec.ofNat_toNat, BitVec.setWidth_eq]

theorem decode_encode_transmit {q : Params} {p : PinId} {a l : Nat}
    (h : (Instr.transmit p a l).operandsFit q = true) :
    decode q .cmd (encode q (.transmit p a l)) = .ok (.transmit p a l) := by
  obtain ⟨ha, hl⟩ : a < q.addrSpace ∧ l < q.lenSpace := by simpa [Instr.operandsFit] using h
  rw [decode_cmd (Laws.EncodeWidth.transmit p a l q h), decodeCmd_encode p ha hl]

/-- The mask stays below bit 16, so the carry-free sum sets that bit and it reads as SET (R75). -/
theorem decode_encode_setHigh (q : Params) (m : PinMask) :
    decode q .gpw (encode q (.setHigh m)) = .ok (.setHigh m) := by
  have hbit : (2 ^ 16 + m.toNat).testBit 16 = true := by
    rw [Nat.testBit_two_pow_add_eq, Nat.testBit_lt_two_pow m.isLt, Bool.not_false]
  have hmask : BitVec.ofNat 16 (2 ^ 16 + m.toNat) = m := by
    rw [BitVec.ofNat_add, BitVec.ofNat_toNat, BitVec.setWidth_eq]; exact BitVec.zero_add m
  rw [decode_gpw (Laws.EncodeWidth.setHigh m q rfl), encode, if_pos hbit, hmask]

/-- The mask stays below bit 16, so that bit is clear and reads as CLR (R75). -/
theorem decode_encode_setLow (q : Params) (m : PinMask) :
    decode q .gpw (encode q (.setLow m)) = .ok (.setLow m) := by
  have hbit : m.toNat.testBit 16 = false := Nat.testBit_lt_two_pow m.isLt
  rw [decode_gpw (Laws.EncodeWidth.setLow m q rfl), encode, hbit, if_neg Bool.false_ne_true, BitVec.ofNat_toNat,
    BitVec.setWidth_eq]

theorem decode_encode_readCycles (q : Params) (v : Ticks) :
    decode q .ctr (encode q (.readCycles v)) = .ok (.readCycles v) := by
  rw [decode_ctr (Laws.EncodeWidth.readCycles v q rfl), encode, BitVec.ofNat_toNat, BitVec.setWidth_eq]

theorem decode_encode_calibrate (q : Params) (m : BitVec 8) :
    decode q .cal (encode q (.calibrate m)) = .ok (.calibrate m) := by
  rw [decode_cal (Laws.EncodeWidth.calibrate m q rfl), encode, BitVec.ofNat_toNat, BitVec.setWidth_eq]

/-- Settles O1, instruction by instruction: a `STEP` word decodes to the operation its fields select (`decode_packStep`),
a word with operands by the lemma of its format, and the other words are constants. -/
theorem decodeOfEncodeIsIdentity : Obligations.DecodeOfEncodeIsIdentity := by
  intro q i h
  cases i with
  | transmit p a l => exact decode_encode_transmit h
  | nopIdle z g b e => exact Machine.decode_packStep q .idle false z g b e
  | return0 g b e => exact Machine.decode_packStep q .idle true true g b e
  | beginTx g b e => exact Machine.decode_packStep q .idle true false g b e
  | spinp t z b e => exact Machine.decode_packStep q .waitp t z false b e
  | rise t z b e => exact Machine.decode_packStep q .waitp t z true b e
  | spinh t z b e => exact Machine.decode_packStep q .waith t z false b e
  | fallBit t z e => exact Machine.decode_packStep q .waith t z true false e
  | fallByte t z => exact Machine.decode_packStep q .waith t z true true false
  | fallEnd t z => exact Machine.decode_packStep q .waith t z true true true
  | setHigh m => exact decode_encode_setHigh q m
  | setLow m => exact decode_encode_setLow q m
  | readCycles v => exact decode_encode_readCycles q v
  | calibrate m => exact decode_encode_calibrate q m
  | freq80 => rfl
  | freq160 => rfl
  | t0 => rfl
  | t1 => rfl
  | stateIdle => rfl
  | stateWaitp => rfl
  | stateWaith => rfl

end Sys2Proof
end

section
/-! PROOFS of the family `00_scope`, second part: what of the platform no instruction touches, and what no step does. -/

namespace Sys2Proof.Machine

/-- `t` has the parameters, pin directions, clock, interrupt masking and inputs of `s`: the part of the platform that no
instruction writes (R94, R182). -/
structure SamePlatform (s t : State) : Prop where
  params : t.params = s.params
  pinOut : t.pinOut = s.pinOut
  clkMhz : t.clkMhz = s.clkMhz
  clockPast : t.clockPast = s.clockPast
  intMasked : t.intMasked = s.intMasked
  maskSaved : t.maskSaved = s.maskSaved
  inputs : t.inputs = s.inputs

namespace SamePlatform

theorem refl (s : State) : SamePlatform s s := ⟨rfl, rfl, rfl, rfl, rfl, rfl, rfl⟩

theorem trans {s u t : State} (h : SamePlatform s u) (h' : SamePlatform u t) : SamePlatform s t where
  params := h'.params.trans h.params
  pinOut := h'.pinOut.trans h.pinOut
  clkMhz := h'.clkMhz.trans h.clkMhz
  clockPast := h'.clockPast.trans h.clockPast
  intMasked := h'.intMasked.trans h.intMasked
  maskSaved := h'.maskSaved.trans h.maskSaved
  inputs := h'.inputs.trans h.inputs

end SamePlatform

/-! ### The shared operations -/

theorem samePlatform_clockEdge (s : State) : SamePlatform s (clockEdge s) := by constructor <;> simp

theorem samePlatform_resetEdge (s : State) : SamePlatform s (resetEdge s) := by constructor <;> simp

theorem samePlatform_drivePort (op : GpioOp) (m : PinMask) (s : State) : SamePlatform s (drivePort op m s) := by
  constructor <;> simp

theorem samePlatform_setCpuMhz (m : BitVec 8) (s : State) : SamePlatform s (setCpuMhz m s) := by
  constructor <;> simp

theorem samePlatform_selectState (f : FsmState) (s : State) : SamePlatform s (selectState f s) := by
  constructor <;> simp

theorem samePlatform_pulse (p : PinId) (x y : Ticks) (s : State) : SamePlatform s (pulse p x y s) := by
  constructor <;> simp

theorem samePlatform_present_takeSample (p : PinId) (a l : Nat) (s : State) :
    SamePlatform s (present p a l (takeSample s)) := by
  constructor <;> simp

theorem samePlatform_dropStart (s : State) : SamePlatform s (dropStart s) := by constructor <;> simp

theorem samePlatform_done (b : Bool) (s : State) : SamePlatform s { s with done := b } := by constructor <;> rfl

theorem samePlatform_beginState (th : Thresholds) (b : Byte) (s : State) : SamePlatform s (beginState th b s) := by
  constructor <;> simp [beginState]

theorem samePlatform_riseState (s : State) : SamePlatform s (riseState s) := by constructor <;> simp [riseState]

/-- A fall, whichever of the block's registers and outputs it writes beside its GPIO write (R127 to R129). -/
theorem samePlatform_fall {f : FsmState} {m : PinMask} {cur mask : Byte} {idx : Nat} {done : Bool} {r : Option MemRead}
    {s : State} :
    SamePlatform s
      (setFsm f { gpioWrite .clr m s with cur := cur, mask := mask, idx := idx, done := done, memRead := r }) := by
  constructor <;> simp

/-! ### The engine's choice and the command -/

/-- No operation the engine can choose touches the platform's part. -/
theorem EngineNext.samePlatform {s t : State} (h : EngineNext s t) : SamePlatform s t := by
  cases h with
  | nopIdle _ _ h | spinp _ _ h | spinh _ _ h => exact h ▸ .refl s
  | return0 _ _ _ h => exact h ▸ samePlatform_done true s
  | beginTx _ _ _ _ th b _ _ h => exact h ▸ samePlatform_beginState th b s
  | rise _ _ h => exact h ▸ samePlatform_riseState s
  | fallBit _ _ _ h | fallByte _ _ _ _ _ _ h | fallEnd _ _ _ _ h => exact h ▸ samePlatform_fall

/-- Nor does a clock edge, be it the reset of R210 or one of the engine's operations. -/
theorem samePlatform_of_edgeCases {s t : State}
    (h : (s.ports.rst = true ∧ t = resetEdge s) ∨ (s.ports.rst = false ∧ EngineNext (clockEdge s) t)) :
    SamePlatform s t := by
  obtain ⟨-, rfl⟩ | ⟨-, h⟩ := h
  · exact samePlatform_resetEdge s
  · exact (samePlatform_clockEdge s).trans h.samePlatform

theorem samePlatform_of_edge {s t : State} (h : edge s = .next t) : SamePlatform s t :=
  samePlatform_of_edgeCases (edge_next h)

/-- TRANSMIT is a clock edge between the placing of its command and the drop of `start` (R98). -/
theorem samePlatform_of_transmit {p : PinId} {a l : Nat} {s t : State} (h : execTransmit p a l s = .next t) :
    SamePlatform s t := by
  obtain ⟨u, hu, rfl⟩ := mapNext_next h
  have hedge : SamePlatform (present p a l (takeSample s)) u := samePlatform_of_edgeCases (engineEdge_next hu)
  exact ((samePlatform_present_takeSample p a l s).trans hedge).trans (samePlatform_dropStart u)

theorem samePlatform_of_symbol {f : Thresholds → Ticks} {s t : State} (h : symbol f s = .next t) :
    SamePlatform s t := by
  obtain ⟨-, rfl⟩ | ⟨-, -, -, -, th, -, rfl⟩ := symbol_next h
  · exact samePlatform_resetEdge s
  · exact (samePlatform_dropStart s).trans (samePlatform_pulse ..)

theorem samePlatform_of_gpioWord {op : GpioOp} {m : PinMask} {s t : State} (h : gpioWord op m s = .next t) :
    SamePlatform s t := by
  obtain ⟨-, -, rfl⟩ := gpioWord_next h
  exact samePlatform_drivePort op m s

/-- No instruction touches the platform's part. -/
theorem samePlatform_of_exec {i : Instr} {s t : State} (h : exec i s = .next t) : SamePlatform s t := by
  cases i with
  | transmit p a l => exact samePlatform_of_transmit h
  | nopIdle _ _ _ _ | spinp _ _ _ _ | spinh _ _ _ _ => cases h; exact .refl s
  | return0 _ _ _ => cases h; exact samePlatform_done true s
  | beginTx _ _ _ =>
    obtain ⟨-, th, b, -, -, rfl⟩ := execBegin_next h
    exact samePlatform_beginState th b s
  | rise _ _ _ _ => cases h; exact samePlatform_riseState s
  | fallBit _ _ _ | fallEnd _ _ => cases h; exact samePlatform_fall
  | fallByte _ _ =>
    obtain ⟨b, -, rfl⟩ := execFallByte_next h
    exact samePlatform_fall
  | setHigh _ | setLow _ => exact samePlatform_of_gpioWord h
  | readCycles v =>
    obtain rfl := execReadCycles_next h
    constructor <;> simp
  | freq80 | freq160 => cases h; exact samePlatform_setCpuMhz _ s
  | calibrate m =>
    obtain ⟨th, -, rfl⟩ := execCalibrate_next h
    constructor <;> rfl
  | t0 | t1 => exact samePlatform_of_symbol h
  | stateIdle | stateWaitp | stateWaith => cases h; exact samePlatform_selectState _ s

/-! ### The parameters -/

theorem runWord_params {f : Format} {w : Nat} {s t : State} (h : runWord f w s = .next t) : t.params = s.params := by
  obtain ⟨-, ⟨i, -, hi⟩ | ⟨-, rfl⟩⟩ := runWord_next h
  · exact (samePlatform_of_exec hi).params
  · exact setCpuMhz_params ..

/-- The parameters stand at every step: a clock edge and a word keep them with the platform's part, and the host's other
inputs write other fields. -/
theorem step_params {s t : State} (h : step s = .next t) : t.params = s.params := by
  cases step_cases h with
  | edge _ h => exact (samePlatform_of_edge h).params
  | word _ _ rest _ h => exact runWord_params (s := { s with inputs := rest }) h
  | drive _ _ _ h | cc _ _ _ h | lock _ _ h => cases h; rfl
  | freq _ _ _ h => obtain rfl := inputFreq_next h; rfl
  | level _ _ _ _ h => obtain ⟨-, rfl⟩ := inputLevel_next h; rfl
  | buf _ _ _ _ h => obtain ⟨-, -, rfl⟩ := inputBuf_next h; rfl
  | unlock _ _ h => obtain ⟨_, _, -, rfl⟩ := inputUnlock_next h; rfl
  | interrupt _ _ h => obtain rfl := inputInterrupt_next h; rfl
  | dropped _ _ _ _ h => obtain rfl := h; rfl

/-- Settles O35: `SamePlatform` over every instruction, and the parameters over every input a step can take. -/
theorem noInstructionTouchesPlatform : Obligations.NoInstructionTouchesPlatform := by
  refine ⟨fun i s t h => ?_, fun s t h => step_params h⟩
  obtain ⟨hparams, hout, hclk, hpast, hmasked, hsaved, hinputs⟩ := samePlatform_of_exec h
  exact ⟨hparams, hout, hclk, hpast, hmasked, hsaved, hinputs⟩

end Sys2Proof.Machine
end

section
/-! PROOFS of the family `10_state`, first part: what a word from outside can do, said once, and the invariant of R41
kept by every step. -/

namespace Sys2Proof

/-- A one-hot word is a power of two. -/
theorem oneHot_iff {w : Nat} {x : BitVec w} : oneHot w x = true ↔ ∃ i < w, x = BitVec.twoPow w i := by
  simp [oneHot]

/-- Shifted right by one, a power of two other than 1 is the one before it. -/
theorem twoPow_succ_shiftRight {w i : Nat} (h : i + 1 < w) :
    BitVec.twoPow w (i + 1) >>> 1 = BitVec.twoPow w i := by
  apply BitVec.eq_of_toNat_eq
  rw [BitVec.toNat_ushiftRight, BitVec.toNat_twoPow_of_lt h, BitVec.toNat_twoPow_of_lt (by omega), Nat.pow_succ,
    Nat.shiftRight_eq_div_pow, Nat.pow_one, Nat.mul_div_cancel _ Nat.zero_lt_two]

/-- A word of another format than `STEP` is no engine operation (R70). -/
theorem format_ne_step_of_decode {q : Params} {f : Format} {w : Nat} {i : Instr} (hf : f ≠ .step)
    (h : decode q f w = .ok i) : i.format ≠ .step := by
  unfold decode at h
  split at h
  · cases f with
    | step => exact absurd rfl hf
    | cmd | cal | ctr => cases h; simp [Instr.format]
    | gpw | sym => simp only [Decoded.ok.injEq] at h; subst h; split <;> simp [Instr.format]
    | fsm =>
      simp only [decodeFsm] at h
      split at h <;> cases h <;> simp [Instr.format]
    | frq =>
      simp only [decodeFrq] at h
      split at h
      · cases h; simp [Instr.format]
      · split at h <;> cases h; simp [Instr.format]
  · cases h

end Sys2Proof

namespace Sys2Proof.Machine

/-! ### What a word from outside can do -/

/-- Everything a word from outside can do to `s`, with next state `t`. -/
inductive WordNext (s t : State) : Prop where
  | command (p : PinId) (a l : Nat) (u : State) (h : engineEdge (present p a l (takeSample s)) = .next u)
      (ht : t = dropStart u)
  | gpio (op : GpioOp) (m : PinMask) (free : busy s = false ∨ m.getLsbD s.pin.toNat = false)
      (ht : t = drivePort op m s)
  | counter (v : Ticks) (ht : t = { runOn v s with cycles := v })
  | clockCode (m : BitVec 8) (ht : t = setCpuMhz m s)
  | lookup (th : Thresholds) (ht : t = { s with calResult := th })
  | reset (rst : s.ports.rst = true) (ht : t = resetEdge s)
  | pulse (idle : busy s = false) (p : PinId) (x y : Ticks) (ht : t = Machine.pulse p x y (dropStart s))
  | stateCode (f : FsmState) (ht : t = selectState f s)

theorem wordNext_of_gpioWord {op : GpioOp} {m : PinMask} {s t : State} (h : gpioWord op m s = .next t) :
    WordNext s t := by
  obtain ⟨-, free, rfl⟩ := gpioWord_next h
  exact .gpio op m free rfl

theorem wordNext_of_symbol {high : Thresholds → Ticks} {s t : State} (h : symbol high s = .next t) : WordNext s t := by
  obtain ⟨rst, rfl⟩ | ⟨-, idle, -, -, th, -, rfl⟩ := symbol_next h
  · exact .reset rst rfl
  · exact .pulse idle _ _ _ rfl

/-- An instruction that is no engine operation does one of these things. -/
theorem wordNext_of_exec {i : Instr} {s t : State} (hi : i.format ≠ .step) (h : exec i s = .next t) :
    WordNext s t := by
  cases i with
  | transmit p a l =>
    obtain ⟨u, hu, rfl⟩ := mapNext_next h
    exact .command p a l u hu rfl
  | setHigh _ | setLow _ => exact wordNext_of_gpioWord h
  | readCycles v => exact .counter v (execReadCycles_next h)
  | freq80 | freq160 => cases h; exact .clockCode _ rfl
  | calibrate m =>
    obtain ⟨th, -, rfl⟩ := execCalibrate_next h
    exact .lookup th rfl
  | t0 | t1 => exact wordNext_of_symbol h
  | stateIdle | stateWaitp | stateWaith => cases h; exact .stateCode _ rfl
  | _ => exact absurd rfl hi

theorem runWord_cases {f : Format} {w : Nat} {s t : State} (h : runWord f w s = .next t) : WordNext s t := by
  obtain ⟨hf, ⟨i, hd, hi⟩ | ⟨-, rfl⟩⟩ := runWord_next h
  · exact wordNext_of_exec (format_ne_step_of_decode hf hd) hi
  · exact .clockCode _ rfl

/-! ### The invariant at reset -/

/-- Settles O9: the reset state is written out. -/
theorem resetStateIsIdle : Obligations.ResetStateIsIdle := ⟨rfl, rfl, rfl, rfl, rfl⟩

/-- Settles O10: both states are idle, so only the clauses on parameters, widths, memory and notes are to be checked. -/
theorem invariantAtReset : Obligations.InvariantAtReset := by
  constructor <;> refine Inv.ofIdle rfl ?_ ?_ ?_ ?_ ?_ ?_ (fun _ h => absurd h List.not_mem_nil) <;> decide

/-! ### The invariant and the operations that leave `S` alone -/

/-- A clock edge of the counter alone keeps the invariant. -/
theorem Inv.clockEdge {s : State} (h : Inv s) : Inv (clockEdge s) :=
  { h with phases := h.phases_mono rfl (Nat.le_add_right ..) }

/-- So does the placing of a command on the ports, whose operands are cut to the ports' widths (R32). -/
theorem Inv.present {s : State} (h : Inv s) (p : PinId) (a l : Nat) : Inv (present p a l s) :=
  { h with ports := Ports.fit_lt _ _ }

theorem Inv.runOn {s : State} (h : Inv s) (v : Ticks) : Inv (runOn v s) :=
  { h with phases := h.phases_mono rfl (Nat.le_add_right ..) }

theorem Inv.takeSample {s : State} (h : Inv s) : Inv (takeSample s) := by
  unfold Machine.takeSample
  split
  · split
    · exact h
    · exact { h.runOn _ with }
  · exact h

theorem Inv.dropStart {s : State} (h : Inv s) : Inv (dropStart s) := { h with }

theorem Inv.setCpuMhz {s : State} (h : Inv s) (m : BitVec 8) : Inv (setCpuMhz m s) := { h with }

theorem Inv.resetEdge {s : State} (h : Inv s) : Inv (resetEdge s) :=
  .ofIdle rfl h.params h.ports h.widths h.memory h.inside h.falls (h.phases_mono rfl (Nat.le_add_right ..))

/-- Levels may change that are not the level of a busy block's pin (R55). -/
theorem Inv.setLevels {s : State} (h : Inv s) {l : PinMask}
    (hl : busy s = true → l.getLsbD s.pin.toNat = s.lvl.getLsbD s.pin.toNat) : Inv (setLevels l s) :=
  { h with
    low := fun f => (hl (busy_eq_true.mpr (.inl f))).trans (h.low f)
    high := fun f => (hl (busy_eq_true.mpr (.inr f))).trans (h.high f)
    falls := (markFalls_length ..).trans h.falls }

/-- A write on the port whose mask leaves out a busy block's pin. -/
theorem Inv.setLevels_driveLevels {s : State} (h : Inv s) {op : GpioOp} {m : PinMask}
    (free : busy s = false ∨ m.getLsbD s.pin.toNat = false) : Inv (Machine.setLevels (driveLevels op m s.lvl) s) := by
  refine h.setLevels fun hb => ?_
  obtain hi | hm := free
  · rw [hb] at hi; cases hi
  · rw [driveLevels_getLsbD, hm, if_neg Bool.false_ne_true]

/-- The buffer's memory may change where a busy block's buffer is not (R53). -/
theorem Inv.setMemory {s : State} (h : Inv s) {m : Memory} (hw : Memory.wf m = true)
    (hi : Memory.within s.params.addrSpace m = true)
    (hr : busy s = true → ∀ i < s.len, Memory.read m (s.base + i) = Memory.read s.mem (s.base + i)) :
    Inv { s with mem := m } :=
  { h with
    memory := hw
    inside := hi
    buffer := fun hb i hl => by rw [hr hb i hl]; exact h.buffer hb i hl
    current := fun hb => by
      have hlt : s.idx - 1 < s.len := by have := h.index hb; omega
      exact (hr hb _ hlt).trans (h.current hb) }

/-- A pulse by a symbol word: the block is idle, and the pulse writes pins, counter and trace. -/
theorem Inv.pulse {s : State} (h : Inv s) (idle : busy s = false) (p : PinId) (x y : Ticks) :
    Inv (Machine.pulse p x y s) := by
  refine .ofIdle ?_ ?_ ?_ ?_ ?_ ?_ ?_ (h.phases_mono (by simp) ?_)
  · simpa using busy_eq_false.mp idle
  · simpa using h.params
  · simpa using h.ports
  · simpa using h.widths
  · simpa using h.memory
  · simpa using h.inside
  · simpa [Machine.pulse, markFalls_length] using h.falls
  · simp only [pulse_now]; omega

/-! ### The invariant and the engine's operations -/

/-- BEGIN sets up every clause of a busy block: the operands fit their ports, the preconditions of R181 give the buffer
and the low pin, the lookup gives the thresholds (R123). -/
theorem Inv.beginState {s : State} (h : Inv s) (pos : s.ports.lenIn ≠ 0)
    (ready : TxReady s.ports.pinIn s.ports.baseIn s.ports.lenIn s) {th : Thresholds} {b : Byte}
    (c : calibrate s.ports.cpuMhz = some th) (m : Memory.read s.mem s.ports.baseIn = some b) :
    Inv (beginState th b s) :=
  { h with
    widths := ⟨h.ports.1, h.ports.2, Nat.lt_of_le_of_lt (Nat.one_le_iff_ne_zero.mpr pos) h.ports.2⟩
    thresholds := fun _ => legalThresholds_setThresholds c s
    mask := fun _ => rfl
    index := fun _ => ⟨Nat.le_refl 1, Nat.one_le_iff_ne_zero.mpr pos⟩
    room := fun _ => ready.room
    buffer := fun _ => ready.buffer
    current := fun _ => m
    low := fun _ => ready.low
    high := nofun
    risen := nofun }

/-- The block's write on its pin, with whatever registers the operation changes beside it: in WAITP the write is a CLR,
in WAITH it is the SET whose sample is `START`. RISE, FALL_BIT and FALL_BYTE are of this form (R125, R127, R128). -/
theorem Inv.gpioWrite {s : State} (h : Inv s) (hb : busy s = true) {f : FsmState} {op : GpioOp} {x : Ticks}
    {cur mask : Byte} {idx : Nat} {r : Option MemRead} (hmask : oneHot 8 mask = true) (hidx : 1 ≤ idx ∧ idx ≤ s.len)
    (hcur : Memory.read s.mem (s.base + (idx - 1)) = some cur) (hlow : f = .waitp → op = .clr)
    (hhigh : f = .waith → op = .set ∧ x = s.c) :
    Inv (setFsm f { gpioWrite op (gpioMask s.pin) s with
      cur := cur, mask := mask, idx := idx, startTime := x, memRead := r }) :=
  have level : (driveLevels op (gpioMask s.pin) s.lvl).getLsbD s.pin.toNat = decide (op = .set) := by
    rw [driveLevels_getLsbD, gpioMask_getLsbD, decide_eq_true rfl, if_pos rfl]
  { params := by simpa using h.params
    ports := by simpa using h.ports
    widths := by simpa using ⟨h.widths.1, h.widths.2.1, Nat.lt_of_le_of_lt hidx.2 h.widths.2.1⟩
    thresholds := fun _ => by simpa [LegalThresholds] using h.thresholds hb
    mask := fun _ => hmask
    index := fun _ => by simpa using hidx
    room := fun _ => by simpa using h.room hb
    buffer := fun _ => by simpa using h.buffer hb
    current := fun _ => by simpa using hcur
    low := fun hf => level.trans (by rw [hlow hf]; rfl)
    high := fun hf => level.trans (by rw [(hhigh hf).1]; rfl)
    risen := fun hf => by
      obtain ⟨rfl, rfl⟩ := hhigh hf
      simp [lastWrite]
    memory := by simpa using h.memory
    inside := by simpa using h.inside
    falls := by simpa [markFalls_length] using h.falls
    phases := by simpa using h.phases }

/-- A mask of one bit that is not the last one is still of one bit after the shift of FALL_BIT (R24). -/
theorem oneHot_shiftRight {m : Byte} (h : oneHot 8 m = true) (h1 : m ≠ 1) : oneHot 8 (m >>> 1) = true := by
  obtain ⟨i, hi, rfl⟩ := oneHot_iff.mp h
  cases i with
  | zero => exact absurd rfl h1
  | succ i => exact oneHot_iff.mpr ⟨i, by omega, twoPow_succ_shiftRight hi⟩

/-- While the buffer does not wrap, the address of the next byte is the sum (R30, R80). -/
theorem Inv.bufAddr_eq {s : State} (h : Inv s) (hb : busy s = true) (hx : s.idx < s.len) :
    bufAddr s.params s.base s.idx = s.base + s.idx := by
  have := h.room hb
  exact Nat.mod_eq_of_lt (by omega)

/-- The index of a byte of the buffer counts on without wrapping (R133). -/
theorem Inv.nextIndex_eq {s : State} (h : Inv s) (hx : s.idx < s.len) : nextIndex s.params s.idx = s.idx + 1 := by
  have := h.widths.2.1
  exact Nat.mod_eq_of_lt (by omega)

/-- Each of the engine's nine operations keeps the invariant. -/
theorem Inv.engineNext {s t : State} (h : Inv s) (hn : EngineNext s t) : Inv t := by
  cases hn with
  | nopIdle _ _ ht | spinp _ _ ht | spinh _ _ ht => exact ht ▸ h
  | return0 _ _ _ ht => exact ht ▸ { h with }
  | beginTx _ _ pos ready th b c m ht => exact ht ▸ h.beginState pos ready c m
  | rise f _ ht =>
    have hb := busy_eq_true.mpr (.inl f)
    exact ht ▸ h.gpioWrite hb (h.mask hb) (h.index hb) (h.current hb) nofun fun _ => ⟨rfl, rfl⟩
  | fallBit f _ b ht =>
    have hb := busy_eq_true.mpr (.inr f)
    exact ht ▸ h.gpioWrite hb (oneHot_shiftRight (h.mask hb) b) (h.index hb) (h.current hb) (fun _ => rfl) nofun
  | fallByte f _ _ e v m ht =>
    have hb := busy_eq_true.mpr (.inr f)
    have hx : s.idx < s.len := Nat.lt_of_le_of_ne (h.index hb).2 e
    rw [h.bufAddr_eq hb hx] at m ht
    rw [h.nextIndex_eq hx] at ht
    exact ht ▸ h.gpioWrite hb rfl ⟨Nat.le_add_left .., hx⟩ m (fun _ => rfl) nofun
  | fallEnd _ _ _ _ ht =>
    subst ht
    exact .ofIdle rfl (by simpa using h.params) (by simpa using h.ports) (by simpa using h.widths)
      (by simpa using h.memory) (by simpa using h.inside) (by simpa [markFalls_length] using h.falls)
      (by simpa using h.phases)

theorem Inv.of_edgeCases {s t : State} (h : Inv s)
    (hc : (s.ports.rst = true ∧ t = Machine.resetEdge s) ∨
      (s.ports.rst = false ∧ EngineNext (Machine.clockEdge s) t)) : Inv t := by
  obtain ⟨-, rfl⟩ | ⟨-, hn⟩ := hc
  · exact h.resetEdge
  · exact h.clockEdge.engineNext hn

/-! ### The invariant and the inputs -/

/-- Every word from outside keeps the invariant. -/
theorem Inv.wordNext {s t : State} (h : Inv s) (hw : WordNext s t) : Inv t := by
  cases hw with
  | command p a l u hu ht => exact ht ▸ ((h.takeSample.present p a l).of_edgeCases (engineEdge_next hu)).dropStart
  | gpio op m free ht => exact ht ▸ { h.setLevels_driveLevels free with }
  | counter v ht => exact ht ▸ { h.runOn v with }
  | clockCode m ht => exact ht ▸ h.setCpuMhz m
  | lookup _ ht | stateCode _ ht => exact ht ▸ { h with }
  | reset _ ht => exact ht ▸ h.resetEdge
  | pulse idle p x y ht => exact ht ▸ h.dropStart.pulse idle p x y

/-- The phase that a new clock rate ends has ended by now (R222). -/
theorem Inv.setClock {s : State} (h : Inv s) (m : BitVec 8) : Inv (setClock m s) :=
  { h with
    phases := fun ph hp => by
      rw [setClock_clockPast] at hp
      split at hp
      · exact h.phases ph hp
      · obtain rfl | hp := List.mem_cons.mp hp
        · exact Nat.le_refl s.now
        · exact h.phases ph hp }

theorem Inv.inputLevel {s t : State} {p : PinId} {v : Bool} (h : Inv s) (hi : inputLevel p v s = .next t) : Inv t := by
  obtain ⟨free, rfl⟩ := inputLevel_next hi
  have hfree : busy s = false ∨ (gpioMask p).getLsbD s.pin.toNat = false :=
    free.imp_right fun hp => by rw [gpioMask_getLsbD, decide_eq_false (Ne.symm hp)]
  exact { h.setLevels_driveLevels hfree with }

/-- Where a store changes no byte of a range, every byte of the range is read as before. -/
theorem Memory.read_writeAll_of_unchanged {m : Memory} {lo n a : Nat} {vs : List Byte}
    (h : Memory.changesWithin m lo n a vs = false) {i : Nat} (hi : i < n) :
    Memory.read (Memory.writeAll m a vs) (lo + i) = Memory.read m (lo + i) := by
  by_cases hin : a ≤ lo + i ∧ lo + i < a + vs.length
  · obtain ⟨j, hj⟩ := Nat.exists_eq_add_of_le hin.1
    obtain ⟨v, hv⟩ : ∃ v, vs[j]? = some v := ⟨vs[j]'(by omega), List.getElem?_eq_getElem _⟩
    have hsame : Memory.read m (a + j) = some v := by
      by_contra hne
      have := (Memory.changesWithin_iff m lo n a vs).mpr ⟨j, v, hv, by omega, by omega, hne⟩
      rw [h] at this; cases this
    rw [hj, Memory.read_writeAll_inside m hv, hsame]
  · exact Memory.read_writeAll_outside m vs (by omega)

theorem Inv.inputBuf {s t : State} {a : Nat} {vs : List Byte} (h : Inv s) (hi : inputBuf a vs s = .next t) : Inv t := by
  obtain ⟨hlen, free, rfl⟩ := inputBuf_next hi
  refine h.setMemory (Memory.wf_writeAll vs h.memory) (Memory.within_writeAll vs h.inside hlen) fun hb i hl => ?_
  obtain idle | unchanged := free
  · rw [hb] at idle; cases idle
  · exact Memory.read_writeAll_of_unchanged unchanged hl

/-- No clause of the invariant speaks of the inputs that are left. -/
theorem Inv.setInputs {s : State} (h : Inv s) (rest : List Input) : Inv { s with inputs := rest } := { h with }

/-- Settles O11, input by input: an edge is the reset or one of the engine's nine operations, a word is one of the eight
things a word can do, and each of the host's other inputs keeps the clauses on the fields it writes. -/
theorem invariantKeptByEveryStep : Obligations.InvariantKeptByEveryStep := by
  intro s t h hstep
  cases step_cases hstep with
  | edge rest hs => exact (h.setInputs rest).of_edgeCases (edge_next hs)
  | word _ _ rest _ hs => exact (h.setInputs rest).wordNext (runWord_cases hs)
  | drive p rest _ hs => cases hs; exact { h with ports := Ports.fit_lt _ p }
  | cc _ _ _ hs | lock _ _ hs => cases hs; exact { h with }
  | freq m rest _ hs =>
    obtain rfl := inputFreq_next hs
    exact ((h.setInputs rest).setClock m).setCpuMhz m
  | level _ _ rest _ hs => exact (h.setInputs rest).inputLevel hs
  | buf _ _ rest _ hs => exact (h.setInputs rest).inputBuf hs
  | unlock rest _ hs =>
    obtain ⟨_, _, -, rfl⟩ := inputUnlock_next hs
    exact { h with }
  | interrupt rest _ hs =>
    obtain rfl := inputInterrupt_next hs
    exact h.setInputs rest
  | dropped _ rest _ _ ht => exact ht ▸ h.setInputs rest

end Sys2Proof.Machine
end

section
/-! PROOFS of the family `10_state`, second part: BEGIN's refusals, the state codes and the host's stores, each a case
distinction on its operands. -/

namespace Sys2Proof.Machine

/-! ### The refusals of BEGIN (R181) -/

/-- A code has no thresholds exactly when it is neither of the two supported (R105, R111). -/
theorem calibrate_eq_none_iff {m : BitVec 8} : calibrate m = none ↔ m ≠ 80 ∧ m ≠ 160 := by
  unfold calibrate
  split
  · simp_all
  · split <;> simp_all

/-- A buffer is not readable exactly when one of its bytes is not stored (R92). -/
theorem Memory.readable_eq_false_iff {m : Memory} {a n : Nat} :
    Memory.readable m a n = false ↔ ∃ i < n, Memory.read m (a + i) = none := by
  rw [← Bool.not_eq_true, Memory.readable_iff]
  simp

theorem execBegin_of_refusal {s : State} {r : Refusal} (h : beginRefusal s = some r) : execBegin s = .refused r := by
  unfold execBegin
  rw [h]

/-- Settles O17: with the preconditions of the clauses before it met, `beginRefusal` comes to the clause of the violated
one. Each `all_goals` passes one clause, in the order of log entry 9, and the bullet after it stops at the next. -/
theorem beginRefusesViolatedPreconditions : Obligations.BeginRefusesViolatedPreconditions := by
  intro g b e s
  have key : ∀ r, beginRefusal s = some r → exec (.beginTx g b e) s = .refused r := fun _ => execBegin_of_refusal
  refine ⟨fun ho => key _ ?_, fun ho => ⟨fun hw => key _ ?_, fun hw => ⟨fun hb => key _ ?_, fun hb =>
    ⟨fun hc => key _ ?_, fun hc => ⟨fun hl => key _ ?_, fun hl hg => key _ ?_⟩⟩⟩⟩⟩
  all_goals unfold beginRefusal
  · exact if_pos ho
  all_goals rw [if_neg (ne_false_of_eq_true ho)]
  · exact if_pos hw
  all_goals rw [if_neg (show ¬ s.params.addrSpace < _ from Nat.not_lt.mpr hw)]
  · exact if_pos (Memory.readable_eq_false_iff.mpr hb)
  all_goals rw [if_neg (by rw [Memory.readable_eq_false_iff]; rintro ⟨i, hi, hn⟩; exact hb i hi hn)]
  · exact if_pos (calibrate_eq_none_iff.mpr hc)
  all_goals rw [if_neg (by rw [calibrate_eq_none_iff]; tauto)]
  · exact if_pos hl
  · rw [if_neg (ne_true_of_eq_false hl)]
    exact if_pos hg

/-! ### The state codes -/

/-- The field `s` of the word that a state code leaves is the code, and the other five bits stand. -/
theorem selectState_stepSel_toNat (f : FsmState) (s : State) :
    (selectState f s).stepSel.toNat = f.code * 32 + s.stepSel.toNat % 32 := by
  have hf : f.code ≤ 2 := by cases f <;> decide
  rw [selectState, BitVec.toNat_ofNat, Nat.mod_eq_of_lt (by omega)]

/-- Settles O29: each code is `selectState` of its state. -/
theorem stateCodesAreStepFields : Obligations.StateCodesAreStepFields := by
  intro s
  exact ⟨⟨_, rfl, (selectState_stepSel_toNat .idle s).trans (Nat.zero_add _)⟩,
    ⟨_, rfl, selectState_stepSel_toNat .waitp s⟩, ⟨_, rfl, selectState_stepSel_toNat .waith s⟩⟩

/-! ### The host's stores -/

/-- A step whose first input is a `BUF` is that store, the input taken. -/
theorem step_buf {s : State} {a : Nat} {vs : List Byte} {rest : List Input} (hi : s.inputs = .buf a vs :: rest) :
    step s = inputBuf a vs { s with inputs := rest } := by
  unfold step cycle
  rw [hi]

/-- A store inside the address space of which a busy block's buffer stays unchanged is performed. -/
theorem inputBuf_of_free {s : State} {a : Nat} {vs : List Byte} (hlen : a + vs.length ≤ s.params.addrSpace)
    (free : busy s = false ∨ Memory.changesWithin s.mem s.base s.len a vs = false) :
    inputBuf a vs s = .next { s with mem := Memory.writeAll s.mem a vs } := by
  unfold inputBuf
  rw [if_neg (Nat.not_lt.mpr hlen), if_neg (by simpa [imp_iff_or_not, or_comm] using free)]

/-- A store that changes a byte of a busy block's buffer is refused. -/
theorem inputBuf_of_change {s : State} {a : Nat} {vs : List Byte} (hlen : a + vs.length ≤ s.params.addrSpace)
    (hb : busy s = true) (hc : Memory.changesWithin s.mem s.base s.len a vs = true) :
    inputBuf a vs s = .refused .bufferChanged := by
  unfold inputBuf
  rw [if_neg (Nat.not_lt.mpr hlen), if_pos (by rw [hb, hc]; rfl)]

/-- Settles O44: the refusals and the store are the three branches of `inputBuf`, `changesWithin` is the existence of a
changed byte, and what is read after the store is `read_writeAll_inside` and `read_writeAll_outside`. -/
theorem hostStoresBuffer : Obligations.HostStoresBuffer := by
  intro s a vs rest hi
  rw [step_buf hi]
  refine ⟨fun hw => if_pos hw, fun hw => ⟨fun hb hc => ?_, fun free => ⟨Memory.writeAll s.mem a vs, ?_, ?_, ?_⟩⟩⟩
  · exact inputBuf_of_change (s := { s with inputs := rest }) hw hb ((Memory.changesWithin_iff ..).mpr hc)
  · refine inputBuf_of_free (s := { s with inputs := rest }) hw (free.imp_right fun hsame => ?_)
    rw [← Bool.not_eq_true, Memory.changesWithin_iff]
    rintro ⟨i, v, hv, hlo, hhi, hne⟩
    exact hne (hsame i v hv hlo hhi)
  · exact fun i v hv => Memory.read_writeAll_inside s.mem hv
  · exact fun b hb => Memory.read_writeAll_outside s.mem vs hb

end Sys2Proof.Machine
end

section
/-! PROOFS of the family `10_state`, third part: the operands and the cursor of a transmission in progress. -/

namespace Sys2Proof.Machine

/-! ### The operands (R21, R22) -/

/-- `t` has the operands and the thresholds of `s`: the registers that BEGIN alone loads. -/
structure SameOperands (s t : State) : Prop where
  pin : t.pin = s.pin
  base : t.base = s.base
  len : t.len = s.len
  thShort : t.thShort = s.thShort
  thLong : t.thLong = s.thLong
  thPeriod : t.thPeriod = s.thPeriod

theorem SameOperands.refl (s : State) : SameOperands s s := ⟨rfl, rfl, rfl, rfl, rfl, rfl⟩

/-- An operation of a busy block is not BEGIN, and no other one loads an operand. -/
theorem EngineNext.sameOperands {s t : State} (hb : busy s = true) (h : EngineNext s t) : SameOperands s t := by
  cases h with
  | beginTx f => rw [busy_eq_false.mpr f] at hb; cases hb
  | nopIdle _ _ h | spinp _ _ h | spinh _ _ h => exact h ▸ .refl s
  | return0 _ _ _ h | rise _ _ h | fallBit _ _ _ h | fallByte _ _ _ _ _ _ h | fallEnd _ _ _ _ h =>
    subst h; constructor <;> simp [riseState]

theorem sameOperands_of_edgeCases {s t : State} (hb : busy s = true)
    (h : (s.ports.rst = true ∧ t = resetEdge s) ∨ (s.ports.rst = false ∧ EngineNext (clockEdge s) t)) :
    SameOperands s t := by
  obtain ⟨-, rfl⟩ | ⟨-, h⟩ := h
  · constructor <;> rfl
  · exact { h.sameOperands (s := clockEdge s) hb with }

/-- A word from outside loads no operand of a busy block: a command given then is a clock edge that does not accept it
(R98, R99), and the other words write no register. -/
theorem WordNext.sameOperands {s t : State} (hb : busy s = true) (h : WordNext s t) : SameOperands s t := by
  cases h with
  | command p a l u hu ht =>
    rw [takeSample_busy hb] at hu
    exact ht ▸ { sameOperands_of_edgeCases (s := present p a l s) hb (engineEdge_next hu) with }
  | pulse idle => rw [hb] at idle; cases idle
  | gpio _ _ _ h | counter _ h | clockCode _ h | lookup _ h | reset _ h | stateCode _ h =>
    subst h; constructor <;> rfl

theorem step_sameOperands {s t : State} (hb : busy s = true) (h : step s = .next t) : SameOperands s t := by
  have hin : ∀ rest, SameOperands { s with inputs := rest } t → SameOperands s t := fun _ h => { h with }
  cases step_cases h with
  | edge rest h => exact hin rest (sameOperands_of_edgeCases hb (edge_next h))
  | word _ _ rest _ h => exact hin rest ((runWord_cases h).sameOperands hb)
  | drive _ _ _ h | cc _ _ _ h | lock _ _ h => cases h; constructor <;> rfl
  | freq _ _ _ h => obtain rfl := inputFreq_next h; constructor <;> rfl
  | level _ _ _ _ h => obtain ⟨-, rfl⟩ := inputLevel_next h; constructor <;> rfl
  | buf _ _ _ _ h => obtain ⟨-, -, rfl⟩ := inputBuf_next h; constructor <;> rfl
  | unlock _ _ h => obtain ⟨_, _, -, rfl⟩ := inputUnlock_next h; constructor <;> rfl
  | interrupt _ _ h => obtain rfl := inputInterrupt_next h; constructor <;> rfl
  | dropped _ _ _ _ h => subst h; constructor <;> rfl

/-- Settles O36: `SameOperands` over everything a step of a busy block can be. -/
theorem operandsConstantWhileBusy : Obligations.OperandsConstantWhileBusy := by
  intro s t hb h
  obtain ⟨hpin, hbase, hlen, hshort, hlong, hperiod⟩ := step_sameOperands hb h
  exact ⟨hpin, hbase, hlen, hshort, hlong, hperiod⟩

/-! ### The cursor (R29) -/

/-- The pulse number from the index and the position of the mask's one bit. -/
theorem pulseNumber_of_twoPow {s : State} {i : Nat} (hi : i < 8) (hm : s.mask = BitVec.twoPow 8 i) :
    pulseNumber s = 8 * (s.idx - 1) + (7 - i) := by
  rw [pulseNumber, hm, BitVec.toNat_twoPow_of_lt hi, Nat.log2_two_pow]

/-- While the block is busy the cursor is inside the stream. -/
theorem Inv.pulseNumber_lt {s : State} (h : Inv s) (hb : busy s = true) : pulseNumber s < 8 * s.len := by
  obtain ⟨h1, hlen⟩ := h.index hb
  unfold pulseNumber
  omega

/-- The cursor depends on the index and the mask alone. -/
theorem pulseNumber_congr {s t : State} (hi : t.idx = s.idx) (hm : t.mask = s.mask) :
    pulseNumber t = pulseNumber s := by
  rw [pulseNumber, pulseNumber, hi, hm]

/-- FALL_BIT, which comes while the mask is not at the last bit, moves the cursor to the next bit of the byte. -/
theorem pulseNumber_fallBit {s t : State} (h : oneHot 8 s.mask = true) (h1 : s.mask ≠ 1) (hi : t.idx = s.idx)
    (hm : t.mask = s.mask >>> 1) : pulseNumber t = pulseNumber s + 1 := by
  obtain ⟨i, hlt, hs⟩ := oneHot_iff.mp h
  cases i with
  | zero => exact absurd hs h1
  | succ i =>
    rw [hs, twoPow_succ_shiftRight hlt] at hm
    rw [pulseNumber_of_twoPow hlt hs, pulseNumber_of_twoPow (by omega) hm, hi]
    omega

/-- FALL_BYTE, which comes at the last bit of a byte, moves the cursor to the first bit of the next one. -/
theorem pulseNumber_fallByte {s t : State} (hpos : 1 ≤ s.idx) (h1 : s.mask = 1) (hi : t.idx = s.idx + 1)
    (hm : t.mask = 0x80) : pulseNumber t = pulseNumber s + 1 := by
  rw [pulseNumber_of_twoPow (i := 0) (by omega) h1, pulseNumber_of_twoPow (i := 7) (by omega) hm, hi]
  omega

/-- The cursor after an operation of a busy block that leaves it busy. -/
theorem Inv.pulseNumber_engineNext {s t : State} (h : Inv s) (hb : busy s = true) (hn : EngineNext s t)
    (ht : busy t = true) :
    pulseNumber t = if s.fsm = .waith ∧ t.fsm = .waitp then pulseNumber s + 1 else pulseNumber s := by
  cases hn with
  | nopIdle f | return0 f | beginTx f => rw [busy_eq_false.mpr f] at hb; cases hb
  | spinp f _ e | rise f _ e =>
    rw [if_neg (by simp [f])]
    subst e
    exact pulseNumber_congr (by simp [riseState]) (by simp [riseState])
  | spinh f _ e =>
    rw [if_neg (by simp [e, f])]
    exact e ▸ rfl
  | fallBit f _ b e =>
    rw [if_pos ⟨f, by rw [e]; rfl⟩]
    exact e ▸ pulseNumber_fallBit (h.mask hb) b (by simp) (by simp)
  | fallByte f _ b ne _ _ e =>
    rw [if_pos ⟨f, by rw [e]; rfl⟩]
    have hx : s.idx < s.len := Nat.lt_of_le_of_ne (h.index hb).2 ne
    exact e ▸ pulseNumber_fallByte (h.index hb).1 b (by simp [h.nextIndex_eq hx]) (by simp)
  | fallEnd _ _ _ _ e => rw [e] at ht; cases ht

/-- Settles O39: the cursor by the operation of the edge, the bound from the invariant of the state it leaves. -/
theorem cursorAdvancesByOne : Obligations.CursorAdvancesByOne := by
  intro s t h hb hi hr hs ht
  have hlt : pulseNumber t < 8 * t.len := (invariantKeptByEveryStep s t h hs).pulseNumber_lt ht
  rw [step_no_inputs hi] at hs
  obtain ⟨hrst, -⟩ | ⟨-, hn⟩ := edge_next hs
  · rw [hr] at hrst; cases hrst
  · exact ⟨h.clockEdge.pulseNumber_engineNext hb hn ht, hlt⟩

end Sys2Proof.Machine
end

section
/-! PROOFS of the family `10_state`, fourth part: a clock edge as an equation, and what it does not depend on: the dead
registers of an idle block (R38), the command ports of a busy one (R98, R99). -/

namespace Sys2Proof.Machine

/-! ### The clock edge as an equation -/

/-- Each of the nine cases is a next state of the engine's choice, so they are all of them. -/
theorem engineCase_next_iff {s t : State} : engineCase s = .next t ↔ EngineNext s t := by
  refine ⟨engineCase_next, fun h => ?_⟩
  unfold engineCase
  cases h with
  | nopIdle f r h => simp only [f, if_pos r]; exact h ▸ rfl
  | return0 f r l h => simp only [f, if_neg (ne_false_of_eq_true r), if_pos l]; exact h ▸ rfl
  | beginTx f r l ready th b c m h =>
    simp only [f, if_neg (ne_false_of_eq_true r), if_neg l, execBegin, (beginRefusal_none_iff s).mpr ready, c, m, h]
  | spinp f g h => simp only [f, if_neg g]; exact h ▸ rfl
  | rise f g h => simp only [f, if_pos g]; exact h ▸ rfl
  | spinh f g h => simp only [f, if_neg g]; exact h ▸ rfl
  | fallBit f g b h => simp only [f, if_pos g, if_pos b]; exact h ▸ rfl
  | fallByte f g b e v m h => simp only [f, if_pos g, if_neg (not_not.mpr b), if_pos e, execFallByte, m, h]
  | fallEnd f g b e h => simp only [f, if_pos g, if_neg (not_not.mpr b), if_neg (not_not.mpr e)]; exact h ▸ rfl

/-- The operation the step-select word selects is the one of the written-out step of R120. -/
theorem exec_selected (s : State) : exec (selected s) s = engineCase s := by
  unfold selected selectedOf engineCase
  cases f : s.fsm with
  | idle =>
    simp only [lenz, apply_ite (exec · s), beq_iff_eq]
    cases s.ports.start <;> rfl
  | waitp => simp only [ge, f, apply_ite (exec · s), decide_eq_true_eq]; rfl
  | waith =>
    simp only [ge, f, lastbit, lastbyte, apply_ite (exec · s), beq_iff_eq, decide_eq_true_eq, ne_eq, ite_not]
    rfl

/-- With no input left and `rst` low a step is the written-out step of R120 after a clock edge. -/
theorem step_eq_engineCase {s : State} (hi : s.inputs = []) (hr : s.ports.rst = false) :
    step s = engineCase (clockEdge s) := by
  rw [step_no_inputs hi, edge, hr, if_neg Bool.false_ne_true, clockEdge_stepSel_eq, decode_stepWord]
  exact exec_selected _

/-- Such a step gives `t` exactly when one of the nine cases does. -/
theorem step_next_iff {s t : State} (hi : s.inputs = []) (hr : s.ports.rst = false) :
    step s = .next t ↔ EngineNext (clockEdge s) t := by
  rw [step_eq_engineCase hi hr, engineCase_next_iff]

/-! ### The registers of an idle block -/

/-- `s` with the ten registers other than `S` as they are in `r`. -/
def withRegisters (r s : State) : State :=
  { s with
    pin := r.pin, base := r.base, len := r.len, thShort := r.thShort, thLong := r.thLong
    thPeriod := r.thPeriod, cur := r.cur, mask := r.mask, idx := r.idx, startTime := r.startTime }

/-- The registers enter a clock edge through the step-select word alone. -/
theorem clockEdge_withRegisters (r s : State) :
    clockEdge (withRegisters r s) =
      setWord (clockEdge (withRegisters r s)).stepSel (withRegisters r (clockEdge s)) := rfl

/-- Two step-select words with the same fields `s`, `t`, `z` and `g` agree above the bits 1:0 (R72). -/
theorem stepWord_getLsbD_congr {s t : State} (hf : s.fsm = t.fsm) (hp : s.ports = t.ports) (hg : ge s = ge t) {i : Nat}
    (hi : 2 ≤ i) : (stepWord s).getLsbD i = (stepWord t).getLsbD i := by
  have high : ∀ (n : Nat) (t z g b e : Bool),
      packStep n t z g b e / 2 ^ 2 = n * 8 + t.toNat * 4 + z.toNat * 2 + g.toNat := by
    intro n t z g b e
    have hb := b.toNat_le
    have he := e.toNat_le
    unfold packStep
    omega
  obtain ⟨j, rfl⟩ := Nat.exists_eq_add_of_le' hi
  have hz : lenz s = lenz t := by rw [lenz, lenz, hp]
  rw [BitVec.getLsbD, BitVec.getLsbD, ← Nat.testBit_div_two_pow, ← Nat.testBit_div_two_pow, stepWord_toNat,
    stepWord_toNat, high, high, hf, hp, hz, hg]

/-- In IDLE the comparator answers 0 (R31). -/
theorem ge_of_idle {s : State} (f : s.fsm = .idle) : ge s = false := by rw [ge, f]

/-- In IDLE, where the comparator does not look at them, the registers are seen in the bits 1:0 alone. -/
theorem clockEdge_withRegisters_stepSel {s : State} (r : State) (f : s.fsm = .idle) {i : Nat} (hi : 2 ≤ i) :
    (clockEdge (withRegisters r s)).stepSel.getLsbD i = (clockEdge s).stepSel.getLsbD i := by
  have hge : ge (clockEdge (withRegisters r s)) = ge (clockEdge s) :=
    (ge_of_idle (s := clockEdge (withRegisters r s)) f).trans (ge_of_idle (s := clockEdge s) f).symm
  rw [clockEdge_stepSel_eq, clockEdge_stepSel_eq]
  exact stepWord_getLsbD_congr (s := clockEdge (withRegisters r s)) (t := clockEdge s) rfl rfl hge hi

/-- The operation of an idle block that does not accept a command leaves the registers as they are. -/
theorem EngineNext.withRegisters_idle {s t : State} (h : EngineNext s t) (f : s.fsm = .idle) (ht : busy t = false)
    (w : BitVec 7) (r : State) : EngineNext (setWord w (withRegisters r s)) (setWord w (withRegisters r t)) := by
  cases h with
  | nopIdle _ q h => exact .nopIdle f q (h ▸ rfl)
  | return0 _ q l h => exact .return0 f q l (h ▸ rfl)
  | beginTx _ _ _ _ _ _ _ _ h => rw [h] at ht; cases ht
  | spinp f' | rise f' | spinh f' | fallBit f' | fallByte f' | fallEnd f' => rw [f] at f'; cases f'

/-- BEGIN writes all ten registers and reads none. -/
theorem EngineNext.withRegisters_accept {s t : State} (h : EngineNext s t) (f : s.fsm = .idle) (ht : busy t = true)
    (w : BitVec 7) (r : State) : EngineNext (setWord w (withRegisters r s)) (setWord w t) := by
  cases h with
  | nopIdle _ _ h => rw [h, busy_eq_true, f] at ht; simp at ht
  | return0 _ _ _ h => rw [h, busy_eq_true] at ht; simp [f] at ht
  | beginTx _ q l ready th b c m h => exact .beginTx f q l { ready with } th b c m (h ▸ rfl)
  | spinp f' | rise f' | spinh f' | fallBit f' | fallByte f' | fallEnd f' => rw [f] at f'; cases f'

/-- The operation of an idle block leaves the step-select word the edge has formed. -/
theorem EngineNext.stepSel_eq {s t : State} (h : EngineNext s t) : t.stepSel = s.stepSel := by
  cases h <;> subst t <;> simp [beginState, riseState]

/-- Settles O43: the edge of `s'` is that of `s` but for the registers and the word, and each of the idle operations
either keeps the registers or writes all of them. -/
theorem registersDeadWhenIdle : Obligations.RegistersDeadWhenIdle := by
  intro s s' t f hi hr hs hs'
  rw [step_next_iff hi hr] at hs
  have hregs : s' = withRegisters s' s := hs'
  have hi' : s'.inputs = [] := by rw [hregs]; exact hi
  have hr' : s'.ports.rst = false := by rw [hregs]; exact hr
  have hedge : clockEdge s' = setWord (clockEdge s').stepSel (withRegisters s' (clockEdge s)) := by
    rw [hregs]; exact clockEdge_withRegisters s' s
  refine ⟨(clockEdge s').stepSel, fun i h2 => ?_, fun ht => ?_, fun ht => ?_⟩
  · rw [hs.stepSel_eq, hregs]
    exact clockEdge_withRegisters_stepSel s' f h2
  all_goals rw [step_next_iff hi' hr', hedge]
  · exact hs.withRegisters_accept f ht _ s'
  · exact hs.withRegisters_idle f ht _ s'

/-! ### The command ports of a busy block -/

/-- `s` with other levels on the input ports. -/
def withPorts (q : Ports) (s : State) : State := { s with ports := q }

/-- The ports enter a clock edge through the step-select word alone. -/
theorem clockEdge_withPorts (q : Ports) (s : State) :
    clockEdge (withPorts q s) = setWord (clockEdge (withPorts q s)).stepSel (withPorts q (clockEdge s)) := rfl

/-- No operation of a busy block looks at the ports (R98, R99). -/
theorem EngineNext.withPorts {s t : State} (h : EngineNext s t) (hb : busy s = true) (w : BitVec 7) (q : Ports) :
    EngineNext (setWord w (withPorts q s)) (setWord w (withPorts q t)) := by
  cases h with
  | nopIdle f | return0 f | beginTx f => rw [busy_eq_false.mpr f] at hb; cases hb
  | spinp f g h => exact .spinp f g (h ▸ rfl)
  | rise f g h => exact .rise f g (h ▸ rfl)
  | spinh f g h => exact .spinh f g (h ▸ rfl)
  | fallBit f g b h => exact .fallBit f g b (h ▸ rfl)
  | fallByte f g b e v m h => exact .fallByte f g b e v m (h ▸ rfl)
  | fallEnd f g b e h => exact .fallEnd f g b e (h ▸ rfl)

/-- A clock edge of a busy block is the same with other levels on the ports, but for those levels and the word. -/
theorem step_withPorts {s t : State} {q : Ports} (hi : s.inputs = []) (hr : s.ports.rst = false) (hq : q.rst = false)
    (hb : busy s = true) (h : step s = .next t) :
    ∃ w, step (withPorts q s) = .next (setWord w (withPorts q t)) := by
  rw [step_next_iff hi hr] at h
  refine ⟨(clockEdge (withPorts q s)).stepSel, (step_next_iff (s := withPorts q s) hi hq).mpr ?_⟩
  rw [clockEdge_withPorts]
  exact h.withPorts hb _ q

/-- No operation of the engine drives an input port. -/
theorem EngineNext.ports_eq {s t : State} (h : EngineNext s t) : t.ports = s.ports := by
  cases h <;> subst t <;> simp [beginState, riseState]

/-- The `done` of a busy block is that of FALL_END (R129). -/
theorem EngineNext.idle_of_done {s t : State} (h : EngineNext s t) (hb : busy s = true) (hd : s.done = false)
    (ht : t.done = true) : t.fsm = .idle := by
  cases h with
  | nopIdle f | return0 f | beginTx f => rw [busy_eq_false.mpr f] at hb; cases hb
  | spinp _ _ h | rise _ _ h | spinh _ _ h | fallBit _ _ _ h | fallByte _ _ _ _ _ _ h =>
    subst h; simp [riseState, hd] at ht
  | fallEnd _ _ _ _ h => exact h ▸ rfl

/-! ### A held `start` -/

/-- RETURN0 in an idle block: `done` after a clock edge, and nothing else (R122). -/
theorem step_return0 {s : State} (hi : s.inputs = []) (f : s.fsm = .idle) (hr : s.ports.rst = false)
    (hs : s.ports.start = true) (hl : s.ports.lenIn = 0) : step s = .next { clockEdge s with done := true } :=
  (step_next_iff hi hr).mpr (.return0 f hs hl rfl)

/-- With `start` held and `len_in` 0 every step is a RETURN0: `done` after that many edges of an idle block. -/
theorem run_return0 {s : State} (hi : s.inputs = []) (f : s.fsm = .idle) (hr : s.ports.rst = false)
    (hs : s.ports.start = true) (hl : s.ports.lenIn = 0) (k : Nat) :
    run (k + 1) s = .next { idleEdges (k + 1) s with done := true } := by
  induction k with
  | zero => rw [run_next 0 (step_return0 hi f hr hs hl), run_zero, idleEdges_succ]; rfl
  | succ k ih =>
    have hstep : step { idleEdges (k + 1) s with done := true } =
        .next { clockEdge { idleEdges (k + 1) s with done := true } with done := true } :=
      step_return0 (s := { idleEdges (k + 1) s with done := true }) hi f hr hs hl
    rw [run_add ih ((run_next 0 hstep).trans (run_zero _)), idleEdges_succ (k + 1)]
    rfl

/-- A ready command on the ports of an idle block has thresholds and a first byte. -/
theorem TxReady.operands {p : PinId} {a l : Nat} {s : State} (h : TxReady p a l s) (hl : l ≠ 0) :
    ∃ th b, calibrate s.ports.cpuMhz = some th ∧ Memory.read s.mem a = some b := by
  obtain ⟨b, hb⟩ := Option.isSome_iff_exists.mp (h.buffer 0 (Nat.pos_of_ne_zero hl))
  obtain hc | hc := h.clock
  · exact ⟨⟨24, 48, 100⟩, b, by rw [hc]; rfl, hb⟩
  · exact ⟨⟨48, 96, 200⟩, b, by rw [hc]; rfl, hb⟩

/-- An idle block accepts a ready command (R98, R123). -/
theorem step_accepts {s : State} (hi : s.inputs = []) (f : s.fsm = .idle) (hr : s.ports.rst = false)
    (hs : s.ports.start = true) (hl : s.ports.lenIn ≠ 0)
    (ready : TxReady s.ports.pinIn s.ports.baseIn s.ports.lenIn (clockEdge s)) :
    ∃ v : State, step s = .next v ∧ v.fsm = .waitp ∧ v.pin = s.ports.pinIn ∧ v.idx = 1 := by
  obtain ⟨th, b, hc, hm⟩ := ready.operands hl
  exact ⟨_, (step_next_iff hi hr).mpr (.beginTx f hs hl ready th b hc hm rfl), rfl, rfl, rfl⟩

/-- Settles O53: the drive is `inputDrive`; a held zero length is `run_return0`; while the block is busy the edge is the
one with `start` low, and the `done` that ends it leaves an idle block with the command still on its ports. -/
theorem hostDrivesPorts : Obligations.HostDrivesPorts := by
  refine ⟨fun s p rest hi => ?_, fun s k hi f hr hs hl => ?_, fun s t hi hr hb hs h => ?_⟩
  · unfold step cycle
    rw [hi]
    rfl
  · refine ⟨_, run_return0 hi f hr hs hl k, ?_⟩
    have hcc : s.cc + BitVec.ofNat 32 (k * s.params.ccStride) + s.params.stride =
        s.cc + BitVec.ofNat 32 ((k + 1) * s.params.ccStride) := by
      rw [Nat.succ_mul, BitVec.ofNat_add, ← BitVec.add_assoc]; rfl
    apply State.ext <;> simp [idleEdges, hcc, Nat.succ_mul, Nat.add_assoc]
  · obtain ⟨hpin, hbase, hlen, hshort, hlong, hperiod⟩ := step_sameOperands hb h
    obtain ⟨w, hu⟩ := step_withPorts (q := { s.ports with start := false }) hi hr hr hb h
    rw [step_next_iff hi hr] at h
    have hin : t.inputs = [] := h.samePlatform.inputs.trans hi
    have hports : t.ports = s.ports := h.ports_eq
    refine ⟨hpin, hbase, hlen, hshort, hlong, hperiod, hports, ⟨_, hu, ?_⟩, fun hd hl ready => ?_⟩
    · rw [← hports]; rfl
    · rw [← hports] at hr hs hl ready ⊢
      exact step_accepts hin (h.idle_of_done hb rfl hd) hr hs hl ready

end Sys2Proof.Machine
end

section
/-! PROOFS of the family `20_memory`, first part: no instruction stores to the buffer memory (R50, R94), and which pins a
write on the GPIO port changes (R54, R55). -/

namespace Sys2Proof.Machine

/-! ### The buffer memory -/

/-- No operation the engine can choose stores a byte. -/
theorem EngineNext.mem_eq {s t : State} (h : EngineNext s t) : t.mem = s.mem := by
  cases h <;> subst t <;> simp [beginState, riseState]

/-- Nor does a clock edge, be it the reset of R210 or one of the engine's operations. -/
theorem mem_eq_of_edgeCases {s t : State}
    (h : (s.ports.rst = true ∧ t = resetEdge s) ∨ (s.ports.rst = false ∧ EngineNext (clockEdge s) t)) :
    t.mem = s.mem := by
  obtain ⟨-, rfl⟩ | ⟨-, h⟩ := h
  · rfl
  · exact h.mem_eq

/-- Nor does a word from outside. -/
theorem WordNext.mem_eq {s t : State} (h : WordNext s t) : t.mem = s.mem := by
  cases h with
  | command p a l u hu ht =>
    subst ht
    exact (mem_eq_of_edgeCases (engineEdge_next hu)).trans (takeSample_mem s)
  | pulse _ _ _ _ ht => rw [ht, pulse_mem, dropStart_mem]
  | gpio _ _ _ ht | counter _ ht | clockCode _ ht | lookup _ ht | reset _ ht | stateCode _ ht => subst ht; rfl

/-- No instruction stores a byte: the engine operations write registers, outputs, pins and trace, and the other
instructions are words from outside. -/
theorem exec_mem {i : Instr} {s t : State} (h : exec i s = .next t) : t.mem = s.mem := by
  by_cases hf : i.format = .step
  · cases i with
    | nopIdle _ _ _ _ | return0 _ _ _ | spinp _ _ _ _ | rise _ _ _ _ | spinh _ _ _ _ | fallBit _ _ _ | fallEnd _ _ =>
      cases h; rfl
    | beginTx _ _ _ => obtain ⟨-, _, _, -, -, rfl⟩ := execBegin_next h; rfl
    | fallByte _ _ => obtain ⟨_, -, rfl⟩ := execFallByte_next h; rfl
    | _ => cases hf
  · exact (wordNext_of_exec hf h).mem_eq

/-- Settles O34: the memory as a whole stands, so every address reads as before. -/
theorem noInstructionStores : Obligations.NoInstructionStores := by
  intro i s t h a
  rw [exec_mem h]

/-! ### The levels after a write on one pin -/

/-- A pin that a write drives is at its level. -/
theorem driveLevels_gpioMask_same (op : GpioOp) (p : PinId) (l : PinMask) :
    (driveLevels op (gpioMask p) l).getLsbD p.toNat = decide (op = .set) := by
  rw [driveLevels_getLsbD, gpioMask_getLsbD, decide_eq_true rfl, if_pos rfl]

/-- Every other pin keeps its level. -/
theorem driveLevels_gpioMask_other (op : GpioOp) {p q : PinId} (l : PinMask) (h : q ≠ p) :
    (driveLevels op (gpioMask p) l).getLsbD q.toNat = l.getLsbD q.toNat := by
  rw [driveLevels_getLsbD, gpioMask_getLsbD, decide_eq_false h, if_neg Bool.false_ne_true]

/-- Two words of levels that agree at every pin are the same. -/
theorem levels_ext {l l' : PinMask} (h : ∀ p : PinId, l.getLsbD p.toNat = l'.getLsbD p.toNat) : l = l' := by
  apply BitVec.eq_of_getLsbD_eq
  intro i hi
  have hp := h (BitVec.ofNat 4 i)
  rwa [BitVec.toNat_ofNat, Nat.mod_eq_of_lt hi] at hp

/-- A write that drives a pin to the level it has changes no level. -/
theorem driveLevels_gpioMask_of_level {op : GpioOp} {p : PinId} {l : PinMask}
    (h : l.getLsbD p.toNat = decide (op = .set)) : driveLevels op (gpioMask p) l = l := by
  refine levels_ext fun q => ?_
  by_cases hq : q = p
  · rw [hq, driveLevels_gpioMask_same, h]
  · exact driveLevels_gpioMask_other op l hq

/-- The masks of pins are the one-hot masks (R75). -/
theorem oneHot_iff_gpioMask {m : PinMask} : oneHot 16 m = true ↔ ∃ p : PinId, m = gpioMask p := by
  rw [oneHot_iff]
  constructor
  · rintro ⟨i, hi, rfl⟩
    refine ⟨BitVec.ofNat 4 i, ?_⟩
    rw [gpioMask_eq_twoPow, BitVec.toNat_ofNat, Nat.mod_eq_of_lt hi]
  · rintro ⟨p, rfl⟩
    exact ⟨p.toNat, p.isLt, gpioMask_eq_twoPow p⟩

/-! ### The pins at a clock edge -/

/-- What an operation of the engine does to the pins: nothing, or a write of one kind on its own pin, shown on the port. -/
theorem EngineNext.pins {s t : State} (h : EngineNext s t) :
    (t.gpio = s.gpio ∧ t.lvl = s.lvl) ∨
      ∃ op, t.gpio = some ⟨op, gpioMask s.pin⟩ ∧ t.lvl = driveLevels op (gpioMask s.pin) s.lvl := by
  cases h with
  | nopIdle _ _ h | return0 _ _ _ h | beginTx _ _ _ _ _ _ _ _ h | spinp _ _ h | spinh _ _ h =>
    exact .inl (h ▸ ⟨rfl, rfl⟩)
  | rise _ _ h => exact .inr ⟨.set, h ▸ ⟨rfl, rfl⟩⟩
  | fallBit _ _ _ h | fallByte _ _ _ _ _ _ h | fallEnd _ _ _ _ h => exact .inr ⟨.clr, h ▸ ⟨rfl, rfl⟩⟩

/-- Settles O37: an edge that shows no write leaves the levels, one that shows a write drives the mask of `PIN`. -/
theorem edgeDrivesOnlyItsPin : Obligations.EdgeDrivesOnlyItsPin := by
  intro s t hi h
  have key : (t.gpio = none ∧ t.lvl = s.lvl) ∨
      ∃ op, t.gpio = some ⟨op, gpioMask s.pin⟩ ∧ t.lvl = driveLevels op (gpioMask s.pin) s.lvl := by
    rw [step_no_inputs hi] at h
    obtain ⟨-, rfl⟩ | ⟨-, hn⟩ := edge_next h
    · exact .inl ⟨rfl, rfl⟩
    · exact hn.pins
  obtain ⟨hg, hl⟩ | ⟨op, hg, hl⟩ := key
  · rw [hg, hl]
    exact ⟨fun _ _ => rfl, rfl⟩
  · rw [hg, hl]
    exact ⟨fun q hq => driveLevels_gpioMask_other op s.lvl hq, driveLevels_gpioMask_same op s.pin s.lvl⟩

/-! ### GPIO words and the host's `LEVEL` -/

/-- A GPIO word on a pin that is not a busy block's own is the write. -/
theorem gpioWord_of_free {op : GpioOp} {p : PinId} {s : State} (free : busy s = false ∨ p ≠ s.pin) :
    gpioWord op (gpioMask p) s = .next (drivePort op (gpioMask p) s) := by
  have hone : oneHot 16 (gpioMask p) = true := oneHot_iff_gpioMask.mpr ⟨p, rfl⟩
  have hfree : ¬ (busy s && (gpioMask p).getLsbD s.pin.toNat) = true := by
    rw [gpioMask_getLsbD, Bool.and_eq_true, decide_eq_true_eq]
    rintro ⟨hb, hp⟩
    exact free.elim (by simp [hb]) (fun hne => hne hp.symm)
  rw [gpioWord, if_neg (ne_false_of_eq_true hone), if_neg hfree]

/-- On a busy block's own pin it is refused. -/
theorem gpioWord_of_busyPin {op : GpioOp} {s : State} (hb : busy s = true) :
    gpioWord op (gpioMask s.pin) s = .refused .pinShared := by
  have hone : oneHot 16 (gpioMask s.pin) = true := oneHot_iff_gpioMask.mpr ⟨s.pin, rfl⟩
  rw [gpioWord, if_neg (ne_false_of_eq_true hone), if_pos (by simp [hb])]

/-- With a mask of no single pin it is refused. -/
theorem gpioWord_of_not_gpioMask {op : GpioOp} {m : PinMask} {s : State} (h : ∀ p : PinId, m ≠ gpioMask p) :
    gpioWord op m s = .refused .reservedEncoding := by
  refine if_pos ?_
  rw [← Bool.not_eq_true, oneHot_iff_gpioMask]
  exact fun ⟨p, hp⟩ => h p hp

/-- SET on one pin, as an equation of states: no pin falls. -/
theorem drivePort_set (p : PinId) (s : State) :
    drivePort .set (gpioMask p) s =
      { s with lvl := driveLevels .set (gpioMask p) s.lvl, gpio := some ⟨.set, gpioMask p⟩ } := by
  apply State.ext <;> simp [markFalls_set]

/-- CLR on one pin, as an equation of states: that pin's fall is noted if it was high. -/
theorem drivePort_clr (p : PinId) (s : State) :
    drivePort .clr (gpioMask p) s =
      { s with
        lvl := driveLevels .clr (gpioMask p) s.lvl
        gpio := some ⟨.clr, gpioMask p⟩
        fellAt := notedFall p s.lvl s.now s.fellAt } := by
  apply State.ext <;> simp [markFalls_clr]

/-- A write repeated at once changes no level. -/
theorem gpioWord_repeated {op : GpioOp} {p : PinId} {s : State} (free : busy s = false ∨ p ≠ s.pin) :
    ∃ t, gpioWord op (gpioMask p) (drivePort op (gpioMask p) s) = .next t ∧
      t.lvl = (drivePort op (gpioMask p) s).lvl :=
  ⟨_, gpioWord_of_free (s := drivePort op (gpioMask p) s) free,
    driveLevels_gpioMask_of_level (driveLevels_gpioMask_same op p s.lvl)⟩

/-- Settles O22: the three cases of `gpioWord`, and the levels after its write. -/
theorem gpioWordsDrivePin : Obligations.GpioWordsDrivePin := by
  refine ⟨fun p s => ⟨fun hb hp => ?_, fun free => ⟨?_, ?_⟩⟩, fun m s hm => ?_⟩
  · subst hp
    exact ⟨gpioWord_of_busyPin hb, gpioWord_of_busyPin hb⟩
  · exact ⟨_, gpioWord_of_free free, driveLevels_gpioMask_same .set p s.lvl,
      fun q hq => driveLevels_gpioMask_other .set s.lvl hq, drivePort_set p s, gpioWord_repeated free⟩
  · exact ⟨_, gpioWord_of_free free, driveLevels_gpioMask_same .clr p s.lvl,
      fun q hq => driveLevels_gpioMask_other .clr s.lvl hq, drivePort_clr p s, gpioWord_repeated free⟩
  · exact ⟨gpioWord_of_not_gpioMask hm, gpioWord_of_not_gpioMask hm⟩

/-- A step whose first input is a `LEVEL` is that change of level, the input taken. -/
theorem step_level {s : State} {p : PinId} {v : Bool} {rest : List Input} (hi : s.inputs = .level p v :: rest) :
    step s = inputLevel p v { s with inputs := rest } := by
  unfold step cycle
  rw [hi]

/-- The notes of falls after a pin is put at the level `v`. -/
theorem markFalls_level (p : PinId) (v : Bool) (l : PinMask) (t : Nat) (fs : List (Option Nat)) :
    markFalls l (driveLevels (if v then .set else .clr) (gpioMask p) l) t 0 fs =
      if v then fs else notedFall p l t fs := by
  cases v
  · exact markFalls_clr p l t fs
  · exact markFalls_set (gpioMask p) l t 0 fs

/-- `LEVEL` on a busy block's own pin is refused. -/
theorem inputLevel_of_busyPin {v : Bool} {s : State} (hb : busy s = true) :
    inputLevel s.pin v s = .refused .pinShared := if_pos (by simp [hb])

/-- `LEVEL` on any other pin makes it an output at the level. -/
theorem inputLevel_of_free {p : PinId} {v : Bool} {s : State} (free : busy s = false ∨ p ≠ s.pin) :
    inputLevel p v s = .next
      { s with
        lvl := driveLevels (if v then .set else .clr) (gpioMask p) s.lvl
        pinOut := s.pinOut ||| gpioMask p
        fellAt := if v then s.fellAt else notedFall p s.lvl s.now s.fellAt } := by
  rw [inputLevel, if_neg (by simpa [imp_iff_not_or] using free), ← markFalls_level]
  rfl

/-- Settles O46: `LEVEL` writes the level and the direction of its pin alone. -/
theorem hostSetsPinLevel : Obligations.HostSetsPinLevel := by
  intro s p v rest hi
  rw [step_level hi]
  refine ⟨fun hb hp => ?_, fun free =>
    ⟨_, inputLevel_of_free (s := { s with inputs := rest }) free, ?_, ?_, fun q hq => ⟨?_, ?_⟩, rfl⟩⟩
  · subst hp
    exact inputLevel_of_busyPin (s := { s with inputs := rest }) hb
  · refine (driveLevels_gpioMask_same _ p s.lvl).trans ?_
    cases v <;> rfl
  · simp
  · exact driveLevels_gpioMask_other _ s.lvl hq
  · simp [hq]

end Sys2Proof.Machine
end

section
/-! PROOFS of the family `20_memory`, second part: the symbols T0 and T1 as words, each one pulse on `pin_in` (R165 to
R168). -/

namespace Sys2Proof.Machine

/-! ### What an edge shows -/

/-- The records and outputs of a clock edge, as an operation leaves them that does no more than write on the GPIO port: the
sample is one stride behind the counter, `done` and `mem_re` are 0, the step-select word is the state's own. -/
structure EdgeShown (s : State) : Prop where
  sample : s.cc = s.c + s.params.stride
  cycles : s.cycles = s.c
  done : s.done = false
  memRead : s.memRead = none
  stepSel : s.stepSel = stepWord s

theorem edgeShown_clockEdge (s : State) : EdgeShown (clockEdge s) := ⟨rfl, rfl, rfl, rfl, rfl⟩

theorem EdgeShown.gpioWrite {s : State} (h : EdgeShown s) (op : GpioOp) (m : PinMask) : EdgeShown (gpioWrite op m s) :=
  { h with }

theorem EdgeShown.idleEdges {s : State} (h : EdgeShown s) (n : Nat) : EdgeShown (idleEdges n s) := by
  cases n with
  | zero => exact h
  | succ n => rw [idleEdges_succ]; exact edgeShown_clockEdge _

theorem edgeShown_pulse (p : PinId) (x y : Ticks) (s : State) : EdgeShown (pulse p x y s) :=
  ((((edgeShown_clockEdge s).gpioWrite _ _).idleEdges _).gpioWrite _ _).idleEdges _

/-! ### The edges of a pulse -/

/-- The clock edges a pulse takes, from its rise to the edge before the next pulse may rise. -/
def pulseEdges (q : Params) (high period : Ticks) : Nat :=
  edgesFor q high.toNat + 1 + (edgesFor q period.toNat - edgesFor q high.toNat - 1)

/-- An edge fewer than `edgesFor` is too few. -/
theorem mul_lt_of_lt_edgesFor {q : Params} (hq : 0 < q.ccStride) {t n : Nat} (h : n < edgesFor q t) :
    n * q.ccStride < t := by
  rw [← Nat.not_le, ← edgesFor_le_iff hq]
  omega

theorem le_edgesFor_mul {q : Params} (hq : 0 < q.ccStride) (t : Nat) : t ≤ edgesFor q t * q.ccStride :=
  (edgesFor_le_iff hq t _).mp (Nat.le_refl _)

theorem edgesFor_pos {q : Params} (hq : 0 < q.ccStride) {t : Nat} (ht : 0 < t) : 0 < edgesFor q t := by
  rw [Nat.pos_iff_ne_zero]
  intro h
  have := le_edgesFor_mul hq t
  rw [h, Nat.zero_mul] at this
  omega

/-- The pulse lasts at least its period. -/
theorem le_pulseEdges_mul {q : Params} (hq : 0 < q.ccStride) (x y : Ticks) :
    y.toNat ≤ pulseEdges q x y * q.ccStride := by
  rw [← edgesFor_le_iff hq, pulseEdges]
  omega

/-- It ends at the first edge that is a period after the rise, unless the fall itself comes later. -/
theorem pulseEdges_least {q : Params} (hq : 0 < q.ccStride) (x y : Ticks) :
    pulseEdges q x y = edgesFor q x.toNat + 1 ∨ (pulseEdges q x y - 1) * q.ccStride < y.toNat := by
  by_cases h : edgesFor q y.toNat ≤ edgesFor q x.toNat + 1
  · left; rw [pulseEdges]; omega
  · right
    apply mul_lt_of_lt_edgesFor hq
    rw [pulseEdges]
    omega

/-! ### The state after a pulse -/

/-- `n` strides, of which the first is written apart. -/
theorem add_stride_add_strides (q : Params) (x : Ticks) (n : Nat) :
    x + q.stride + BitVec.ofNat 32 (n * q.ccStride) = x + BitVec.ofNat 32 ((n + 1) * q.ccStride) := by
  rw [Params.stride, BitVec.add_assoc, ← BitVec.ofNat_add, Nat.succ_mul, Nat.add_comm]

/-- The counter `n` edges after an edge that samples `x`, and its sample, one stride before. -/
theorem EdgeShown.c_eq {s : State} (h : EdgeShown s) {x : Ticks} {n : Nat}
    (hc : s.cc = x + BitVec.ofNat 32 ((n + 1) * s.params.ccStride)) :
    s.c = x + BitVec.ofNat 32 (n * s.params.ccStride) := by
  have hs := h.sample
  rw [hc, Nat.succ_mul, BitVec.ofNat_add, ← BitVec.add_assoc] at hs
  exact (BitVec.add_left_inj s.params.stride).mp hs.symm

theorem pulse_cc_eq (p : PinId) (x y : Ticks) (s : State) :
    (pulse p x y s).cc = s.cc + BitVec.ofNat 32 (pulseEdges s.params x y * s.params.ccStride) := by
  rw [pulse_cc, add_stride_add_strides, BitVec.add_assoc, ← BitVec.ofNat_add, ← Nat.add_mul, pulseEdges]

theorem pulse_now_eq (p : PinId) (x y : Ticks) (s : State) :
    (pulse p x y s).now = s.now + pulseEdges s.params x y * s.params.ccStride := by
  rw [pulse_now, pulseEdges, Nat.add_mul, Nat.add_mul, Nat.one_mul]
  omega

theorem pulse_c_eq (p : PinId) (x y : Ticks) (s : State) :
    (pulse p x y s).c = s.cc + BitVec.ofNat 32 ((pulseEdges s.params x y - 1) * s.params.ccStride) := by
  have hc := pulse_cc_eq p x y s
  rw [← pulse_params p x y s] at hc ⊢
  refine (edgeShown_pulse p x y s).c_eq (hc.trans ?_)
  rw [Nat.sub_add_cancel]
  unfold pulseEdges
  omega

theorem idleEdges_gpio (n : Nat) (s : State) : (idleEdges n s).gpio = if n = 0 then s.gpio else none := by
  cases n <;> rfl

/-- The fall is shown on the port exactly where no edge follows it. -/
theorem pulse_gpio (p : PinId) (x y : Ticks) (s : State) :
    (pulse p x y s).gpio =
      if pulseEdges s.params x y = edgesFor s.params x.toNat + 1 then some ⟨.clr, gpioMask p⟩ else none := by
  simp [pulse, pulseEdges, idleEdges_gpio]

/-- The two writes enter the trace, the rise with the next sample, the fall with the one its high time later. -/
theorem pulse_trace (p : PinId) (x y : Ticks) (s : State) :
    (pulse p x y s).trace =
      ⟨.clr, gpioMask p, s.cc + BitVec.ofNat 32 (edgesFor s.params x.toNat * s.params.ccStride)⟩ ::
        ⟨.set, gpioMask p, s.cc⟩ :: s.trace := by
  have hc : (idleEdges (edgesFor s.params x.toNat) (gpioWrite .set (gpioMask p) (clockEdge s))).c =
      s.cc + BitVec.ofNat 32 (edgesFor s.params x.toNat * s.params.ccStride) := by
    have h := ((edgeShown_clockEdge s).gpioWrite .set (gpioMask p)).idleEdges (edgesFor s.params x.toNat)
    simpa using h.c_eq (x := s.cc) (n := edgesFor s.params x.toNat) (by simp [add_stride_add_strides])
  simp [pulse, hc]

/-- The note of the pin is the time of the fall. -/
theorem pulse_fellAt (p : PinId) (x y : Ticks) (s : State) :
    (pulse p x y s).fellAt =
      s.fellAt.set p.toNat (some (s.now + (edgesFor s.params x.toNat + 1) * s.params.ccStride)) := by
  have hhigh : (driveLevels .set (gpioMask p) s.lvl).getLsbD p.toNat = true := driveLevels_gpioMask_same .set p s.lvl
  have hnow : s.now + s.params.ccStride + edgesFor s.params x.toNat * s.params.ccStride =
      s.now + (edgesFor s.params x.toNat + 1) * s.params.ccStride := by rw [Nat.succ_mul]; omega
  simp [pulse, markFalls_set, markFalls_clr, notedFall, hhigh, hnow]

/-- A pulse on a low pin leaves every pin at its level. -/
theorem pulse_lvl_of_low {p : PinId} {s : State} (h : s.lvl.getLsbD p.toNat = false) (x y : Ticks) :
    (pulse p x y s).lvl = s.lvl := by
  rw [pulse_lvl]
  refine levels_ext fun q => ?_
  by_cases hq : q = p
  · rw [hq, driveLevels_gpioMask_same, h]; rfl
  · rw [driveLevels_gpioMask_other _ _ hq, driveLevels_gpioMask_other _ _ hq]

/-- The state after a pulse on a low pin, `n` and `m` the strides to its fall and to its end. -/
theorem pulse_eq {p : PinId} {s : State} (hl : s.lvl.getLsbD p.toNat = false) (x y : Ticks) {n m : Nat}
    (hn : n = edgesFor s.params x.toNat) (hm : m = pulseEdges s.params x y) :
    pulse p x y s = { s with
      c := s.cc + BitVec.ofNat 32 ((m - 1) * s.params.ccStride)
      cycles := s.cc + BitVec.ofNat 32 ((m - 1) * s.params.ccStride)
      cc := s.cc + BitVec.ofNat 32 (m * s.params.ccStride)
      now := s.now + m * s.params.ccStride
      done := false, memRead := none
      gpio := if m = n + 1 then some ⟨.clr, gpioMask p⟩ else none
      stepSel := stepWord (pulse p x y s)
      trace := ⟨.clr, gpioMask p, s.cc + BitVec.ofNat 32 (n * s.params.ccStride)⟩ ::
        ⟨.set, gpioMask p, s.cc⟩ :: s.trace
      fellAt := s.fellAt.set p.toNat (some (s.now + (n + 1) * s.params.ccStride)) } := by
  subst hn hm
  have shown := edgeShown_pulse p x y s
  apply State.ext <;>
    simp [pulse_c_eq, pulse_cc_eq, pulse_now_eq, pulse_gpio, pulse_trace, pulse_fellAt, pulse_lvl_of_low hl,
      shown.cycles, shown.done, shown.memRead, shown.stepSel, - pulse_cc, - pulse_now, - pulse_lvl]

/-! ### The symbols -/

/-- The symbol of a bit has the high time of the bit. -/
theorem exec_symbol (one : Bool) (s : State) :
    exec (if one then .t1 else .t0) s = symbol (fun th => targetOf th one) s := by
  cases one <;> rfl

theorem targetOf_pos {m : BitVec 8} {th : Thresholds} (h : calibrate m = some th) (b : Bool) :
    0 < (targetOf th b).toNat := by
  obtain ⟨-, rfl⟩ | ⟨-, rfl⟩ := calibrate_some h <;> cases b <;> decide

section
variable {high : Thresholds → Ticks} {s : State}

theorem symbol_of_rst (hr : s.ports.rst = true) : symbol high s = .next (resetEdge s) := if_pos hr

theorem symbol_of_busy (hr : s.ports.rst = false) (hb : busy s = true) :
    symbol high s = .refused (if s.ports.pinIn = s.pin then .pinShared else .interrupted) := by
  rw [symbol, if_neg (ne_true_of_eq_false hr), if_pos hb]

theorem symbol_of_not_output (hr : s.ports.rst = false) (hb : busy s = false)
    (ho : s.pinOut.getLsbD s.ports.pinIn.toNat = false) : symbol high s = .refused .pinNotOutput := by
  rw [symbol, if_neg (ne_true_of_eq_false hr), if_neg (ne_true_of_eq_false hb), if_pos ho]

/-- On an output pin of an idle block the word is decided by the clock code and the pin's level. -/
theorem symbol_of_output (hr : s.ports.rst = false) (hb : busy s = false)
    (ho : s.pinOut.getLsbD s.ports.pinIn.toNat = true) :
    (calibrate s.ports.cpuMhz = none → symbol high s = .refused .unsupportedClock) ∧
    ∀ th, calibrate s.ports.cpuMhz = some th →
      symbol high s = if s.lvl.getLsbD s.ports.pinIn.toNat then .refused .pinNotLow
        else .next (pulse s.ports.pinIn (high th) th.period (dropStart s)) := by
  rw [symbol, if_neg (ne_true_of_eq_false hr), if_neg (ne_true_of_eq_false hb), if_neg (ne_false_of_eq_true ho)]
  exact ⟨fun hc => by rw [hc], fun th hc => by rw [hc]⟩

end

/-- Settles O28: the refusals are the branches of `symbol`; the state after the pulse, field by field. -/
theorem symbolsArePulses : Obligations.SymbolsArePulses := by
  intro s one i hi
  rw [hi, exec_symbol]
  refine ⟨fun hr => symbol_of_rst hr, fun hr hb => symbol_of_busy hr hb, fun hr hb =>
    ⟨fun ho => symbol_of_not_output hr hb ho, fun ho =>
      ⟨fun h80 h160 => ?_, fun th hc => ⟨fun hl => ?_, fun hl hq => ?_⟩⟩⟩⟩
  · exact (symbol_of_output hr hb ho).1 (calibrate_eq_none_iff.mpr ⟨h80, h160⟩)
  · rw [(symbol_of_output hr hb ho).2 th hc, if_pos hl]
  · have hpos := edgesFor_pos hq (targetOf_pos hc one)
    refine ⟨pulse s.ports.pinIn (targetOf th one) th.period (dropStart s), edgesFor s.params (targetOf th one).toNat,
      pulseEdges s.params (targetOf th one) th.period, ?_, le_edgesFor_mul hq _, mul_lt_of_lt_edgesFor hq (by omega),
      by unfold pulseEdges; omega, le_pulseEdges_mul hq _ _, pulseEdges_least hq _ _, ?_⟩
    · rw [(symbol_of_output hr hb ho).2 th hc, if_neg (ne_true_of_eq_false hl)]
    · exact pulse_eq (s := dropStart s) hl _ _ rfl rfl

end Sys2Proof.Machine
end

section
/-! PROOFS of the family `20_memory`, third part: the buffer reads of a whole transmission (R52). Each edge makes the next of
the reads that are still to come, or none; and an edge count that falls at every edge shows that the last read is made
before the run is over. -/

namespace Sys2Proof.Machine

/-! ### The reads to come -/

/-- The read of byte `i` of the buffer at `a`. -/
def byteRead (m : Memory) (a i : Nat) : MemRead := ⟨a + i, (Memory.read m (a + i)).getD 0⟩

/-- The buffer reads a transmission in progress has still to make: the bytes from `IDX` on. -/
def pendingReads (s : State) : List MemRead :=
  if busy s then (List.range' s.idx (s.len - s.idx)).map (byteRead s.mem s.base) else []

theorem pendingReads_of_busy {s : State} (hb : busy s = true) :
    pendingReads s = (List.range' s.idx (s.len - s.idx)).map (byteRead s.mem s.base) := if_pos hb

theorem pendingReads_of_idle {s : State} (f : s.fsm = .idle) : pendingReads s = [] := by
  rw [pendingReads, busy_eq_false.mpr f, if_neg Bool.false_ne_true]

/-- While a byte is left, the read of the byte at `IDX` comes first. -/
theorem pendingReads_cons {s : State} (hb : busy s = true) (hx : s.idx < s.len) :
    pendingReads s =
      byteRead s.mem s.base s.idx :: (List.range' (s.idx + 1) (s.len - (s.idx + 1))).map (byteRead s.mem s.base) := by
  rw [pendingReads_of_busy hb, show s.len - s.idx = s.len - (s.idx + 1) + 1 by omega]
  rfl

/-- After the last byte's read none is left. -/
theorem pendingReads_of_last {s : State} (hx : s.len ≤ s.idx) : pendingReads s = [] := by
  unfold pendingReads
  rw [Nat.sub_eq_zero_of_le hx, List.range'_zero, List.map_nil, ite_self]

/-- An operation that leaves the block busy with its index as it is leaves the reads to come as they are. -/
theorem EngineNext.pendingReads_eq {s t : State} (h : EngineNext s t) (hs : busy s = true) (ht : busy t = true)
    (hi : t.idx = s.idx) : pendingReads t = pendingReads s := by
  obtain ⟨-, hbase, hlen, -, -, -⟩ := h.sameOperands hs
  rw [pendingReads_of_busy hs, pendingReads_of_busy ht, hi, hlen, hbase, h.mem_eq]

/-- Each operation of the engine, `start` low, makes the first of the reads to come, or none. -/
theorem Inv.pendingReads_engineNext {s t : State} (h : Inv s) (hs : s.ports.start = false) (hr : s.memRead = none)
    (hn : EngineNext s t) : t.memRead.toList ++ pendingReads t = pendingReads s := by
  have none_made : t.memRead = none → pendingReads t = pendingReads s →
      t.memRead.toList ++ pendingReads t = pendingReads s := fun h1 h2 => by rw [h1, h2]; rfl
  have hop := hn
  cases hn with
  | nopIdle _ _ e | spinp _ _ e | spinh _ _ e => exact none_made (e ▸ hr) (e ▸ rfl)
  | return0 _ q | beginTx _ q => rw [hs] at q; cases q
  | rise f _ e =>
    have hb := busy_eq_true.mpr (.inl f)
    exact none_made (by simp [e, riseState, hr])
      (hop.pendingReads_eq hb (by simp [e, riseState, busy]) (by simp [e, riseState]))
  | fallBit f _ _ e =>
    have hb := busy_eq_true.mpr (.inr f)
    exact none_made (by simp [e, hr]) (hop.pendingReads_eq hb (by simp [e, busy]) (by simp [e]))
  | fallByte f _ _ ne v m e =>
    have hb := busy_eq_true.mpr (.inr f)
    have hx : s.idx < s.len := Nat.lt_of_le_of_ne (h.index hb).2 ne
    have ht : busy t = true := by simp [e, busy]
    rw [h.bufAddr_eq hb hx] at m e
    rw [h.nextIndex_eq hx] at e
    rw [pendingReads_cons hb hx, pendingReads_of_busy ht, byteRead, m]
    simp [e]
  | fallEnd _ _ _ last e =>
    rw [pendingReads_of_last (Nat.le_of_eq last.symm), pendingReads_of_idle (s := t) (by simp [e])]
    simp [e, hr]

/-! ### A transmission that no input disturbs -/

/-- The ticks from `START` to the next sample. -/
def age (s : State) : Nat := (s.cc - s.startTime).toNat

/-- The comparison of an edge is one with the age. -/
theorem le_elapsed_clockEdge_iff {x : Ticks} {s : State} : x ≤ elapsed (clockEdge s) ↔ x.toNat ≤ age s := Iff.rfl

/-- A machine of stride 1 left to itself, `rst` and `start` low, whose pin, if high, has not been so for longer than its
bit's target. -/
structure LeftAlone (s : State) : Prop where
  inv : Inv s
  stride : s.params.ccStride = 1
  inputs : s.inputs = []
  running : s.ports.rst = false
  released : s.ports.start = false
  paced : s.fsm = .waith → age s ≤ (target s).toNat

/-- A bit's target is longer than nothing and shorter than the period (R22, R106). -/
theorem Inv.target_bounds {s : State} (h : Inv s) (hb : busy s = true) :
    1 ≤ (target s).toNat ∧ (target s).toNat < s.thPeriod.toNat := by
  unfold target
  obtain ⟨h1, h2, h3⟩ | ⟨h1, h2, h3⟩ := h.thresholds hb <;> rw [h1, h2, h3] <;> split <;> decide

/-- The machine always has a next state (R100). -/
theorem LeftAlone.exists_engineNext {s : State} (h : LeftAlone s) : ∃ t, EngineNext (clockEdge s) t := by
  cases f : s.fsm with
  | idle => exact ⟨_, .nopIdle f h.released rfl⟩
  | waitp =>
    by_cases g : s.thPeriod ≤ elapsed (clockEdge s)
    · exact ⟨_, .rise f g rfl⟩
    · exact ⟨_, .spinp f g rfl⟩
  | waith =>
    by_cases g : target s ≤ elapsed (clockEdge s)
    · by_cases b : s.mask = 1
      · by_cases e : s.idx = s.len
        · exact ⟨_, .fallEnd f g b e rfl⟩
        · have hb := busy_eq_true.mpr (.inr f)
          have hx : s.idx < s.len := Nat.lt_of_le_of_ne (h.inv.index hb).2 e
          obtain ⟨v, hv⟩ := Option.isSome_iff_exists.mp (h.inv.buffer hb _ hx)
          rw [← h.inv.bufAddr_eq hb hx] at hv
          exact ⟨_, .fallByte f g b e v hv rfl⟩
      · exact ⟨_, .fallBit f g b rfl⟩
    · exact ⟨_, .spinh f g rfl⟩

/-- No operation moves the counter. -/
theorem EngineNext.cc_eq {s t : State} (h : EngineNext s t) : t.cc = s.cc := by
  cases h <;> subst t <;> simp [beginState, riseState]

/-- At stride 1 the counter is one tick on after an edge. -/
theorem LeftAlone.cc_eq {s t : State} (h : LeftAlone s) (hn : EngineNext (clockEdge s) t) : t.cc = s.cc + 1 := by
  rw [hn.cc_eq, clockEdge_cc, Params.stride, h.stride]
  rfl

/-- A `START` stamped in this edge is one tick old after it. -/
theorem LeftAlone.age_of_stamped {s t : State} (h : LeftAlone s) (hn : EngineNext (clockEdge s) t)
    (hs : t.startTime = s.cc) : age t = 1 := by
  rw [age, h.cc_eq hn, hs]
  bv_omega

/-- A `START` that stands is one tick older, as long as it is younger than a period. -/
theorem LeftAlone.age_of_standing {s t : State} (h : LeftAlone s) (hn : EngineNext (clockEdge s) t)
    (hs : t.startTime = s.startTime) (hlt : age s < s.thPeriod.toNat) : age t = age s + 1 := by
  rw [age] at hlt
  rw [age, age, h.cc_eq hn, hs]
  bv_omega

/-- While the pin is high `START` is younger than a period. -/
theorem LeftAlone.age_lt {s : State} (h : LeftAlone s) (f : s.fsm = .waith) : age s < s.thPeriod.toNat :=
  Nat.lt_of_le_of_lt (h.paced f) (h.inv.target_bounds (busy_eq_true.mpr (.inr f))).2

/-- The pace is kept: a rise is one tick old after its edge, and a wait goes on only below the target. -/
theorem LeftAlone.paced_engineNext {s t : State} (h : LeftAlone s) (hn : EngineNext (clockEdge s) t)
    (ht : t.fsm = .waith) : age t ≤ (target t).toNat := by
  have hop := hn
  cases hn with
  | nopIdle f _ e | spinp f _ e => rw [e, f] at ht; cases ht
  | return0 _ q | beginTx _ q => rw [clockEdge_ports, h.released] at q; cases q
  | fallBit _ _ _ e | fallByte _ _ _ _ _ _ e | fallEnd _ _ _ _ e => rw [e] at ht; cases ht
  | rise f _ e =>
    have htgt : target t = target s := by simp [target, bit1, e, riseState]
    rw [h.age_of_stamped hop (by simp [e, riseState]), htgt]
    exact (h.inv.target_bounds (busy_eq_true.mpr (.inl f))).1
  | spinh f g e =>
    rw [le_elapsed_clockEdge_iff, Nat.not_le] at g
    rw [h.age_of_standing hop (by rw [e]; rfl) (h.age_lt f), e]
    exact g

/-- Left alone, the machine takes an edge and is left alone again. -/
theorem LeftAlone.engineNext {s t : State} (h : LeftAlone s) (hn : EngineNext (clockEdge s) t) : LeftAlone t where
  inv := h.inv.clockEdge.engineNext hn
  stride := by rw [hn.samePlatform.params]; exact h.stride
  inputs := by rw [hn.samePlatform.inputs]; exact h.inputs
  running := by rw [hn.ports_eq]; exact h.running
  released := by rw [hn.ports_eq]; exact h.released
  paced := h.paced_engineNext hn

/-! ### The edges left -/

/-- The pulses of the stream after the one being prepared or sent. -/
def pulsesAfter (s : State) : Nat := 8 * s.len - 1 - pulseNumber s

/-- At the first pulse all the others are to come. -/
theorem pulsesAfter_of_first {s : State} (hi : s.idx = 1) (hm : s.mask = 0x80) : pulsesAfter s = 8 * s.len - 1 := by
  rw [pulsesAfter, pulseNumber_of_twoPow (i := 7) (by omega) hm, hi]
  rfl

/-- A bound on the edges up to the last rise of a transmission at stride 1: a period for each pulse after this one, counted
from this one's rise, and in WAITP the wait for that rise. -/
def edgesToLastRise (s : State) : Nat :=
  match s.fsm with
  | .idle => 0
  | .waitp => s.thPeriod.toNat - age s + 1 + pulsesAfter s * s.thPeriod.toNat
  | .waith => pulsesAfter s * s.thPeriod.toNat + 1 - age s

theorem edgesToLastRise_idle {s : State} (f : s.fsm = .idle) : edgesToLastRise s = 0 := by
  rw [edgesToLastRise, f]

theorem edgesToLastRise_waitp {s : State} (f : s.fsm = .waitp) :
    edgesToLastRise s = s.thPeriod.toNat - age s + 1 + pulsesAfter s * s.thPeriod.toNat := by
  rw [edgesToLastRise, f]

theorem edgesToLastRise_waith {s : State} (f : s.fsm = .waith) :
    edgesToLastRise s = pulsesAfter s * s.thPeriod.toNat + 1 - age s := by
  rw [edgesToLastRise, f]

/-- With no edge left to the last rise no read is to come: the pulse is the last one, in the last byte. -/
theorem LeftAlone.pendingReads_of_edges {s : State} (h : LeftAlone s) (h0 : edgesToLastRise s = 0) :
    pendingReads s = [] := by
  cases f : s.fsm with
  | idle => exact pendingReads_of_idle f
  | waitp => rw [edgesToLastRise_waitp f] at h0; omega
  | waith =>
    have hb := busy_eq_true.mpr (.inr f)
    have hlast : pulsesAfter s = 0 := by
      by_contra hne
      have := Nat.le_mul_of_pos_left s.thPeriod.toNat (Nat.pos_of_ne_zero hne)
      have := h.age_lt f
      rw [edgesToLastRise_waith f] at h0
      omega
    have := h.inv.index hb
    apply pendingReads_of_last
    unfold pulsesAfter pulseNumber at hlast
    omega

/-- The pulses after this one, from the cursor and the operands, which an operation of a busy block leaves (R21, R29). -/
theorem LeftAlone.pulsesAfter_engineNext {s t : State} (h : LeftAlone s) (hb : busy s = true)
    (hn : EngineNext (clockEdge s) t) (ht : busy t = true) :
    pulsesAfter s = if s.fsm = .waith ∧ t.fsm = .waitp then pulsesAfter t + 1 else pulsesAfter t := by
  have hlen : t.len = s.len := (hn.sameOperands (s := clockEdge s) hb).len
  have hcur : pulseNumber t = if s.fsm = .waith ∧ t.fsm = .waitp then pulseNumber s + 1 else pulseNumber s :=
    h.inv.clockEdge.pulseNumber_engineNext hb hn ht
  have hin := (h.engineNext hn).inv.pulseNumber_lt ht
  unfold pulsesAfter
  split at hcur <;> rename_i hc
  · rw [if_pos hc]; omega
  · rw [if_neg hc]; omega

/-- Each edge leaves one edge fewer. -/
theorem LeftAlone.edgesToLastRise_engineNext {s t : State} (h : LeftAlone s) (hn : EngineNext (clockEdge s) t) :
    edgesToLastRise t ≤ edgesToLastRise s - 1 := by
  have hop := hn
  have hper (hb : busy s = true) : t.thPeriod = s.thPeriod := (hop.sameOperands (s := clockEdge s) hb).thPeriod
  cases hn with
  | nopIdle f _ e => rw [edgesToLastRise_idle (by rw [e]; exact f)]; exact Nat.zero_le _
  | fallEnd _ _ _ _ e => rw [edgesToLastRise_idle (by rw [e]; rfl)]; exact Nat.zero_le _
  | return0 _ q | beginTx _ q => rw [clockEdge_ports, h.released] at q; cases q
  | spinp f g e =>
    replace f : s.fsm = .waitp := f
    have hb := busy_eq_true.mpr (.inl f)
    have ht : t.fsm = .waitp := by rw [e]; exact f
    have hlt : age s < s.thPeriod.toNat := Nat.not_le.mp (mt le_elapsed_clockEdge_iff.mpr g)
    rw [edgesToLastRise_waitp f, edgesToLastRise_waitp ht, h.age_of_standing hop (by rw [e]; rfl) hlt,
      h.pulsesAfter_engineNext hb hop (busy_eq_true.mpr (.inl ht)), if_neg (by simp [f]), hper hb]
    omega
  | rise f g e =>
    replace f : s.fsm = .waitp := f
    have hb := busy_eq_true.mpr (.inl f)
    have ht : t.fsm = .waith := by rw [e]; rfl
    rw [le_elapsed_clockEdge_iff] at g
    rw [edgesToLastRise_waitp f, edgesToLastRise_waith ht, h.age_of_stamped hop (by rw [e]; rfl),
      h.pulsesAfter_engineNext hb hop (busy_eq_true.mpr (.inr ht)), if_neg (by simp [f]), hper hb]
    omega
  | spinh f g e =>
    replace f : s.fsm = .waith := f
    have hb := busy_eq_true.mpr (.inr f)
    have ht : t.fsm = .waith := by rw [e]; exact f
    rw [edgesToLastRise_waith f, edgesToLastRise_waith ht, h.age_of_standing hop (by rw [e]; rfl) (h.age_lt f),
      h.pulsesAfter_engineNext hb hop (busy_eq_true.mpr (.inr ht)), if_neg (by simp [ht]), hper hb]
    omega
  | fallBit f _ _ e | fallByte f _ _ _ _ _ e =>
    replace f : s.fsm = .waith := f
    have hb := busy_eq_true.mpr (.inr f)
    have ht : t.fsm = .waitp := by rw [e]; rfl
    have hlt := h.age_lt f
    rw [edgesToLastRise_waith f, edgesToLastRise_waitp ht, h.age_of_standing hop (by simp [e]) hlt,
      h.pulsesAfter_engineNext hb hop (busy_eq_true.mpr (.inl ht)), if_pos ⟨f, ht⟩, hper hb, Nat.succ_mul]
    omega

/-! ### The reads of a run -/

theorem readsAlong_succ {s t : State} (h : step s = .next t) (n : Nat) :
    readsAlong (n + 1) s = t.memRead.toList ++ readsAlong n t := by
  rw [readsAlong, h]

/-- Left alone for as many edges as there are to the last rise, or for more, the machine makes the reads to come. -/
theorem LeftAlone.readsAlong_eq {s : State} (h : LeftAlone s) {n : Nat} (hle : edgesToLastRise s ≤ n) :
    readsAlong n s = pendingReads s := by
  induction n generalizing s with
  | zero => rw [h.pendingReads_of_edges (Nat.le_zero.mp hle), readsAlong]
  | succ n ih =>
    obtain ⟨t, hn⟩ := h.exists_engineNext
    have hleft := h.edgesToLastRise_engineNext hn
    rw [readsAlong_succ ((step_next_iff h.inputs h.running).mpr hn), ih (h.engineNext hn) (by omega)]
    exact h.inv.clockEdge.pendingReads_engineNext h.released rfl hn

/-! ### The accepting step -/

/-- A word from outside that decodes to an instruction is that instruction's meaning, the input taken. -/
theorem step_word {s : State} {f : Format} {w : Nat} {rest : List Input} {i : Instr}
    (hi : s.inputs = .word f w :: rest) (hf : f ≠ .step) (hd : decode s.params f w = .ok i) :
    step s = exec i { s with inputs := rest } := by
  unfold step cycle
  rw [hi]
  show runWord f w { s with inputs := rest } = _
  rw [runWord, if_neg hf, hd]

/-- An edge with `rst` low that one of the nine cases describes. -/
theorem engineEdge_of_engineNext {s t : State} (hr : s.ports.rst = false) (h : EngineNext (clockEdge s) t) :
    engineEdge s = .next t := by
  rw [engineEdge, if_neg (ne_true_of_eq_false hr), engineCase_next_iff.mpr h]

/-- Operands of the ports' widths stand on the ports as they are (R32). -/
theorem Ports.fit_of_lt {q : Params} {p : Ports} (ha : p.baseIn < q.addrSpace) (hl : p.lenIn < q.lenSpace) :
    Ports.fit q p = p := by
  rw [Ports.fit, Nat.mod_eq_of_lt ha, Nat.mod_eq_of_lt hl]

/-- TRANSMIT of a ready command in an idle block, as an equation of states: BEGIN in the accepting step (R98, R123). -/
theorem execTransmit_accepted {s : State} {p : PinId} {a l : Nat} {th : Thresholds} {b : Byte} (f : s.fsm = .idle)
    (hr : s.ports.rst = false) (pos : l ≠ 0) (ha : a < s.params.addrSpace) (hl : l < s.params.lenSpace)
    (ready : TxReady p a l (clockEdge (takeSample s))) (hc : calibrate s.ports.cpuMhz = some th)
    (hm : Memory.read s.mem a = some b) :
    execTransmit p a l s = .next { s with
      fsm := .waitp
      pin := p, base := a, len := l
      thShort := th.short, thLong := th.long, thPeriod := th.period, calResult := th
      startTime := 0, cur := b, idx := 1, mask := 0x80
      ports := { s.ports with start := false, pinIn := p, baseIn := a, lenIn := l }
      ccNext := none
      c := acceptSample s, cycles := acceptSample s
      cc := acceptSample s + BitVec.ofNat 32 s.params.ccStride
      now := s.now + (acceptSample s - s.cc).toNat + s.params.ccStride
      done := false, gpio := none, memRead := some ⟨a, b⟩
      stepSel := (clockEdge (present p a l (takeSample s))).stepSel } := by
  have hfit : Ports.fit s.params { s.ports with start := true, pinIn := p, baseIn := a, lenIn := l } =
      { s.ports with start := true, pinIn := p, baseIn := a, lenIn := l } := Ports.fit_of_lt ha hl
  have hports : (present p a l (takeSample s)).ports =
      { s.ports with start := true, pinIn := p, baseIn := a, lenIn := l } := by simp [hfit]
  have hn : EngineNext (clockEdge (present p a l (takeSample s)))
      (beginState th b (clockEdge (present p a l (takeSample s)))) := by
    refine .beginTx (by simpa using f) ?_ ?_ ?_ th b ?_ ?_ rfl <;> rw [clockEdge_ports, hports]
    · exact pos
    · exact { ready with clock := by simpa [hfit] using ready.clock }
    · exact hc
    · simpa using hm
  rw [execTransmit, engineEdge_of_engineNext (by rw [hports]; exact hr) hn, mapNext, Host.Outcome.next.injEq]
  apply State.ext <;> simp [beginState, dropStart, takeSample_idle f hr, hfit, Params.stride]

/-! ### The presented command -/

section
variable {s : State} {p : PinId} {a l : Nat} {bytes : List Byte} {th : Thresholds} {last : Bool}

/-- The reads of the whole buffer, byte by byte. -/
theorem Presented.reads_eq (h : Presented s p a l bytes th last) :
    (List.range l).map (byteRead s.mem a) = List.zipWith (fun i b => ⟨a + i, b⟩) (List.range l) bytes := by
  apply List.ext_getElem
  · simp [h.length]
  · intro i hi hi'
    rw [List.length_map, List.length_range] at hi
    have hb : i < bytes.length := h.length.symm ▸ hi
    simp [byteRead, h.stored i hi, hb]

/-- The command is accepted: byte 0 is read, the others are to come, and the first rise is as far away as `START` 0 puts
it (R123, R135). -/
theorem Presented.accepted (h : Presented s p a l bytes th last) :
    ∃ t, step s = .next t ∧ LeftAlone t ∧
      t.memRead.toList ++ pendingReads t = (List.range l).map (byteRead s.mem a) ∧
      edgesToLastRise t =
        th.period.toNat - (acceptSample s + 1).toNat + 1 + (8 * l - 1) * th.period.toNat := by
  obtain ⟨ha, hl⟩ : a < s.params.addrSpace ∧ l < s.params.lenSpace := by simpa [Instr.operandsFit] using h.fits
  obtain ⟨b, hb⟩ := Option.isSome_iff_exists.mp (h.ready.buffer 0 h.positive)
  have hm : Memory.read s.mem a = some b := by simpa using hb
  have ready : TxReady p a l (clockEdge (takeSample { s with inputs := [] })) := by
    have hr := h.ready
    rw [takeSample_idle h.idle h.running] at hr
    rw [takeSample_idle (s := { s with inputs := [] }) h.idle h.running]
    exact { hr with }
  have hstep := (step_word h.input (by simp) (decode_encode_transmit h.fits)).trans
    (execTransmit_accepted (s := { s with inputs := [] }) h.idle h.running (Nat.ne_of_gt h.positive) ha hl ready
      h.clock hm)
  refine ⟨_, hstep, ?_, ?_, ?_⟩
  · exact
      { inv := invariantKeptByEveryStep s _ h.inv hstep
        stride := h.stride
        inputs := rfl
        running := h.running
        released := rfl
        paced := nofun }
  · have hrange : List.range l = 0 :: List.range' 1 (l - 1) := by
      rw [List.range_eq_range', ← Nat.succ_pred_eq_of_pos h.positive]; rfl
    have hfirst : byteRead s.mem a 0 = ⟨a, b⟩ := by rw [byteRead, Nat.add_zero, hm]; rfl
    rw [pendingReads_of_busy rfl, hrange, List.map_cons, hfirst]
    rfl
  · have hage : acceptSample s + BitVec.ofNat 32 s.params.ccStride - 0 = acceptSample s + 1 := by
      rw [h.stride]; exact BitVec.sub_zero _
    rw [edgesToLastRise_waitp rfl, pulsesAfter_of_first rfl rfl, age, ← hage]
    rfl

end

/-- Settles O56: the reads of the accepting step and, in order, those to come, all of which are made in the edges that are
left of the run. -/
theorem bufferIsReadOnceInOrder : Obligations.BufferIsReadOnceInOrder := by
  intro s p a l bytes th last h
  obtain ⟨t, hstep, alone, hreads, hedges⟩ := h.accepted
  have hrise : (firstRise th (acceptSample s) - (acceptSample s + 1)).toNat =
      th.period.toNat - (acceptSample s + 1).toNat := by
    unfold firstRise
    split <;> bv_omega
  obtain ⟨n, hn⟩ : ∃ n, transmissionSteps th (acceptSample s) (8 * l) last = n + 1 :=
    ⟨_, Nat.succ_pred (by unfold transmissionSteps; omega) |>.symm⟩
  rw [hn, readsAlong_succ hstep, alone.readsAlong_eq (by unfold transmissionSteps at hn; omega), hreads, h.reads_eq]

end Sys2Proof.Machine
end

section
/-! PROOFS of the family `30_encoding`, first part: what each format's words decode to, read back as words (R70 to R78) and
held against the rows of the opcode table (R73 to R78, R85). -/

namespace Sys2Proof

/-! ### `STEP` words -/

theorem decode_step {q : Params} {w : Nat} (h : w < 2 ^ Format.step.width q) : decode q .step w = decodeStep w :=
  if_pos h

/-- A word of seven bits is its fields packed (R72). -/
theorem packStep_fields (w : Nat) :
    packStep (w / 32) (w.testBit 4) (w.testBit 3) (w.testBit 2) (w.testBit 1) (w.testBit 0) = w := by
  simp only [packStep, Nat.toNat_testBit]
  omega

/-- Three of the four codes are a state's (R28, R74). -/
theorem exists_code {n : Nat} (h : n < 3) : ∃ f : Machine.FsmState, f.code = n := by
  match n, h with
  | 0, _ => exact ⟨.idle, rfl⟩
  | 1, _ => exact ⟨.waitp, rfl⟩
  | 2, _ => exact ⟨.waith, rfl⟩

/-- A `STEP` word packs a state and five bits, or has the reserved code in its state field (R72, R81). -/
theorem packStep_or_reserved {q : Params} {w : Nat} (h : w < 2 ^ Format.step.width q) :
    (∃ (f : Machine.FsmState) (t z g b e : Bool), w = packStep f.code t z g b e) ∨
      (w / 32 = 3 ∧ decode q .step w = .rejected .reservedState) := by
  by_cases hs : w / 32 < 3
  · obtain ⟨f, hf⟩ := exists_code hs
    exact .inl ⟨f, _, _, _, _, _, (hf ▸ packStep_fields w).symm⟩
  · have h3 : w / 32 = 3 := by
      replace h : w < 128 := h
      omega
    refine .inr ⟨h3, ?_⟩
    rw [decode_step h]
    unfold decodeStep
    rw [h3]
    rfl

/-- The operation selected by a state and five bits has the word that packs them, and needs no operand to fit. -/
theorem encode_selectedOf (q : Params) (f : Machine.FsmState) (t z g b e : Bool) :
    (Machine.selectedOf f t z g b e).format = .step ∧
      encode q (Machine.selectedOf f t z g b e) = packStep f.code t z g b e ∧
      (Machine.selectedOf f t z g b e).operandsFit q = true := by
  cases f
  case idle => cases t <;> cases z <;> exact ⟨rfl, rfl, rfl⟩
  case waitp => cases g <;> exact ⟨rfl, rfl, rfl⟩
  case waith => cases g <;> cases b <;> cases e <;> exact ⟨rfl, rfl, rfl⟩

/-! ### Words of the other formats -/

/-- The three fields of a `CMD` word, put together again (R71). -/
theorem encode_cmd_fields (q : Params) {w : Nat} (h : w < 2 ^ Format.cmd.width q) :
    encode q (.transmit (BitVec.ofNat 4 (w / 2 ^ (q.addrW + q.lenW))) (w / 2 ^ q.lenW % 2 ^ q.addrW)
      (w % 2 ^ q.lenW)) = w := by
  have hpin : w / 2 ^ (q.addrW + q.lenW) < 2 ^ 4 := by
    rw [Nat.div_lt_iff_lt_mul (Nat.two_pow_pos _), ← Nat.pow_add, ← Nat.add_assoc]
    exact h
  have hhigh : w / 2 ^ (q.addrW + q.lenW) * 2 ^ q.addrW + w / 2 ^ q.lenW % 2 ^ q.addrW = w / 2 ^ q.lenW := by
    rw [Nat.add_comm q.addrW, Nat.pow_add, ← Nat.div_div_eq_div_mul, Nat.div_add_mod']
  rw [encode, BitVec.toNat_ofNat, Nat.mod_eq_of_lt hpin, Nat.pow_add, ← Nat.mul_assoc, ← Nat.add_mul,
    ← Nat.pow_add, hhigh, Nat.div_add_mod']

/-- A `GPW` word is its top bit and its mask (R75). -/
theorem encode_gpw_fields (q : Params) {w : Nat} (h : w < 2 ^ Format.gpw.width q) :
    encode q (if w.testBit 16 then .setHigh (BitVec.ofNat 16 w) else .setLow (BitVec.ofNat 16 w)) = w := by
  replace h : w < 2 ^ 17 := h
  have hbit : (w.testBit 16).toNat = w / 2 ^ 16 := by
    rw [Nat.toNat_testBit]
    omega
  have hmask : (BitVec.ofNat 16 w).toNat = w % 2 ^ 16 := BitVec.toNat_ofNat ..
  cases ht : w.testBit 16 <;> rw [ht] at hbit
  · rw [if_neg Bool.false_ne_true, encode, hmask]
    simp only [Bool.toNat_false] at hbit
    omega
  · rw [if_pos rfl, encode, hmask]
    simp only [Bool.toNat_true] at hbit
    omega

theorem decode_fsm {q : Params} {w : Nat} (h : w < 2 ^ Format.fsm.width q) : decode q .fsm w = decodeFsm w := if_pos h

theorem decode_frq {q : Params} {w : Nat} (h : w < 2 ^ Format.frq.width q) : decode q .frq w = decodeFrq w := if_pos h

theorem decode_sym {q : Params} {w : Nat} (h : w < 2 ^ Format.sym.width q) :
    decode q .sym w = .ok (if w = 1 then .t1 else .t0) := if_pos h

/-- The state codes that decode (R74). -/
theorem decodeFsm_ok {w : Nat} {i : Instr} (h : decodeFsm w = .ok i) :
    (w = 0 ∧ i = .stateIdle) ∨ (w = 1 ∧ i = .stateWaitp) ∨ (w = 2 ∧ i = .stateWaith) := by
  unfold decodeFsm at h
  split at h <;> cases h <;> simp

/-- The clock codes that decode (R76). -/
theorem decodeFrq_ok {w : Nat} {i : Instr} (h : decodeFrq w = .ok i) :
    (w = 0x50 ∧ i = .freq80) ∨ (w = 0xA0 ∧ i = .freq160) := by
  unfold decodeFrq at h
  split at h
  · cases h; exact .inl ⟨‹_›, rfl⟩
  · split at h <;> cases h
    exact .inr ⟨‹_›, rfl⟩

/-- A word that decodes fits its format (R70). -/
theorem lt_width_of_decode {q : Params} {f : Format} {w : Nat} {i : Instr} (h : decode q f w = .ok i) :
    w < 2 ^ f.width q := by
  unfold decode at h
  split at h
  · assumption
  · cases h

/-- Settles O2, format by format: the fields that the decoder takes apart are the word when they are put together again,
and a code of a format without fields is the one it stands for. -/
theorem encodeOfDecodeIsIdentity : Obligations.EncodeOfDecodeIsIdentity := by
  intro q f w i h
  have hw := lt_width_of_decode h
  cases f with
  | cmd =>
    rw [decode_cmd hw, decodeCmd] at h
    cases h
    refine ⟨rfl, encode_cmd_fields q hw, ?_⟩
    rw [Instr.operandsFit, Bool.and_eq_true, decide_eq_true_eq, decide_eq_true_eq]
    exact ⟨Nat.mod_lt _ q.addrSpace_pos, Nat.mod_lt _ q.lenSpace_pos⟩
  | step =>
    obtain ⟨f, t, z, g, b, e, rfl⟩ | ⟨-, hr⟩ := packStep_or_reserved hw
    · rw [Machine.decode_packStep] at h
      cases h
      exact encode_selectedOf q f t z g b e
    · rw [hr] at h; cases h
  | fsm =>
    rw [decode_fsm hw] at h
    obtain ⟨rfl, rfl⟩ | ⟨rfl, rfl⟩ | ⟨rfl, rfl⟩ := decodeFsm_ok h <;> exact ⟨rfl, rfl, rfl⟩
  | gpw =>
    rw [decode_gpw hw] at h
    cases h
    refine ⟨?_, encode_gpw_fields q hw, ?_⟩ <;> cases w.testBit 16 <;> rfl
  | frq =>
    rw [decode_frq hw] at h
    obtain ⟨rfl, rfl⟩ | ⟨rfl, rfl⟩ := decodeFrq_ok h <;> exact ⟨rfl, rfl, rfl⟩
  | cal =>
    rw [decode_cal hw] at h
    cases h
    exact ⟨rfl, (BitVec.toNat_ofNat ..).trans (Nat.mod_eq_of_lt hw), rfl⟩
  | sym =>
    rw [decode_sym hw] at h
    cases h
    replace hw : w < 2 := hw
    obtain rfl | rfl : w = 0 ∨ w = 1 := by omega
    all_goals exact ⟨rfl, rfl, rfl⟩
  | ctr =>
    rw [decode_ctr hw] at h
    cases h
    exact ⟨rfl, (BitVec.toNat_ofNat ..).trans (Nat.mod_eq_of_lt hw), rfl⟩

/-! ### The rows of the opcode table -/

/-- The rows of one format. -/
def rowsOf (f : Format) : List OpRow := opRows.filter fun r => r.fmt == f

/-- The rows that select a word are those of its format whose match it meets under their mask. -/
theorem filter_selects (f : Format) (w : Nat) :
    opRows.filter (fun r => r.selects f w) = (rowsOf f).filter fun r => w &&& r.mask == r.pattern := by
  rw [rowsOf, List.filter_filter]
  congr 1
  funext r
  exact Bool.and_comm ..

/-- What the table has to say of a word with this answer of the decoder: the row of the instruction, or none. -/
def Decoded.rows : Decoded → List String
  | .ok i => [i.mnemonic]
  | .rejected _ => []

/-- The rows that select the word `w` are those the decoder's answer `d` asks for. -/
abbrev FollowsTable (f : Format) (w : Nat) (d : Decoded) : Prop :=
  (opRows.filter fun r => r.selects f w).map (·.mnemonic) = d.rows

/-- A `STEP` word with one of the three states in its state field is selected by the row of its operation (R73). -/
theorem followsTable_packStep (f : Machine.FsmState) (t z g b e : Bool) :
    FollowsTable .step (packStep f.code t z g b e) (.ok (Machine.selectedOf f t z g b e)) := by
  revert t z g b e
  cases f <;> decide

/-- One with the reserved code there is selected by no row: every row asks for a bit of the field that is clear (R81). -/
theorem followsTable_reservedStep {w : Nat} (h : w / 32 = 3) : FollowsTable .step w (.rejected .reservedState) := by
  obtain ⟨k, hk, rfl⟩ : ∃ k < 32, w = 96 + k := ⟨w - 96, by omega, by omega⟩
  clear h
  revert k
  decide

/-- A format's only row, its mask 0, selects every word of the format. -/
theorem followsTable_of_mask_zero {f : Format} {i : Instr} (h : rowsOf f = [⟨f, i.mnemonic, 0, 0⟩]) (w : Nat) :
    FollowsTable f w (.ok i) := by
  rw [FollowsTable, filter_selects, h]
  simp [Decoded.rows]

/-- The two rows of `GPW` ask for the top bit (R75). -/
theorem followsTable_gpw (w : Nat) :
    FollowsTable .gpw w (.ok (if w.testBit 16 then .setHigh (BitVec.ofNat 16 w) else .setLow (BitVec.ofNat 16 w))) := by
  have hrows : rowsOf .gpw = [⟨.gpw, "SET_HIGH", 2 ^ 16, 2 ^ 16⟩, ⟨.gpw, "SET_LOW", 0, 2 ^ 16⟩] := by decide
  rw [FollowsTable, filter_selects, hrows]
  simp only [List.filter, Nat.and_two_pow]
  cases w.testBit 16 <;> rfl

/-- The two rows of `FRQ` ask for their code: their mask keeps the whole word (R76). -/
theorem followsTable_frq {w : Nat} (h : w < 2 ^ 8) : FollowsTable .frq w (decodeFrq w) := by
  have hrows : rowsOf .frq = [⟨.frq, "FREQ80", 0x50, 0xFF⟩, ⟨.frq, "FREQ160", 0xA0, 0xFF⟩] := by decide
  have hkeep : w &&& 0xFF = w := Nat.and_two_pow_sub_one_of_lt_two_pow h
  unfold decodeFrq
  split
  · subst w; decide
  · split
    · subst w; decide
    · rename_i h1 h2
      rw [FollowsTable, filter_selects, hrows]
      simp [hkeep, h1, h2, Decoded.rows]

/-- The decoder follows the table, format by format: the formats of one row with mask 0 take every word, the others are
told apart by the bits their masks keep. -/
theorem followsTable_decode {q : Params} {f : Format} {w : Nat} (h : w < 2 ^ f.width q) :
    FollowsTable f w (decode q f w) := by
  cases f with
  | cmd => rw [decode_cmd h, decodeCmd]; exact followsTable_of_mask_zero rfl w
  | cal => rw [decode_cal h]; exact followsTable_of_mask_zero rfl w
  | ctr => rw [decode_ctr h]; exact followsTable_of_mask_zero rfl w
  | step =>
    obtain ⟨f, t, z, g, b, e, rfl⟩ | ⟨h3, hr⟩ := packStep_or_reserved h
    · rw [Machine.decode_packStep]; exact followsTable_packStep f t z g b e
    · rw [hr]; exact followsTable_reservedStep h3
  | gpw => rw [decode_gpw h]; exact followsTable_gpw w
  | frq => rw [decode_frq h]; exact followsTable_frq h
  | sym =>
    rw [decode_sym h]
    replace h : w < 2 := h
    clear q
    revert w
    decide
  | fsm =>
    rw [decode_fsm h]
    replace h : w < 4 := h
    clear q
    revert w
    decide

/-- Settles O3: `followsTable_decode`, by what the decoder answers. -/
theorem decoderFollowsOpcodeTable : Obligations.DecoderFollowsOpcodeTable := by
  intro q f w h
  have key := followsTable_decode h
  refine ⟨fun i hi => ?_, fun e he => ?_⟩
  · rwa [hi] at key
  · rw [he] at key
    exact List.map_eq_nil_iff.mp key

/-- Settles O4: the words and what they decode to are written out. -/
theorem writtenWordsDecode : Obligations.WrittenWordsDecode := by
  unfold Obligations.WrittenWordsDecode
  decide

end Sys2Proof
end

section
/-! PROOFS of the family `30_encoding`, second part: what one step runs (R72, R73, R120), the clock codes, and the command
with the sample of its accepting step (R84, R98). -/

namespace Sys2Proof.Machine

/-! ### The operation of a step -/

/-- The high time of the current bit, with R31's `bit1` written out. -/
theorem target_eq (s : State) : target s = if (s.cur &&& s.mask) ≠ 0 then s.thLong else s.thShort := by
  simp [target, bit1]

/-- Settles O6: the written-out step of `engineCase` on the sampled state, whose registers and ports are those of `s`. -/
theorem decodeTableIsStepAlgorithm : Obligations.DecodeTableIsStepAlgorithm := by
  intro s hi hr
  rw [step_eq_engineCase hi hr, ← target_eq]
  rfl

/-- A step whose first input is a word is that word, the input taken. -/
theorem step_runWord {s : State} {f : Format} {w : Nat} {rest : List Input} (hi : s.inputs = .word f w :: rest) :
    step s = runWord f w { s with inputs := rest } := by
  unfold step cycle
  rw [hi]

/-- A word that decodes to nothing is refused, but for a reserved clock code (R81). -/
theorem runWord_rejected {s : State} {f : Format} {w : Nat} {e : DecodeError} (hf : f ≠ .step)
    (hd : decode s.params f w = .rejected e) (he : e ≠ .reservedClock) :
    runWord f w s = .refused .reservedEncoding := by
  rw [runWord, if_neg hf, hd]
  cases e with
  | reservedClock => exact absurd rfl he
  | tooWide | reservedState => rfl

/-- A reserved clock code goes on the port (R81, U23). -/
theorem runWord_reservedClock {s : State} {f : Format} {w : Nat} (hf : f ≠ .step)
    (hd : decode s.params f w = .rejected .reservedClock) :
    runWord f w s = .next (setCpuMhz (BitVec.ofNat 8 w) s) := by
  rw [runWord, if_neg hf, hd]

/-- Settles O5: the step-select word decodes to the selected operation, and the other four clauses are the cases of
`runWord`. -/
theorem stepRunsDecodedInstruction : Obligations.StepRunsDecodedInstruction := by
  refine ⟨fun s hi hr => ?_, fun s f w rest i hi hf hd => step_word hi hf hd, fun s f w rest hi hf hd => ?_,
    fun s f w rest e hi hf hd he => ?_, fun s w rest hi => ?_⟩
  · refine ⟨selected (clockEdge s), decode_stepWord _ _, ?_⟩
    rw [step_eq_engineCase hi hr, exec_selected]
  · rw [step_runWord hi]
    exact runWord_reservedClock (s := { s with inputs := rest }) hf hd
  · rw [step_runWord hi]
    exact runWord_rejected (s := { s with inputs := rest }) hf hd he
  · rw [step_runWord hi, runWord, if_pos rfl]

/-! ### The clock codes -/

/-- Settles O24: each word is `setCpuMhz` of its code. -/
theorem frequencyCodesOnPort : Obligations.FrequencyCodesOnPort := fun _ => ⟨rfl, rfl⟩

/-- A step whose first input is a `FREQ` is that change of the clock, the input taken. -/
theorem step_freq {s : State} {m : BitVec 8} {rest : List Input} (hi : s.inputs = .freq m :: rest) :
    step s = inputFreq m { s with inputs := rest } := by
  unfold step cycle
  rw [hi]

/-- Settles O48: a busy block refuses another rate, and `setClock` notes a phase exactly where the rate changes. -/
theorem hostSetsClock : Obligations.HostSetsClock := by
  intro s m rest hi
  rw [step_freq hi, inputFreq]
  refine ⟨fun hb hm => if_pos ?_, fun hm => ?_, fun hb hm => ?_⟩
  · rw [Bool.and_eq_true, bne_iff_ne]
    exact ⟨hb, hm⟩
  · subst hm
    rw [if_neg (by simp), setClock, if_pos rfl]
    rfl
  · have hidle : busy { s with inputs := rest } = false := hb
    rw [if_neg (by simp [hidle]), setClock, if_neg hm]
    rfl

/-! ### The command and the sample of its accepting step -/

/-- The word the engine forms at an edge that presents a command of non-zero length to an idle block: `start` and the
conditions of the mask and the index (R72). -/
theorem stepSel_present_toNat {s : State} {p : PinId} {a l : Nat} (f : s.fsm = .idle) (pos : l ≠ 0)
    (hl : l < s.params.lenSpace) :
    (clockEdge (present p a l s)).stepSel.toNat =
      16 + (if s.mask = 1 then 2 else 0) + (if s.idx = s.len then 1 else 0) := by
  have hz : lenz (present p a l s) = false := by
    simp [lenz, Ports.fit, Nat.mod_eq_of_lt hl, pos]
  have hg : ge (clockEdge (present p a l s)) = false := ge_of_idle f
  have hm : lastbit (present p a l s) = decide (s.mask = 1) := rfl
  have hi : lastbyte (present p a l s) = decide (s.idx = s.len) := rfl
  have hs : (clockEdge (present p a l s)).ports.start = true := rfl
  have hf : (clockEdge (present p a l s)).fsm.code = 0 := by rw [clockEdge_fsm, present_fsm, f]; rfl
  rw [clockEdge_stepSel_eq, stepWord_toNat, lenz_clockEdge, lastbit_clockEdge, lastbyte_clockEdge, hz, hg, hm, hi, hs, hf]
  simp only [packStep, Bool.toNat, Bool.cond_decide]
  split <;> split <;> rfl

/-- Settles O31: the accepted state is that of `execTransmit_accepted`, with the thresholds of the clock, the first byte of
the ready buffer, and the step-select word of the accepting edge. -/
theorem transmitIsAccepted : Obligations.TransmitIsAccepted := by
  intro p a l s f hr pos ha hl ready
  obtain ⟨th, v, hc, hv⟩ := ready.operands pos
  rw [clockEdge_ports, takeSample_ports] at hc
  rw [clockEdge_mem, takeSample_mem] at hv
  refine ⟨th, v, _, ?_, hv, ?_, execTransmit_accepted f hr pos ha hl ready hc hv⟩
  · obtain ⟨hm, rfl⟩ | ⟨hm, rfl⟩ := calibrate_some hc <;> rw [hm] <;> rfl
  · rw [stepSel_present_toNat ((takeSample_fsm s).trans f) pos ((takeSample_params s).symm ▸ hl),
      takeSample_mask, takeSample_idx, takeSample_len]

/-- No operation of the engine uses up a `CC` (R84). -/
theorem EngineNext.ccNext_eq {s t : State} (h : EngineNext s t) : t.ccNext = s.ccNext := by
  cases h <;> subst t <;> simp [beginState, riseState]

/-- No operation samples the counter: the sample is that of its clock edge (R120). -/
theorem EngineNext.c_eq {s t : State} (h : EngineNext s t) : t.c = s.c := by
  cases h <;> subst t <;> simp [beginState, riseState]

/-- Settles O59: no operation touches the sample of its edge, and the word's edge samples what `takeSample` has put on the
counter. -/
theorem ccSetsSampleOfNextCommand : Obligations.CcSetsSampleOfNextCommand := by
  refine ⟨fun s v rest hi => ?_, fun s t hi hr h => ?_, fun p a l s t f hr h => ?_⟩
  · unfold step cycle
    rw [hi]
    rfl
  · have hn := (step_next_iff hi hr).mp h
    exact ⟨hn.ccNext_eq, hn.c_eq⟩
  · obtain ⟨u, hu, rfl⟩ := mapNext_next h
    obtain ⟨hrst, -⟩ | ⟨-, hn⟩ := engineEdge_next hu
    · rw [present_ports, takeSample_ports] at hrst
      exact absurd hrst (ne_true_of_eq_false hr)
    · have hc : u.c = acceptSample s := by rw [hn.c_eq]; simp [takeSample_idle f hr]
      refine ⟨?_, ?_, ?_⟩
      · rw [dropStart_ccNext, hn.ccNext_eq]
        simp [takeSample_idle f hr]
      · rw [dropStart_c, hc, acceptSample]
        cases s.ccNext <;> rfl
      · rw [dropStart_cc, dropStart_c, hc, hn.cc_eq]
        simp [takeSample_idle f hr, Params.stride]

end Sys2Proof.Machine
end

section
/-! PROOFS of the family `30_encoding`, third part: the inputs that let clock edges pass: `GAP` in an idle block (R84, R159)
and the wait for `done` (R84, R100, R102). -/

namespace Sys2Proof.Machine

/-! ### An edge, whatever inputs are left -/

/-- With `rst` low an edge gives `t` exactly when one of the nine cases does. -/
theorem edge_next_iff {s t : State} (hr : s.ports.rst = false) : edge s = .next t ↔ EngineNext (clockEdge s) t := by
  rw [edge, if_neg (ne_true_of_eq_false hr), clockEdge_stepSel_eq, decode_stepWord]
  show exec (selected (clockEdge s)) (clockEdge s) = .next t ↔ _
  rw [exec_selected, engineCase_next_iff]

/-- `s` with other inputs left. -/
def withInputs (is : List Input) (s : State) : State := { s with inputs := is }

/-- No operation of the engine looks at the inputs that are left. -/
theorem EngineNext.withInputs {s t : State} (h : EngineNext s t) (is : List Input) :
    EngineNext (withInputs is s) (withInputs is t) := by
  cases h with
  | nopIdle f r h => exact .nopIdle f r (h ▸ rfl)
  | return0 f r l h => exact .return0 f r l (h ▸ rfl)
  | beginTx f r l ready th b c m h => exact .beginTx f r l { ready with } th b c m (h ▸ rfl)
  | spinp f g h => exact .spinp f g (h ▸ rfl)
  | rise f g h => exact .rise f g (h ▸ rfl)
  | spinh f g h => exact .spinh f g (h ▸ rfl)
  | fallBit f g b h => exact .fallBit f g b (h ▸ rfl)
  | fallByte f g b e v m h => exact .fallByte f g b e v m (h ▸ rfl)
  | fallEnd f g b e h => exact .fallEnd f g b e (h ▸ rfl)

/-- An edge passes with any inputs left as it does with others. -/
theorem edge_withInputs {s t : State} (is : List Input) (h : edge s = .next t) :
    edge (withInputs is s) = .next (withInputs is t) := by
  obtain ⟨hr, rfl⟩ | ⟨hr, hn⟩ := edge_next h
  · exact if_pos hr
  · exact (edge_next_iff (s := withInputs is s) hr).mpr (hn.withInputs is)

/-! ### `GAP` -/

/-- With `start` low an edge of an idle block is a clock edge and no more (R121). -/
theorem edge_nopIdle {s : State} (f : s.fsm = .idle) (hs : s.ports.start = false) (hr : s.ports.rst = false) :
    edge s = .next (clockEdge s) := (edge_next_iff hr).mpr (.nopIdle f hs rfl)

/-- Edges of an idle block, the first one counted apart. -/
theorem idleEdges_clockEdge (n : Nat) (s : State) : idleEdges n (clockEdge s) = idleEdges (n + 1) s := by
  induction n with
  | zero => exact (idleEdges_succ 0 s).symm
  | succ n ih => rw [idleEdges_succ, ih, ← idleEdges_succ]

theorem step_gap {s : State} {t : Nat} {rest : List Input} (hi : s.inputs = .gap t :: rest) :
    step s =
      if t = 0 then .next (withInputs rest s)
      else if t ≤ s.params.ccStride then edge (withInputs rest s)
      else edge (withInputs (.gap (t - s.params.ccStride) :: rest) s) := by
  unfold step cycle
  rw [hi]
  rfl

/-- A gap of `t` ticks, `n + 1` the least number of strides that make them up, is that many edges of the idle block: each
edge but the last leaves a gap that is one stride shorter. -/
theorem run_gap {n t : Nat} {s : State} {rest : List Input} (hi : s.inputs = .gap t :: rest)
    (hle : t ≤ (n + 1) * s.params.ccStride) (hlt : n * s.params.ccStride < t) (f : s.fsm = .idle)
    (hs : s.ports.start = false) (hr : s.ports.rst = false) :
    run (n + 1) s = .next (withInputs rest (idleEdges (n + 1) s)) := by
  induction n generalizing s t with
  | zero =>
    have hstep : step s = .next (clockEdge (withInputs rest s)) := by
      rw [step_gap hi, if_neg (by omega), if_pos (by omega), edge_nopIdle (s := withInputs rest s) f hs hr]
    rw [run_next 0 hstep, run_zero, idleEdges_succ]
    rfl
  | succ n ih =>
    rw [Nat.succ_mul] at hle hlt
    have hstep : step s = .next (clockEdge (withInputs (.gap (t - s.params.ccStride) :: rest) s)) := by
      rw [step_gap hi, if_neg (by omega), if_neg (by omega)]
      exact edge_nopIdle (s := withInputs _ s) f hs hr
    rw [run_next _ hstep, ih (s := clockEdge (withInputs _ s)) rfl (Nat.sub_le_of_le_add hle)
      (Nat.lt_sub_of_add_lt hlt) f hs hr, idleEdges_clockEdge]
    rfl

/-- The state after `n + 1` edges of an idle block, field by field. -/
theorem idleEdges_eq (n : Nat) (s : State) :
    idleEdges (n + 1) s = { s with
      cc := s.cc + BitVec.ofNat 32 ((n + 1) * s.params.ccStride)
      c := s.cc + BitVec.ofNat 32 (n * s.params.ccStride)
      cycles := s.cc + BitVec.ofNat 32 (n * s.params.ccStride)
      now := s.now + (n + 1) * s.params.ccStride
      done := false, gpio := none, memRead := none, stepSel := stepWord (idleEdges (n + 1) s) } := by
  apply State.ext
  case stepSel => exact (edgeShown_clockEdge _).stepSel
  case c | cycles => rfl
  case cc => exact idleEdges_cc ..
  case now => exact idleEdges_now ..
  all_goals simp [idleEdges_succ n]

/-- Settles O49: the edges of the gap are `idleEdges`; a gap of no ticks is dropped. -/
theorem gapLetsTicksPass : Obligations.GapLetsTicksPass := by
  refine ⟨fun t n s rest hn hle hlt hi f hs hr => ?_, fun s rest hi => ?_⟩
  · obtain ⟨n, rfl⟩ := Nat.exists_eq_succ_of_ne_zero (Nat.ne_of_gt hn)
    exact ⟨_, run_gap hi hle hlt f hs hr, congrArg (withInputs rest) (idleEdges_eq n s)⟩
  · rw [step_gap hi, if_pos rfl]
    rfl

/-! ### The wait for `done` -/

theorem step_waitDone {s : State} {rest : List Input} (hi : s.inputs = .waitDone :: rest) :
    step s = if busy s then edge s else .next (withInputs rest s) := by
  unfold step cycle
  rw [hi]
  rfl

/-- A busy block has a next state at every edge, at any stride and whatever its ports carry (R100). -/
theorem Inv.exists_engineNext {s : State} (h : Inv s) (hb : busy s = true) : ∃ t, EngineNext (Machine.clockEdge s) t := by
  obtain f | f := busy_eq_true.mp hb
  · by_cases g : s.thPeriod ≤ elapsed (Machine.clockEdge s)
    · exact ⟨_, .rise f g rfl⟩
    · exact ⟨_, .spinp f g rfl⟩
  · by_cases g : target s ≤ elapsed (Machine.clockEdge s)
    · by_cases b : s.mask = 1
      · by_cases e : s.idx = s.len
        · exact ⟨_, .fallEnd f g b e rfl⟩
        · have hx : s.idx < s.len := Nat.lt_of_le_of_ne (h.index hb).2 e
          obtain ⟨v, hv⟩ := Option.isSome_iff_exists.mp (h.buffer hb _ hx)
          rw [← h.bufAddr_eq hb hx] at hv
          exact ⟨_, .fallByte f g b e v hv rfl⟩
      · exact ⟨_, .fallBit f g b rfl⟩
    · exact ⟨_, .spinh f g rfl⟩

/-- The pulses after this one, before and after an edge that leaves the block busy, at any stride: one fewer after a fall
(R29). -/
theorem Inv.pulsesAfter_engineNext {s t : State} (h : Inv s) (hb : busy s = true) (hn : EngineNext (Machine.clockEdge s) t)
    (ht : busy t = true) :
    pulsesAfter s = if s.fsm = .waith ∧ t.fsm = .waitp then pulsesAfter t + 1 else pulsesAfter t := by
  have hlen : t.len = s.len := (hn.sameOperands (s := Machine.clockEdge s) hb).len
  have hcur : pulseNumber t = if s.fsm = .waith ∧ t.fsm = .waitp then pulseNumber s + 1 else pulseNumber s :=
    h.clockEdge.pulseNumber_engineNext hb hn ht
  have hin := (h.clockEdge.engineNext hn).pulseNumber_lt ht
  unfold pulsesAfter
  split at hcur <;> rename_i hc
  · rw [if_pos hc]; omega
  · rw [if_neg hc]; omega

/-- The thresholds of a busy block are below the bound that legal parameters allow for (R106, log entry 1). -/
theorem Inv.threshold_bounds {s : State} (h : Inv s) (hb : busy s = true) :
    (target s).toNat ≤ 96 ∧ s.thPeriod.toNat ≤ 200 := by
  unfold target
  obtain ⟨h1, h2, h3⟩ | ⟨h1, h2, h3⟩ := h.thresholds hb <;> rw [h1, h2, h3] <;> split <;> decide

/-- The stride of legal parameters: positive, and small enough for the time from `START` not to wrap (R136, R139). -/
theorem Inv.stride_bounds {s : State} (h : Inv s) : 0 < s.params.ccStride ∧ 2 * s.params.ccStride + 200 < 2 ^ 32 := by
  obtain ⟨-, -, hpos, hlt⟩ := Params.legal_iff.mp h.params
  exact ⟨hpos, hlt⟩

/-- A `START` that stands is one stride older after an edge, as long as its age does not wrap (R136). -/
theorem EngineNext.age_of_standing {s t : State} (hn : EngineNext (clockEdge s) t) (hs : t.startTime = s.startTime)
    (hlt : age s + s.params.ccStride < 2 ^ 32) : age t = age s + s.params.ccStride := by
  rw [age] at hlt
  rw [age, age, hn.cc_eq, clockEdge_cc, hs, Params.stride]
  bv_omega

/-- A `START` stamped in an edge is one stride old after it. -/
theorem EngineNext.age_of_stamped {s t : State} (hn : EngineNext (clockEdge s) t) (hs : t.startTime = s.cc)
    (hlt : s.params.ccStride < 2 ^ 32) : age t = s.params.ccStride := by
  rw [age, hn.cc_eq, clockEdge_cc, hs, Params.stride]
  bv_omega

/-- A bound on the edges up to the last fall of a transmission, at any stride: 300 for each pulse after this one, and for
this one an edge for each tick that its wait still has to last, one for its fall, and in WAITP 97 more, for its rise and for
the longest time it is high. -/
def edgesToLastFall (s : State) : Nat :=
  match s.fsm with
  | .idle => 0
  | .waitp => 300 * pulsesAfter s + (s.thPeriod.toNat - age s) + 98
  | .waith => 300 * pulsesAfter s + ((target s).toNat - age s) + 1

theorem edgesToLastFall_idle {s : State} (f : s.fsm = .idle) : edgesToLastFall s = 0 := by
  rw [edgesToLastFall, f]

theorem edgesToLastFall_waitp {s : State} (f : s.fsm = .waitp) :
    edgesToLastFall s = 300 * pulsesAfter s + (s.thPeriod.toNat - age s) + 98 := by
  rw [edgesToLastFall, f]

theorem edgesToLastFall_waith {s : State} (f : s.fsm = .waith) :
    edgesToLastFall s = 300 * pulsesAfter s + ((target s).toNat - age s) + 1 := by
  rw [edgesToLastFall, f]

/-- All of them are within 300 edges a pulse. -/
theorem Inv.edgesToLastFall_le {s : State} (h : Inv s) (hb : busy s = true) : edgesToLastFall s ≤ 300 * (8 * s.len) := by
  obtain ⟨htgt, hper⟩ := h.threshold_bounds hb
  have hpos : 0 < 8 * s.len := by have := h.index hb; omega
  have hpulses : pulsesAfter s ≤ 8 * s.len - 1 := Nat.sub_le ..
  obtain f | f := busy_eq_true.mp hb
  · rw [edgesToLastFall_waitp f]; omega
  · rw [edgesToLastFall_waith f]; omega

/-- Each edge of a busy block leaves fewer edges. -/
theorem Inv.edgesToLastFall_engineNext {s t : State} (h : Inv s) (hb : busy s = true)
    (hn : EngineNext (Machine.clockEdge s) t) : edgesToLastFall t < edgesToLastFall s := by
  obtain ⟨hstride, hmax⟩ := h.stride_bounds
  obtain ⟨htgt, hper⟩ := h.threshold_bounds hb
  have hop := hn
  have hperiod : t.thPeriod = s.thPeriod := (hn.sameOperands (s := Machine.clockEdge s) hb).thPeriod
  have hpulses := h.pulsesAfter_engineNext hb hn
  cases hn with
  | nopIdle f | return0 f | beginTx f => exact absurd hb (ne_true_of_eq_false (busy_eq_false.mpr f))
  | spinp f g e =>
    replace f : s.fsm = .waitp := f
    have ht : t.fsm = .waitp := by rw [e]; exact f
    have hlt : age s < s.thPeriod.toNat := Nat.not_le.mp (mt le_elapsed_clockEdge_iff.mpr g)
    rw [edgesToLastFall_waitp f, edgesToLastFall_waitp ht, hop.age_of_standing (by rw [e]; rfl) (by omega),
      hpulses (busy_eq_true.mpr (.inl ht)), if_neg (by simp [f]), hperiod]
    omega
  | rise f g e =>
    replace f : s.fsm = .waitp := f
    have ht : t.fsm = .waith := by rw [e]; rfl
    have htarget : target t = target s := by simp [target, bit1, e, riseState]
    rw [edgesToLastFall_waitp f, edgesToLastFall_waith ht, hop.age_of_stamped (by rw [e]; rfl) (by omega),
      hpulses (busy_eq_true.mpr (.inr ht)), if_neg (by simp [f]), htarget]
    omega
  | spinh f g e =>
    replace f : s.fsm = .waith := f
    have ht : t.fsm = .waith := by rw [e]; exact f
    have htarget : target t = target s := by rw [e, target_clockEdge]
    have hlt : age s < (target s).toNat := Nat.not_le.mp (mt le_elapsed_clockEdge_iff.mpr g)
    rw [edgesToLastFall_waith f, edgesToLastFall_waith ht, hop.age_of_standing (by rw [e]; rfl) (by omega),
      hpulses (busy_eq_true.mpr (.inr ht)), if_neg (by simp [ht]), htarget]
    omega
  | fallBit f _ _ e | fallByte f _ _ _ _ _ e =>
    replace f : s.fsm = .waith := f
    have ht : t.fsm = .waitp := by rw [e]; rfl
    rw [edgesToLastFall_waith f, edgesToLastFall_waitp ht, hpulses (busy_eq_true.mpr (.inl ht)), if_pos ⟨f, ht⟩,
      hperiod]
    omega
  | fallEnd f _ _ _ e =>
    replace f : s.fsm = .waith := f
    rw [edgesToLastFall_waith f, edgesToLastFall_idle (by rw [e]; rfl)]
    omega

/-- The wait takes one edge after another until the block is idle, and one step more, which drops it. -/
theorem Inv.run_waitDone {n : Nat} {s : State} {rest : List Input} (h : Inv s) (hi : s.inputs = .waitDone :: rest)
    (hr : s.ports.rst = false) (hlt : edgesToLastFall s < n) :
    ∃ (k : Nat) (t : State), k ≤ n ∧ run k s = .next t ∧ t.fsm = .idle ∧ t.inputs = rest := by
  induction n generalizing s with
  | zero => exact absurd hlt (Nat.not_lt_zero _)
  | succ n ih =>
    cases hb : busy s with
    | false =>
      have hstep : step s = .next (withInputs rest s) := by rw [step_waitDone hi, hb, if_neg Bool.false_ne_true]
      exact ⟨1, _, Nat.le_add_left .., run_next 0 hstep, busy_eq_false.mp hb, rfl⟩
    | true =>
      obtain ⟨t, hn⟩ := h.exists_engineNext hb
      have hstep : step s = .next t := by
        rw [step_waitDone hi, if_pos hb]
        exact (edge_next_iff hr).mpr hn
      have hfewer := h.edgesToLastFall_engineNext hb hn
      obtain ⟨k, u, hk, hrun, hidle, hrest⟩ := ih (h.clockEdge.engineNext hn) (hn.samePlatform.inputs.trans hi)
        (by rw [hn.ports_eq]; exact hr) (by omega)
      exact ⟨k + 1, u, Nat.succ_le_succ hk, (run_next k hstep).trans hrun, hidle, hrest⟩

/-- Settles O54: an edge does the same whatever inputs are left, an idle block drops the wait, and the edges to the last fall
are within 300 a pulse. -/
theorem waitLastsUntilDone : Obligations.WaitLastsUntilDone := by
  refine ⟨fun s t rest hi hb h => ?_, fun s rest hi hb => ?_, fun s rest h hi hb hr => ?_⟩
  · rw [step_no_inputs rfl] at h
    rw [step_waitDone hi, if_pos hb, ← hi]
    exact edge_withInputs (s := { s with inputs := [] }) s.inputs h
  · rw [step_waitDone hi, hb, if_neg Bool.false_ne_true]
    rfl
  · exact h.run_waitDone hi hr (Nat.lt_succ_of_le (h.edgesToLastFall_le hb))

end Sys2Proof.Machine
end

section
/-! PROOFS of the family `30_encoding`, fourth part: the engine's edges of one bit against the symbol of that bit (R141, R165
to R168). The engine waits, rises, waits and falls. Its waiting edges are clock edges and no more, and so are those of a
pulse; so the two machines take the same edges and make the same two writes. -/

namespace Sys2Proof.Machine

/-! ### The edges of a wait -/

/-- The threshold that the block waits for: the bit's target while the pin is high, else the period (R130). -/
def threshold (s : State) : Ticks := if s.fsm = .waith then target s else s.thPeriod

theorem threshold_waitp {s : State} (f : s.fsm = .waitp) : threshold s = s.thPeriod := if_neg (by simp [f])

theorem threshold_waith {s : State} (f : s.fsm = .waith) : threshold s = target s := if_pos f

theorem Inv.threshold_le {s : State} (h : Inv s) (hb : busy s = true) : (threshold s).toNat ≤ 200 := by
  obtain ⟨htgt, hper⟩ := h.threshold_bounds hb
  unfold threshold
  split <;> omega

/-- An edge at which the threshold has not elapsed is a clock edge and no more (R124, R126). -/
theorem engineNext_of_waiting {s : State} (hb : busy s = true) (hw : age s < (threshold s).toNat) :
    EngineNext (clockEdge s) (clockEdge s) := by
  obtain f | f := busy_eq_true.mp hb
  · rw [threshold_waitp f] at hw
    exact .spinp f (mt le_elapsed_clockEdge_iff.mp (Nat.not_le.mpr hw)) rfl
  · rw [threshold_waith f] at hw
    exact .spinh f (mt le_elapsed_clockEdge_iff.mp (Nat.not_le.mpr hw)) rfl

@[simp] theorem busy_idleEdges (j : Nat) (s : State) : busy (idleEdges j s) = busy s := by
  unfold busy
  rw [idleEdges_fsm]

@[simp] theorem target_idleEdges (j : Nat) (s : State) : target (idleEdges j s) = target s := by
  simp [target, bit1]

@[simp] theorem threshold_idleEdges (j : Nat) (s : State) : threshold (idleEdges j s) = threshold s := by
  simp [threshold]

/-- The age of `START` after clock edges in a row, as long as it does not wrap (R136). -/
theorem age_idleEdges {s : State} {j : Nat} (h : age s + j * s.params.ccStride < 2 ^ 32) :
    age (idleEdges j s) = age s + j * s.params.ccStride := by
  rw [age] at h
  rw [age, age, idleEdges_cc, idleEdges_startTime]
  bv_omega

theorem Inv.idleEdges {s : State} (h : Inv s) (j : Nat) : Inv (idleEdges j s) := by
  induction j with
  | zero => exact h
  | succ j ih => rw [idleEdges_succ]; exact ih.clockEdge

/-- Edges of a busy block that all wait, with no input, are clock edges in a row. -/
theorem run_of_waiting {s : State} (hb : busy s = true) (hi : s.inputs = []) (hr : s.ports.rst = false) {k : Nat}
    (hw : ∀ j < k, age (idleEdges j s) < (threshold s).toNat) : run k s = .next (idleEdges k s) := by
  induction k with
  | zero => rfl
  | succ k ih =>
    have hn : EngineNext (clockEdge (idleEdges k s)) (clockEdge (idleEdges k s)) :=
      engineNext_of_waiting (by simpa using hb) (by simpa using hw k (Nat.lt_succ_self k))
    have hstep := (step_next_iff (by simpa using hi) (by simpa using hr)).mpr hn
    rw [run_add (ih fun j hj => hw j (Nat.lt_succ_of_lt hj)) (run_next 0 hstep), idleEdges_succ]

/-- The edges that the block waits before its threshold has elapsed. -/
def waitEdges (s : State) : Nat := edgesFor s.params ((threshold s).toNat - age s)

/-- For so many edges the block waits, and then its threshold has elapsed. -/
theorem Inv.run_wait {s : State} (h : Inv s) (hb : busy s = true) (hi : s.inputs = []) (hr : s.ports.rst = false) :
    (∀ k ≤ waitEdges s, run k s = .next (Machine.idleEdges k s)) ∧
      (threshold s).toNat ≤ age (Machine.idleEdges (waitEdges s) s) := by
  obtain ⟨hq, hmax⟩ := h.stride_bounds
  have hthr := h.threshold_le hb
  have hbelow (j : Nat) (hj : j < waitEdges s) : age s + j * s.params.ccStride < (threshold s).toNat := by
    have := mul_lt_of_lt_edgesFor hq hj
    omega
  constructor
  · intro k hk
    refine run_of_waiting hb hi hr fun j hj => ?_
    have hj' := hbelow j (by omega)
    rw [age_idleEdges (by omega)]
    exact hj'
  · have hreach : (threshold s).toNat - age s ≤ waitEdges s * s.params.ccStride := le_edgesFor_mul hq _
    cases hw : waitEdges s with
    | zero =>
      rw [hw, Nat.zero_mul] at hreach
      exact Nat.le_of_sub_eq_zero (Nat.le_zero.mp hreach)
    | succ w =>
      have hlast := hbelow w (by omega)
      rw [hw] at hreach
      have hnext : (w + 1) * s.params.ccStride = w * s.params.ccStride + s.params.ccStride := Nat.succ_mul ..
      rw [age_idleEdges (by omega)]
      omega

/-- Ticks that have passed are edges that need not be waited for. -/
theorem edgesFor_sub {q : Params} (hq : 0 < q.ccStride) (t k : Nat) :
    edgesFor q (t - k * q.ccStride) = edgesFor q t - k :=
  eq_of_forall_ge_iff fun n => by
    rw [edgesFor_le_iff hq, Nat.sub_le_iff_le_add, Nat.sub_le_iff_le_add, edgesFor_le_iff hq, Nat.add_mul]

/-! ### The line, as two machines see it -/

/-- `s` and `x` have the same pins, trace and notes of falls, at the same time by counters of the same stride. -/
structure SameLine (s x : State) : Prop where
  params : s.params = x.params
  lvl : s.lvl = x.lvl
  trace : s.trace = x.trace
  fellAt : s.fellAt = x.fellAt
  cc : s.cc = x.cc
  now : s.now = x.now

theorem SameLine.clockEdge {s x : State} (h : SameLine s x) : SameLine (clockEdge s) (clockEdge x) where
  params := h.params
  lvl := h.lvl
  trace := h.trace
  fellAt := h.fellAt
  cc := by rw [clockEdge_cc, clockEdge_cc, h.cc, h.params]
  now := by rw [clockEdge_now, clockEdge_now, h.now, h.params]

theorem SameLine.idleEdges {s x : State} (h : SameLine s x) (j : Nat) :
    SameLine (idleEdges j s) (idleEdges j x) := by
  induction j with
  | zero => exact h
  | succ j ih => rw [idleEdges_succ, idleEdges_succ]; exact ih.clockEdge

/-- The same write in an edge of both machines. -/
theorem SameLine.write {s x : State} (h : SameLine s x) (op : GpioOp) (m : PinMask) :
    SameLine (gpioWrite op m (Machine.clockEdge s)) (gpioWrite op m (Machine.clockEdge x)) := by
  constructor <;> simp [h.params, h.lvl, h.trace, h.fellAt, h.cc, h.now]

theorem SameLine.write_idleEdges {s x : State} (h : SameLine s x) (op : GpioOp) (m : PinMask) {n : Nat} (hn : 0 < n) :
    SameLine (gpioWrite op m (Machine.idleEdges n s)) (gpioWrite op m (Machine.idleEdges n x)) := by
  obtain ⟨n, rfl⟩ := Nat.exists_eq_succ_of_ne_zero (Nat.ne_of_gt hn)
  rw [idleEdges_succ, idleEdges_succ]
  exact (h.idleEdges n).write op m

theorem SameLine.trans {s x y : State} (h : SameLine s x) (h' : SameLine x y) : SameLine s y where
  params := h.params.trans h'.params
  lvl := h.lvl.trans h'.lvl
  trace := h.trace.trans h'.trace
  fellAt := h.fellAt.trans h'.fellAt
  cc := h.cc.trans h'.cc
  now := h.now.trans h'.now

/-- RISE is its write, on the line (R125). -/
theorem sameLine_riseState (s : State) : SameLine (riseState s) (gpioWrite .set (gpioMask s.pin) s) := by
  constructor <;> simp [riseState]

/-! ### The edges of one bit -/

theorem SameOperands.trans {s u t : State} (h : SameOperands s u) (h' : SameOperands u t) : SameOperands s t where
  pin := h'.pin.trans h.pin
  base := h'.base.trans h.base
  len := h'.len.trans h.len
  thShort := h'.thShort.trans h.thShort
  thLong := h'.thLong.trans h.thLong
  thPeriod := h'.thPeriod.trans h.thPeriod

/-- The engine comes from `s` to `t` in `n` edges and is busy before each of them; the invariant holds in `t`, and operands,
buffer, ports and the platform's part stand. -/
structure Sends (n : Nat) (s t : State) : Prop where
  run : run n s = .next t
  busy : ∀ k < n, ∃ y, Machine.run k s = .next y ∧ busy y = true
  inv : Inv t
  operands : SameOperands s t
  platform : SamePlatform s t
  ports : t.ports = s.ports
  mem : t.mem = s.mem

theorem Sends.trans {m n : Nat} {s r t : State} (h : Sends m s r) (h' : Sends n r t) : Sends (m + n) s t where
  run := run_add h.run h'.run
  busy := fun k hk => by
    by_cases hkm : k < m
    · exact h.busy k hkm
    · obtain ⟨j, rfl⟩ := Nat.exists_eq_add_of_le (Nat.not_lt.mp hkm)
      obtain ⟨y, hy, hb⟩ := h'.busy j (by omega)
      exact ⟨y, run_add h.run hy, hb⟩
  inv := h'.inv
  operands := h.operands.trans h'.operands
  platform := h.platform.trans h'.platform
  ports := h'.ports.trans h.ports
  mem := h'.mem.trans h.mem

/-- What an edge of WAITH at which the target has elapsed leaves: on the line it is the CLR and no more, and `START`
stands. -/
theorem EngineNext.fall {s u : State} (hn : EngineNext (clockEdge s) u) (f : s.fsm = .waith)
    (g : (target s).toNat ≤ age s) :
    SameLine u (gpioWrite .clr (gpioMask s.pin) (clockEdge s)) ∧ u.startTime = s.startTime := by
  cases hn with
  | nopIdle f' | return0 f' | beginTx f' | spinp f' | rise f' => rw [clockEdge_fsm, f] at f'; cases f'
  | spinh _ g' => exact absurd (le_elapsed_clockEdge_iff.mpr g) g'
  | fallBit _ _ _ e | fallByte _ _ _ _ _ _ e | fallEnd _ _ _ _ e =>
    subst e
    exact ⟨by constructor <;> simp, by simp⟩

section
variable {s : State} (h : Inv s) (hi : s.inputs = []) (hr : s.ports.rst = false)
include h hi hr

/-- The edges of a wait and the one edge after them. -/
theorem Inv.sends_of_engineNext (hb : busy s = true) {u : State}
    (hn : EngineNext (Machine.clockEdge (Machine.idleEdges (waitEdges s) s)) u) : Sends (waitEdges s + 1) s u where
  run := run_add ((h.run_wait hb hi hr).1 _ (Nat.le_refl _))
    (run_next 0 ((step_next_iff (by simpa using hi) (by simpa using hr)).mpr hn))
  busy := fun k hk => ⟨_, (h.run_wait hb hi hr).1 k (Nat.le_of_lt_succ hk), by simpa using hb⟩
  inv := (h.idleEdges _).clockEdge.engineNext hn
  operands := .trans (by constructor <;> simp) (hn.sameOperands (by simpa using hb))
  platform := .trans (by constructor <;> simp) hn.samePlatform
  ports := hn.ports_eq.trans (by simp)
  mem := hn.mem_eq.trans (by simp)

/-- From WAITP the engine rises at the end of its wait: on the line those edges and the SET are those of a pulse (R125). -/
theorem Inv.sends_rise (f : s.fsm = .waitp) :
    ∃ r, Sends (riseWait s + 1) s r ∧ r.fsm = .waith ∧ target r = target s ∧ age r = s.params.ccStride ∧
      SameLine r (Machine.gpioWrite .set (gpioMask s.pin)
        (Machine.clockEdge (Machine.idleEdges (riseWait s) s))) := by
  have hb := busy_eq_true.mpr (.inl f)
  have hwait : riseWait s = waitEdges s := by rw [riseWait, waitEdges, threshold_waitp f]; rfl
  obtain ⟨-, hmax⟩ := h.stride_bounds
  obtain ⟨-, hreach⟩ := h.run_wait hb hi hr
  rw [threshold_waitp f] at hreach
  have hn : EngineNext (Machine.clockEdge (Machine.idleEdges (waitEdges s) s))
      (riseState (Machine.clockEdge (Machine.idleEdges (waitEdges s) s))) :=
    .rise (by simpa using f) (le_elapsed_clockEdge_iff.mpr (by simpa using hreach)) rfl
  rw [hwait]
  refine ⟨_, h.sends_of_engineNext hi hr hb hn, rfl, ?_, ?_, ?_⟩
  · simp [target, bit1, riseState]
  · rw [hn.age_of_stamped rfl (by rw [idleEdges_params]; omega), idleEdges_params]
  · simpa using sameLine_riseState (Machine.clockEdge (Machine.idleEdges (waitEdges s) s))

/-- From WAITH, one stride after the rise, the engine falls after the edges of the target: on the line those edges and the
CLR are those of a pulse (R127 to R129). -/
theorem Inv.sends_fall (f : s.fsm = .waith) (hage : age s = s.params.ccStride) {n : Nat}
    (hedges : n = edgesFor s.params (target s).toNat) :
    ∃ u, Sends n s u ∧ age u = (n + 1) * s.params.ccStride ∧
      SameLine u (Machine.gpioWrite .clr (gpioMask s.pin) (Machine.idleEdges n s)) := by
  have hb := busy_eq_true.mpr (.inr f)
  obtain ⟨hq, hmax⟩ := h.stride_bounds
  obtain ⟨hpos, -⟩ := h.target_bounds hb
  obtain ⟨htgt, -⟩ := h.threshold_bounds hb
  have hwait : n = waitEdges s + 1 := by
    have hsub := edgesFor_sub hq (target s).toNat 1
    rw [Nat.one_mul] at hsub
    rw [hedges, waitEdges, threshold_waith f, hage, hsub, Nat.sub_add_cancel (edgesFor_pos hq hpos)]
  have hlast : waitEdges s * s.params.ccStride < (target s).toNat := mul_lt_of_lt_edgesFor hq (by omega)
  obtain ⟨-, hreach⟩ := h.run_wait hb hi hr
  rw [threshold_waith f] at hreach
  obtain ⟨u, hn⟩ := (h.idleEdges (waitEdges s)).exists_engineNext (by simpa using hb)
  obtain ⟨hline, hstart⟩ := hn.fall (by simpa using f) (by simpa using hreach)
  rw [hwait, idleEdges_succ]
  refine ⟨u, h.sends_of_engineNext hi hr hb hn, ?_, by rwa [idleEdges_pin] at hline⟩
  have hold : age (Machine.idleEdges (waitEdges s) s) = s.params.ccStride + waitEdges s * s.params.ccStride := by
    rw [age_idleEdges (by omega), hage]
  rw [hn.age_of_standing hstart (by rw [hold, idleEdges_params]; omega), hold, idleEdges_params, Nat.succ_mul,
    Nat.succ_mul]
  omega

/-- One bit of a transmission, from WAITP to its fall. A machine whose line is the engine's at the rise has, after the pulse
of the bit, the line of the engine at the next rise. -/
theorem Inv.sends_bit (f : s.fsm = .waitp) :
    ∃ (n : Nat) (u : State), 0 < n ∧ Sends n s u ∧
      ∀ x, SameLine (Machine.idleEdges (riseWait s) s) x →
        SameLine (Machine.idleEdges (riseWait u) u) (Machine.pulse s.pin (target s) s.thPeriod x) := by
  obtain ⟨r, hup, fr, htarget, hage, hset⟩ := h.sends_rise hi hr f
  have hparams : r.params = s.params := hup.platform.params
  obtain ⟨u, hdown, hold, hclr⟩ := hup.inv.sends_fall (hup.platform.inputs.trans hi) (hup.ports ▸ hr) fr
    (hparams ▸ hage) rfl
  have hsends := hup.trans hdown
  refine ⟨_, u, by omega, hsends, fun x hx => ?_⟩
  have hpin : r.pin = s.pin := hup.operands.pin
  have hnext : riseWait u = edgesFor x.params s.thPeriod.toNat - edgesFor x.params (target s).toNat - 1 := by
    have hsub := edgesFor_sub h.stride_bounds.1 s.thPeriod.toNat (edgesFor s.params (target s).toNat + 1)
    have hage' : (u.cc - u.startTime).toNat = (edgesFor s.params (target s).toNat + 1) * s.params.ccStride := by
      rw [← hparams, ← htarget]
      exact hold
    rw [← hx.params, idleEdges_params, riseWait, hsends.platform.params, hsends.operands.thPeriod, hage', hsub,
      Nat.sub_sub]
  have hpos : 0 < edgesFor s.params (target s).toNat :=
    edgesFor_pos h.stride_bounds.1 (h.target_bounds (busy_eq_true.mpr (.inl f))).1
  have hrise : SameLine r (Machine.gpioWrite .set (gpioMask s.pin) (Machine.clockEdge x)) := hset.trans (hx.write ..)
  rw [hparams, htarget, hpin] at hclr
  rw [hnext, Machine.pulse, ← hx.params, idleEdges_params]
  exact (hclr.trans (hrise.write_idleEdges _ _ hpos)).idleEdges _

end

/-- Settles O51: by `sends_bit` the engine's line at its next rise is that of the twin after the pulse, which is its symbol;
the edges up to that rise write nothing. -/
theorem engineSendsSymbolOfBit : Obligations.EngineSendsSymbolOfBit := by
  intro s x h f hi hr hxf hxr hparams hpin hout hcal hlvl htrace hfell hcc hnow
  obtain ⟨n, u, hpos, hsends, hline⟩ := h.sends_bit hi hr f
  obtain ⟨hpin', hbase, hlen, hshort, hlong, hperiod⟩ := hsends.operands
  have hlow : x.lvl.getLsbD s.pin.toNat = false := by rw [hlvl]; exact h.low f
  have hstart : SameLine (idleEdges (riseWait s) s) (dropStart x) := by
    constructor <;> simp [hparams, hlvl, htrace, hfell, hcc, hnow, riseSample]
  have hend := hline _ hstart
  refine ⟨n, u, pulse s.pin (target s) s.thPeriod (dropStart x), hpos, ?_, hsends.run, hsends.busy, ?_, ?_, ?_, hpin',
    hbase, hlen, hshort, hlong, hperiod, hsends.mem, fun _ => ⟨?_, ?_⟩⟩
  · rw [exec_symbol, (symbol_of_output hxr (busy_eq_false.mpr hxf) (hpin ▸ hout)).2 _ hcal, hpin,
      if_neg (ne_true_of_eq_false hlow)]
    rfl
  · simpa using hend.lvl
  · simpa using hend.trace
  · simpa using hend.fellAt
  · simpa [riseSample] using hend.cc
  · simpa using hend.now

end Sys2Proof.Machine
end

section
/-! PROOFS of the family `40_transmit_command`, first part: which clock edges are refused (R98, R180, R181), what a busy
block sees of a command (R99, R107, R183), and the command of length zero (R93). -/

namespace Sys2Proof.Machine

/-! ### Which clock edges are refused -/

/-- With no input left and `rst` high a step is the reset of R210. -/
theorem step_of_rst {s : State} (hi : s.inputs = []) (hr : s.ports.rst = true) : step s = .next (resetEdge s) := by
  rw [step_no_inputs hi, edge, if_pos hr]

/-- Settles O12: with `rst` high the edge is the reset, and else a busy block has a next state. -/
theorem busyEngineAlwaysAdvances : Obligations.BusyEngineAlwaysAdvances := by
  intro s h hb hi
  cases hr : s.ports.rst with
  | true => exact ⟨_, step_of_rst hi hr⟩
  | false =>
    obtain ⟨t, hn⟩ := h.exists_engineNext hb
    exact ⟨t, (step_next_iff hi hr).mpr hn⟩

/-- The preconditions of R181 that a command can violate. -/
theorem beginRefusal_mem {s : State} {r : Refusal} (h : beginRefusal s = some r) :
    r ∈ [.pinNotOutput, .bufferWraps, .bufferInvalid, .unsupportedClock, .pinNotLow, .noLatchGap] := by
  unfold beginRefusal at h
  split at h; · cases h; decide
  split at h; · cases h; decide
  split at h; · cases h; decide
  split at h; · cases h; decide
  split at h; · cases h; decide
  split at h; · cases h; decide
  cases h

/-- An idle block is given, at the next edge, a command of non-zero length whose preconditions are not met. -/
structure OffersBadCommand (s : State) : Prop where
  idle : s.fsm = .idle
  running : s.ports.rst = false
  start : s.ports.start = true
  positive : s.ports.lenIn ≠ 0
  unready : ¬ TxReady s.ports.pinIn s.ports.baseIn s.ports.lenIn (clockEdge s)

/-- Such a command is refused under the name that BEGIN finds (R181). -/
theorem OffersBadCommand.step_refused {s : State} (h : OffersBadCommand s) (hi : s.inputs = []) :
    ∃ r, step s = .refused r ∧
      r ∈ [.pinNotOutput, .bufferWraps, .bufferInvalid, .unsupportedClock, .pinNotLow, .noLatchGap] := by
  cases hr : beginRefusal (clockEdge s) with
  | none => exact absurd ((beginRefusal_none_iff _).mp hr) h.unready
  | some r =>
    have hcase : engineCase (clockEdge s) = execBegin (clockEdge s) := by
      simp [engineCase, h.idle, h.start, h.positive]
    exact ⟨r, by rw [step_eq_engineCase hi h.running, hcase, execBegin_of_refusal hr], beginRefusal_mem hr⟩

/-- Every other edge gives a next state (R180). -/
theorem Inv.step_next_of_not_offersBadCommand {s : State} (h : Inv s) (hi : s.inputs = [])
    (hgood : ¬ OffersBadCommand s) : ∃ t, step s = .next t := by
  cases hr : s.ports.rst with
  | true => exact ⟨_, step_of_rst hi hr⟩
  | false =>
    cases hb : busy s with
    | true => exact busyEngineAlwaysAdvances s h hb hi
    | false =>
      have f := busy_eq_false.mp hb
      cases hs : s.ports.start with
      | false => exact ⟨_, (step_next_iff hi hr).mpr (.nopIdle f hs rfl)⟩
      | true =>
        by_cases hl : s.ports.lenIn = 0
        · exact ⟨_, step_return0 hi f hr hs hl⟩
        · by_cases ready : TxReady s.ports.pinIn s.ports.baseIn s.ports.lenIn (Machine.clockEdge s)
          · obtain ⟨t, ht, -⟩ := step_accepts hi f hr hs hl ready
            exact ⟨t, ht⟩
          · exact absurd ⟨f, hr, hs, hl, ready⟩ hgood

/-- Settles O13: an edge is refused where a bad command is offered, and gives a next state everywhere else. -/
theorem edgeRefusesOnlyBadCommands : Obligations.EdgeRefusesOnlyBadCommands := by
  intro s h hi
  by_cases bad : OffersBadCommand s
  · obtain ⟨r, hr, hmem⟩ := bad.step_refused hi
    refine ⟨fun r' hr' => ?_, fun _ _ _ _ _ => ⟨r, hr⟩, fun hne => absurd hr (hne r)⟩
    rw [hr] at hr'
    cases hr'
    exact ⟨bad.idle, bad.running, bad.start, bad.positive, bad.unready, hmem⟩
  · obtain ⟨t, ht⟩ := h.step_next_of_not_offersBadCommand hi bad
    refine ⟨fun r hr => ?_, fun f hr hs hl ready => absurd ⟨f, hr, hs, hl, ready⟩ bad, fun _ => ⟨t, ht⟩⟩
    rw [ht] at hr
    cases hr

/-! ### The ports in the step-select word -/

/-- Bit 4 of the step-select word is `start` (R72). -/
theorem stepWord_getLsbD_four (s : State) : (stepWord s).getLsbD 4 = s.ports.start := by
  have key : ∀ (f : FsmState) (t z g b e : Bool), (packStep f.code t z g b e).testBit 4 = t := by
    intro f; cases f <;> decide
  rw [stepWord, BitVec.getLsbD_ofNat, key]
  rfl

/-- Bit 3 of it is `lenz` (R72). -/
theorem stepWord_getLsbD_three (s : State) : (stepWord s).getLsbD 3 = lenz s := by
  have key : ∀ (f : FsmState) (t z g b e : Bool), (packStep f.code t z g b e).testBit 3 = z := by
    intro f; cases f <;> decide
  rw [stepWord, BitVec.getLsbD_ofNat, key]
  rfl

/-- No other bit of it shows the ports. -/
theorem packStep_testBit_of_ne (f : FsmState) (t z t' z' g b e : Bool) {i : Nat} (hi : i < 7) (h3 : i ≠ 3)
    (h4 : i ≠ 4) : (packStep f.code t z g b e).testBit i = (packStep f.code t' z' g b e).testBit i := by
  revert t z t' z' g b e i
  cases f <;> decide

/-- The word that an edge forms with other levels on the ports differs in the bits 4:3 alone. -/
theorem clockEdge_withPorts_stepSel (q : Ports) (s : State) {i : Nat} (h3 : i ≠ 3) (h4 : i ≠ 4) :
    (clockEdge (withPorts q s)).stepSel.getLsbD i = (clockEdge s).stepSel.getLsbD i := by
  by_cases hi : i < 7
  · rw [clockEdge_stepSel_eq, clockEdge_stepSel_eq, stepWord, stepWord, BitVec.getLsbD_ofNat, BitVec.getLsbD_ofNat]
    exact congrArg _ (packStep_testBit_of_ne _ _ _ _ _ _ _ _ hi h3 h4)
  · rw [BitVec.getLsbD_of_ge _ _ (Nat.not_lt.mp hi), BitVec.getLsbD_of_ge _ _ (Nat.not_lt.mp hi)]

/-! ### A busy block and its ports -/

/-- An edge of a busy block with other levels on the ports: those levels and the word it forms are all that differs
(R98, R99). -/
theorem engineNext_clockEdge_withPorts {s t : State} (h : EngineNext (clockEdge s) t) (hb : busy s = true) (q : Ports) :
    EngineNext (clockEdge (withPorts q s)) (setWord (clockEdge (withPorts q s)).stepSel (withPorts q t)) :=
  h.withPorts hb (clockEdge (withPorts q s)).stepSel q

/-- Settles O42: `engineNext_clockEdge_withPorts`, and the bits of the word. -/
theorem portsIgnoredWhileBusy : Obligations.PortsIgnoredWhileBusy := by
  intro s t q hb hi hr hq hs
  have hn := (step_next_iff hi hr).mp hs
  refine ⟨(clockEdge (withPorts q s)).stepSel, fun i h3 h4 => ?_, ?_⟩
  · rw [hn.stepSel_eq, clockEdge_withPorts_stepSel q s h3 h4]
  · exact (step_next_iff (s := withPorts q s) hi hq).mpr (engineNext_clockEdge_withPorts hn hb q)

/-- The ports of `s` with the command on them, `start` high (R71, R90). -/
def commandPorts (p : PinId) (a l : Nat) (s : State) : Ports :=
  { s.ports with start := true, pinIn := p, baseIn := a, lenIn := l }

/-- Operands of the ports' widths are presented as they are. -/
theorem present_of_lt {s : State} (p : PinId) {a l : Nat} (ha : a < s.params.addrSpace) (hl : l < s.params.lenSpace) :
    present p a l s = withPorts (commandPorts p a l s) s := by
  rw [present, Ports.fit_of_lt ha hl]
  rfl

/-- Settles O32: the command's edge is that of the busy block with the command on its ports. -/
theorem transmitWhileBusyIsIgnored : Obligations.TransmitWhileBusyIsIgnored := by
  intro p a l s t hb hr hi ha hl hs
  have hn := (step_next_iff hi hr).mp hs
  have hedge := engineEdge_of_engineNext (s := withPorts (commandPorts p a l s) s) hr
    (engineNext_clockEdge_withPorts hn hb _)
  refine ⟨(clockEdge (withPorts (commandPorts p a l s) s)).stepSel, fun i h3 h4 => ?_, stepWord_getLsbD_four _,
    stepWord_getLsbD_three _, ?_⟩
  · rw [hn.stepSel_eq, clockEdge_withPorts_stepSel _ s h3 h4]
  · show execTransmit p a l s = _
    rw [execTransmit, takeSample_busy hb, present_of_lt p ha hl, hedge]
    rfl

/-! ### The command of length zero -/

/-- The word that an edge of an idle block forms, as a number (R72). -/
theorem clockEdge_stepSel_toNat_of_idle {s : State} (f : s.fsm = .idle) :
    (clockEdge s).stepSel.toNat = s.ports.start.toNat * 16 + (lenz s).toNat * 8 + (if s.mask = 1 then 2 else 0) +
      (if s.idx = s.len then 1 else 0) := by
  have hg : ge (clockEdge s) = false := ge_of_idle f
  have hm : lastbit s = decide (s.mask = 1) := rfl
  have he : lastbyte s = decide (s.idx = s.len) := rfl
  rw [clockEdge_stepSel_eq, stepWord_toNat, hg, lenz_clockEdge, lastbit_clockEdge, lastbyte_clockEdge, hm, he,
    clockEdge_fsm, f, clockEdge_ports]
  simp only [packStep, FsmState.code, Bool.toNat, Bool.cond_decide, cond_false]
  split <;> split <;> omega

/-- Settles O30: the word's edge is a RETURN0 (R122), after the sample is taken and before `start` is dropped. -/
theorem transmitZeroLengthReturnsAtOnce : Obligations.TransmitZeroLengthReturnsAtOnce := by
  intro p a s f hr ha
  have hpresent : present p a 0 (takeSample s) = withPorts (commandPorts p a 0 s) (takeSample s) := by
    rw [takeSample_idle f hr]
    exact present_of_lt p ha (Params.lenSpace_pos _)
  have hidle : (takeSample s).fsm = .idle := (takeSample_fsm s).trans f
  have hedge := engineEdge_of_engineNext (s := withPorts (commandPorts p a 0 s) (takeSample s)) hr
    (.return0 hidle rfl rfl rfl)
  refine ⟨(clockEdge (withPorts (commandPorts p a 0 s) (takeSample s))).stepSel, ?_, ?_⟩
  · rw [clockEdge_stepSel_toNat_of_idle (s := withPorts (commandPorts p a 0 s) (takeSample s)) hidle,
      takeSample_idle f hr]
    rfl
  · show execTransmit p a 0 s = _
    rw [execTransmit, hpresent, hedge, takeSample_idle f hr]
    rfl

end Sys2Proof.Machine
end

section
/-! PROOFS of the family `40_transmit_command`, second part: the waveform of a whole transmission at stride 1 (R94, R95,
R97, R138, R140). The writes that are still to come, put before those in the trace, are the same after every edge of a
busy block, and the exact number of edges to `done` falls by one; so the run ends, after that many edges, with the trace
that the accepted command has set up. -/

namespace Sys2Proof.Machine

/-! ### The bits of a buffer (R97) -/

theorem bitsOf_cons (b : Byte) (bytes : List Byte) :
    bitsOf (b :: bytes) = ((List.range 8).map fun n => b.getLsbD (7 - n)) ++ bitsOf bytes := List.flatMap_cons

theorem bitsOf_length (bytes : List Byte) : (bitsOf bytes).length = 8 * bytes.length := by
  induction bytes with
  | nil => rfl
  | cons b bytes ih =>
    rw [bitsOf_cons, List.length_append, List.length_map, List.length_range, ih, List.length_cons]
    omega

/-- Bit `n` of byte `j`, most significant first. -/
theorem bitsOf_getElem? (bytes : List Byte) (j : Nat) {n : Nat} (hn : n < 8) :
    (bitsOf bytes)[8 * j + n]? = bytes[j]?.map fun b => b.getLsbD (7 - n) := by
  induction bytes generalizing j with
  | nil => rfl
  | cons b bytes ih =>
    have hlen : ((List.range 8).map fun n => b.getLsbD (7 - n)).length = 8 := by simp
    rw [bitsOf_cons]
    cases j with
    | zero => rw [List.getElem?_append_left (by omega)]; simp [hn]
    | succ j =>
      rw [List.getElem?_append_right (by omega), hlen, List.getElem?_cons_succ, ← ih j,
        show 8 * (j + 1) + n - 8 = 8 * j + n by omega]

theorem waveform_length (m : PinMask) (th : Thresholds) (r : Ticks) (bits : List Bool) :
    (waveform m th r bits).length = 2 * bits.length := by
  induction bits generalizing r with
  | nil => rfl
  | cons b bits ih =>
    rw [waveform, List.length_cons, List.length_cons, ih, List.length_cons]
    omega

/-! ### The stream of a transmission -/

/-- The bits of the buffer in transmission. -/
def streamBits (s : State) : List Bool :=
  bitsOf ((List.range s.len).map fun i => (byteRead s.mem s.base i).data)

theorem streamBits_length (s : State) : (streamBits s).length = 8 * s.len := by
  rw [streamBits, bitsOf_length, List.length_map, List.length_range]

/-- The current bit is the bit of `CUR` at the mask's place (R31). -/
theorem bit1_of_twoPow {s : State} {i : Nat} (hi : i < 8) (hm : s.mask = BitVec.twoPow 8 i) :
    bit1 s = s.cur.getLsbD i := by
  have hne : BitVec.twoPow 8 i ≠ 0#8 := by
    clear hm
    revert i
    decide
  rw [bit1, hm, BitVec.and_twoPow]
  cases s.cur.getLsbD i <;> simp [hne]

/-- The current bit is the one at the cursor (R29). -/
theorem Inv.streamBits_pulseNumber {s : State} (h : Inv s) (hb : busy s = true) :
    (streamBits s)[pulseNumber s]? = some (bit1 s) := by
  obtain ⟨i, hi, hm⟩ := oneHot_iff.mp (h.mask hb)
  have hx : s.idx - 1 < s.len := by have := h.index hb; omega
  rw [pulseNumber_of_twoPow hi hm, streamBits, bitsOf_getElem? _ _ (by omega), bit1_of_twoPow hi hm,
    show 7 - (7 - i) = i by omega]
  simp [byteRead, h.current hb, hx]

/-- The registers of the thresholds, as one. -/
def thresholdsOf (s : State) : Thresholds := ⟨s.thShort, s.thLong, s.thPeriod⟩

/-- The writes of the pulses from pulse `k` on, if it rises at sample `r` (R138). -/
def pulsesFrom (s : State) (r : Ticks) (k : Nat) : List TraceEvent :=
  waveform (gpioMask s.pin) (thresholdsOf s) r ((streamBits s).drop k)

/-- Those of the pulse at the cursor come first. -/
theorem Inv.pulsesFrom_pulseNumber {s : State} (h : Inv s) (hb : busy s = true) (r : Ticks) :
    pulsesFrom s r (pulseNumber s) =
      ⟨.set, gpioMask s.pin, r⟩ :: ⟨.clr, gpioMask s.pin, r + target s⟩ ::
        pulsesFrom s (r + s.thPeriod) (pulseNumber s + 1) := by
  obtain ⟨hlt, hbit⟩ := List.getElem?_eq_some_iff.mp (h.streamBits_pulseNumber hb)
  rw [pulsesFrom, List.drop_eq_getElem_cons hlt, hbit]
  rfl

/-- After the last pulse there is none. -/
theorem pulsesFrom_of_le {s : State} (r : Ticks) {k : Nat} (hk : 8 * s.len ≤ k) : pulsesFrom s r k = [] := by
  rw [pulsesFrom, List.drop_of_length_le (by rw [streamBits_length]; exact hk)]
  rfl

/-- What a busy block sends, and how, stands at every edge. -/
structure SameStream (s t : State) : Prop where
  pin : t.pin = s.pin
  len : t.len = s.len
  thresholds : thresholdsOf t = thresholdsOf s
  bits : streamBits t = streamBits s

theorem EngineNext.sameStream {s t : State} (h : EngineNext (clockEdge s) t) (hb : busy s = true) : SameStream s t := by
  obtain ⟨hpin, hbase, hlen, hshort, hlong, hperiod⟩ : SameOperands s t :=
    { h.sameOperands (s := clockEdge s) hb with }
  have hmem : t.mem = s.mem := h.mem_eq
  exact ⟨hpin, hlen, by rw [thresholdsOf, hshort, hlong, hperiod]; rfl, by rw [streamBits, hlen, hbase, hmem]; rfl⟩

theorem SameStream.thPeriod {s t : State} (h : SameStream s t) : t.thPeriod = s.thPeriod :=
  congrArg Thresholds.period h.thresholds

theorem SameStream.pulsesFrom_eq {s t : State} (h : SameStream s t) (r : Ticks) (k : Nat) :
    pulsesFrom t r k = pulsesFrom s r k := by
  rw [pulsesFrom, pulsesFrom, h.pin, h.thresholds, h.bits]

/-! ### The writes to come -/

/-- The writes that are still to come, oldest first: those of the current bit, as far as they are not made, and those of
the bits after it. -/
def writesToCome (s : State) : List TraceEvent :=
  match s.fsm with
  | .idle => []
  | .waitp => pulsesFrom s (riseSample s) (pulseNumber s)
  | .waith => ⟨.clr, gpioMask s.pin, s.startTime + target s⟩ ::
      pulsesFrom s (s.startTime + s.thPeriod) (pulseNumber s + 1)

theorem writesToCome_idle {s : State} (f : s.fsm = .idle) : writesToCome s = [] := by
  rw [writesToCome, f]

theorem writesToCome_waitp {s : State} (f : s.fsm = .waitp) :
    writesToCome s = pulsesFrom s (riseSample s) (pulseNumber s) := by
  rw [writesToCome, f]

theorem writesToCome_waith {s : State} (f : s.fsm = .waith) :
    writesToCome s = ⟨.clr, gpioMask s.pin, s.startTime + target s⟩ ::
      pulsesFrom s (s.startTime + s.thPeriod) (pulseNumber s + 1) := by
  rw [writesToCome, f]

/-- The trace once the transmission is over. -/
def finalTrace (s : State) : List TraceEvent := (writesToCome s).reverse ++ s.trace

/-- At stride 1 the wait for a rise is the ticks that the period has left. -/
theorem riseSample_eq {s : State} (hq : s.params.ccStride = 1) :
    riseSample s = s.cc + BitVec.ofNat 32 (s.thPeriod.toNat - age s) := by
  rw [riseSample, riseWait, edgesFor_one hq, hq, Nat.mul_one]
  rfl

/-- A period that has elapsed is not waited for. -/
theorem riseSample_of_le {s : State} (hq : s.params.ccStride = 1) (h : s.thPeriod.toNat ≤ age s) :
    riseSample s = s.cc := by
  rw [riseSample_eq hq, Nat.sub_eq_zero_of_le h]
  exact BitVec.add_zero _

/-- Else the rise is a period after `START`. -/
theorem riseSample_of_ge {s : State} (hq : s.params.ccStride = 1) (h : age s ≤ s.thPeriod.toNat) :
    riseSample s = s.startTime + s.thPeriod := by
  rw [riseSample_eq hq]
  unfold age at h ⊢
  bv_omega

/-- In WAITH the sample of the edge at which the target has elapsed is that of the fall: it is no later. -/
theorem LeftAlone.cc_of_fall {s : State} (h : LeftAlone s) (f : s.fsm = .waith)
    (g : target s ≤ elapsed (clockEdge s)) : age s = (target s).toNat ∧ s.cc = s.startTime + target s := by
  have hage : age s = (target s).toNat := Nat.le_antisymm (h.paced f) (le_elapsed_clockEdge_iff.mp g)
  refine ⟨hage, ?_⟩
  unfold age at hage
  bv_omega

/-- FALL_END comes at the last pulse (R129). -/
theorem Inv.pulseNumber_of_last {s : State} (h : Inv s) (hb : busy s = true) (hm : s.mask = 1) (hi : s.idx = s.len) :
    pulseNumber s + 1 = 8 * s.len := by
  have := h.index hb
  rw [pulseNumber_of_twoPow (i := 0) (by omega) hm, hi]
  omega

/-- The trace that the transmission will leave stands at every edge of it: a write leaves those to come as it enters the
trace. -/
theorem LeftAlone.finalTrace_engineNext {s t : State} (h : LeftAlone s) (hb : busy s = true)
    (hn : EngineNext (clockEdge s) t) : finalTrace t = finalTrace s := by
  have same := hn.sameStream hb
  have hq : t.params.ccStride = 1 := (h.engineNext hn).stride
  have hcur : busy t = true →
      pulseNumber t = if s.fsm = .waith ∧ t.fsm = .waitp then pulseNumber s + 1 else pulseNumber s :=
    h.inv.clockEdge.pulseNumber_engineNext hb hn
  have hop := hn
  unfold finalTrace
  cases hn with
  | nopIdle f | return0 f | beginTx f => exact absurd hb (ne_true_of_eq_false (busy_eq_false.mpr f))
  | spinp f g e =>
    replace f : s.fsm = .waitp := f
    have ht : t.fsm = .waitp := by rw [e]; exact f
    have hlt : age s < s.thPeriod.toNat := Nat.not_le.mp (mt le_elapsed_clockEdge_iff.mpr g)
    have hage := h.age_of_standing hop (by rw [e]; rfl) hlt
    rw [writesToCome_waitp f, writesToCome_waitp ht, same.pulsesFrom_eq, riseSample_of_ge h.stride (by omega),
      riseSample_of_ge hq (by rw [hage, same.thPeriod]; omega), same.thPeriod, e]
    rfl
  | rise f g e =>
    replace f : s.fsm = .waitp := f
    have ht : t.fsm = .waith := by rw [e]; rfl
    rw [writesToCome_waitp f, writesToCome_waith ht, same.pulsesFrom_eq,
      riseSample_of_le h.stride (le_elapsed_clockEdge_iff.mp g), h.inv.pulsesFrom_pulseNumber hb, same.thPeriod,
      same.pin, hcur (busy_eq_true.mpr (.inr ht)), if_neg (by simp [f])]
    have htarget : target t = target s := by simp [target, bit1, e, riseState]
    have hstart : t.startTime = s.cc := by simp [e, riseState]
    have htrace : t.trace = ⟨.set, gpioMask s.pin, s.cc⟩ :: s.trace := by simp [e, riseState]
    simp [htarget, hstart, htrace]
  | spinh f g e =>
    rw [writesToCome_waith (s := s) f, writesToCome_waith (s := t) (by rw [e]; exact f), e]
    rfl
  | fallBit f g _ e | fallByte f g _ _ _ _ e =>
    replace f : s.fsm = .waith := f
    have ht : t.fsm = .waitp := by rw [e]; rfl
    obtain ⟨hage, hcc⟩ := h.cc_of_fall f g
    have hlt := h.age_lt f
    have hold := h.age_of_standing hop (by simp [e]) hlt
    have hstart : t.startTime = s.startTime := by simp [e]
    have htrace : t.trace = ⟨.clr, gpioMask s.pin, s.cc⟩ :: s.trace := by simp [e]
    rw [writesToCome_waith f, writesToCome_waitp ht, same.pulsesFrom_eq,
      riseSample_of_ge hq (by rw [hold, same.thPeriod]; omega), same.thPeriod,
      hcur (busy_eq_true.mpr (.inl ht)), if_pos ⟨f, ht⟩, hstart, htrace, hcc]
    simp
  | fallEnd f g b last e =>
    replace f : s.fsm = .waith := f
    obtain ⟨-, hcc⟩ := h.cc_of_fall f g
    have htrace : t.trace = ⟨.clr, gpioMask s.pin, s.cc⟩ :: s.trace := by simp [e]
    rw [writesToCome_waith f, writesToCome_idle (s := t) (by rw [e]; rfl), htrace, hcc,
      pulsesFrom_of_le _ (Nat.le_of_eq (h.inv.pulseNumber_of_last hb b last).symm)]
    rfl

/-! ### The edges to come -/

/-- The high time of the last bit of the stream. -/
def lastTarget (s : State) : Ticks := targetOf (thresholdsOf s) ((streamBits s).getLast?.getD false)

theorem SameStream.lastTarget {s t : State} (h : SameStream s t) : lastTarget t = lastTarget s := by
  rw [Machine.lastTarget, Machine.lastTarget, h.thresholds, h.bits]

/-- With no pulse after this one the current bit is the last. -/
theorem Inv.lastTarget_of_last {s : State} (h : Inv s) (hb : busy s = true) (h0 : pulsesAfter s = 0) :
    lastTarget s = target s := by
  have hcur : (streamBits s).length - 1 = pulseNumber s := by
    have := h.pulseNumber_lt hb
    rw [streamBits_length]
    unfold pulsesAfter at h0
    omega
  rw [lastTarget, List.getLast?_eq_getElem?, hcur, h.streamBits_pulseNumber hb]
  rfl

/-- The edges to `done`, at stride 1: the wait for the rise and the edge of the rise, a period for each pulse after this
one, and the high time of the last bit. -/
def edgesToDone (s : State) : Nat :=
  match s.fsm with
  | .idle => 0
  | .waitp => s.thPeriod.toNat - age s + 1 + pulsesAfter s * s.thPeriod.toNat + (lastTarget s).toNat
  | .waith => pulsesAfter s * s.thPeriod.toNat + (lastTarget s).toNat + 1 - age s

theorem edgesToDone_idle {s : State} (f : s.fsm = .idle) : edgesToDone s = 0 := by
  rw [edgesToDone, f]

theorem edgesToDone_waitp {s : State} (f : s.fsm = .waitp) :
    edgesToDone s = s.thPeriod.toNat - age s + 1 + pulsesAfter s * s.thPeriod.toNat + (lastTarget s).toNat := by
  rw [edgesToDone, f]

theorem edgesToDone_waith {s : State} (f : s.fsm = .waith) :
    edgesToDone s = pulsesAfter s * s.thPeriod.toNat + (lastTarget s).toNat + 1 - age s := by
  rw [edgesToDone, f]

/-- While the pin is high the last fall is not past: the current bit is the last one, or a period is still to come. -/
theorem LeftAlone.age_le_of_waith {s : State} (h : LeftAlone s) (f : s.fsm = .waith) :
    age s ≤ pulsesAfter s * s.thPeriod.toNat + (lastTarget s).toNat := by
  by_cases h0 : pulsesAfter s = 0
  · rw [h0, h.inv.lastTarget_of_last (busy_eq_true.mpr (.inr f)) h0]
    have := h.paced f
    omega
  · have := Nat.le_mul_of_pos_left s.thPeriod.toNat (Nat.pos_of_ne_zero h0)
    have := h.age_lt f
    omega

/-- Each edge of a busy block leaves exactly one edge fewer. -/
theorem LeftAlone.edgesToDone_engineNext {s t : State} (h : LeftAlone s) (hb : busy s = true)
    (hn : EngineNext (clockEdge s) t) : edgesToDone s = edgesToDone t + 1 := by
  have same := hn.sameStream hb
  have hpulses := h.pulsesAfter_engineNext hb hn
  have hop := hn
  cases hn with
  | nopIdle f | return0 f | beginTx f => exact absurd hb (ne_true_of_eq_false (busy_eq_false.mpr f))
  | spinp f g e =>
    replace f : s.fsm = .waitp := f
    have ht : t.fsm = .waitp := by rw [e]; exact f
    have hlt : age s < s.thPeriod.toNat := Nat.not_le.mp (mt le_elapsed_clockEdge_iff.mpr g)
    rw [edgesToDone_waitp f, edgesToDone_waitp ht, h.age_of_standing hop (by rw [e]; rfl) hlt,
      hpulses (busy_eq_true.mpr (.inl ht)), if_neg (by simp [f]), same.thPeriod, same.lastTarget]
    omega
  | rise f g e =>
    replace f : s.fsm = .waitp := f
    have ht : t.fsm = .waith := by rw [e]; rfl
    have hge : s.thPeriod.toNat ≤ age s := le_elapsed_clockEdge_iff.mp g
    rw [edgesToDone_waitp f, edgesToDone_waith ht, h.age_of_stamped hop (by rw [e]; rfl),
      hpulses (busy_eq_true.mpr (.inr ht)), if_neg (by simp [f]), same.thPeriod, same.lastTarget]
    omega
  | spinh f g e =>
    replace f : s.fsm = .waith := f
    have ht : t.fsm = .waith := by rw [e]; exact f
    have hle := (h.engineNext hop).age_le_of_waith ht
    have hage := h.age_of_standing hop (by rw [e]; rfl) (h.age_lt f)
    rw [hage] at hle
    rw [edgesToDone_waith f, edgesToDone_waith ht, hage, hpulses (busy_eq_true.mpr (.inr ht)), if_neg (by simp [ht]),
      ← same.thPeriod, ← same.lastTarget]
    omega
  | fallBit f _ _ e | fallByte f _ _ _ _ _ e =>
    replace f : s.fsm = .waith := f
    have ht : t.fsm = .waitp := by rw [e]; rfl
    have hlt := h.age_lt f
    rw [edgesToDone_waith f, edgesToDone_waitp ht, h.age_of_standing hop (by simp [e]) hlt,
      hpulses (busy_eq_true.mpr (.inl ht)), if_pos ⟨f, ht⟩, same.thPeriod, same.lastTarget, Nat.succ_mul]
    omega
  | fallEnd f g b last e =>
    replace f : s.fsm = .waith := f
    have h0 : pulsesAfter s = 0 := by
      have := h.inv.pulseNumber_of_last hb b last
      unfold pulsesAfter
      omega
    rw [edgesToDone_waith f, edgesToDone_idle (s := t) (by rw [e]; rfl), h.inv.lastTarget_of_last hb h0, h0,
      (h.cc_of_fall f g).1]
    omega

/-! ### The run to `done` -/

/-- The levels with the block's pin low. -/
def restLevels (s : State) : PinMask := driveLevels .clr (gpioMask s.pin) s.lvl

/-- A pin that is written and then cleared is cleared. -/
theorem driveLevels_clr_driveLevels (op : GpioOp) (p : PinId) (l : PinMask) :
    driveLevels .clr (gpioMask p) (driveLevels op (gpioMask p) l) = driveLevels .clr (gpioMask p) l := by
  refine levels_ext fun q => ?_
  by_cases hq : q = p
  · rw [hq, driveLevels_gpioMask_same, driveLevels_gpioMask_same]
  · rw [driveLevels_gpioMask_other _ _ hq, driveLevels_gpioMask_other _ _ hq, driveLevels_gpioMask_other _ _ hq]

/-- No write of the block changes the level of a pin that is not its own (R55). -/
theorem EngineNext.restLevels_eq {s t : State} (h : EngineNext (clockEdge s) t) (hb : busy s = true) :
    restLevels t = restLevels s := by
  rw [restLevels, restLevels, (h.sameStream hb).pin]
  obtain ⟨-, hl⟩ | ⟨op, -, hl⟩ := h.pins <;> rw [hl]
  · rfl
  · exact driveLevels_clr_driveLevels op s.pin s.lvl

/-- `t` is the state of the `done` edge of the transmission in progress in `s`. -/
structure DoneState (s t : State) : Prop where
  done : t.done = true
  idle : t.fsm = .idle
  trace : t.trace = finalTrace s
  levels : t.lvl = restLevels s
  sample : t.c + 1 = s.cc + BitVec.ofNat 32 (edgesToDone s)
  mem : t.mem = s.mem
  inputs : t.inputs = []

/-- An edge that takes a busy block to IDLE is FALL_END (R129). -/
theorem EngineNext.fallEnd_of_idle {s t : State} (h : EngineNext s t) (hb : busy s = true) (ht : t.fsm = .idle) :
    t = setFsm .idle { gpioWrite .clr (gpioMask s.pin) s with mask := 0, done := true } := by
  cases h with
  | nopIdle f | return0 f | beginTx f => exact absurd hb (ne_true_of_eq_false (busy_eq_false.mpr f))
  | spinp f _ e | spinh f _ e => rw [e, f] at ht; cases ht
  | rise _ _ e | fallBit _ _ _ e | fallByte _ _ _ _ _ _ e => rw [e] at ht; cases ht
  | fallEnd _ _ _ _ e => exact e

/-- Such an edge is the `done` edge. -/
theorem LeftAlone.doneState_of_idle {s t : State} (h : LeftAlone s) (hb : busy s = true)
    (hn : EngineNext (clockEdge s) t) (ht : t.fsm = .idle) : DoneState s t where
  done := by rw [hn.fallEnd_of_idle hb ht]; rfl
  idle := ht
  trace := by rw [← h.finalTrace_engineNext hb hn, finalTrace, writesToCome_idle ht]; rfl
  levels := by rw [hn.fallEnd_of_idle hb ht]; rfl
  sample := by rw [h.edgesToDone_engineNext hb hn, edgesToDone_idle ht, hn.c_eq]; rfl
  mem := hn.mem_eq
  inputs := (h.engineNext hn).inputs

/-- The `done` edge seen from one edge before. -/
theorem LeftAlone.doneState_step {s u t : State} (h : LeftAlone s) (hb : busy s = true)
    (hn : EngineNext (clockEdge s) u) (hd : DoneState u t) : DoneState s t :=
  { hd with
    trace := hd.trace.trans (h.finalTrace_engineNext hb hn)
    levels := hd.levels.trans (hn.restLevels_eq hb)
    sample := by
      rw [hd.sample, h.cc_eq hn, h.edgesToDone_engineNext hb hn, BitVec.ofNat_add, BitVec.add_assoc,
        BitVec.add_comm 1]
      rfl
    mem := hd.mem.trans hn.mem_eq }

/-- Left alone, a busy block comes to its `done` edge after exactly the edges that are to come (R140). -/
theorem LeftAlone.run_edgesToDone {s : State} (h : LeftAlone s) (hb : busy s = true) :
    ∃ t, run (edgesToDone s) s = .next t ∧ DoneState s t := by
  induction hk : edgesToDone s generalizing s with
  | zero =>
    obtain ⟨t, hn⟩ := h.exists_engineNext
    rw [h.edgesToDone_engineNext hb hn] at hk
    cases hk
  | succ k ih =>
    obtain ⟨u, hn⟩ := h.exists_engineNext
    have hstep := (step_next_iff h.inputs h.running).mpr hn
    have hfewer : edgesToDone u = k := Nat.succ.inj ((h.edgesToDone_engineNext hb hn).symm.trans hk)
    rw [run_next k hstep]
    cases hu : busy u with
    | true =>
      obtain ⟨t, hrun, hd⟩ := ih (h.engineNext hn) hu hfewer
      exact ⟨t, hrun, h.doneState_step hb hn hd⟩
    | false =>
      have ht := busy_eq_false.mp hu
      rw [edgesToDone_idle ht] at hfewer
      exact ⟨u, hfewer ▸ rfl, h.doneState_of_idle hb hn ht⟩

end Sys2Proof.Machine
end

section
/-! PROOFS of the family `40_transmit_command`, third part: a presented command, from its accepting step to `done`. -/

namespace Sys2Proof.Machine

/-! ### The accepted command -/

/-- `t` is the state after the accepting step of the command `{p, a, l}` with thresholds `th` in `s`, at stride 1. -/
structure AcceptedState (s t : State) (p : PinId) (a l : Nat) (th : Thresholds) : Prop where
  waitp : t.fsm = .waitp
  stride : t.params.ccStride = 1
  pin : t.pin = p
  base : t.base = a
  len : t.len = l
  thresholds : thresholdsOf t = th
  startTime : t.startTime = 0
  idx : t.idx = 1
  mask : t.mask = 0x80
  cc : t.cc = acceptSample s + 1
  lvl : t.lvl = s.lvl
  trace : t.trace = s.trace
  mem : t.mem = s.mem

section
variable {s : State} {p : PinId} {a l : Nat} {bytes : List Byte} {th : Thresholds} {last : Bool}

theorem Presented.acceptedState (h : Presented s p a l bytes th last) {t : State} (hstep : step s = .next t) :
    AcceptedState s t p a l th := by
  obtain ⟨ha, hl⟩ : a < s.params.addrSpace ∧ l < s.params.lenSpace := by simpa [Instr.operandsFit] using h.fits
  obtain ⟨-, b, -, hb⟩ := h.ready.operands (Nat.ne_of_gt h.positive)
  have hm : Memory.read s.mem a = some b := by simpa using hb
  have ready : TxReady p a l (clockEdge (takeSample { s with inputs := [] })) := by
    have hr := h.ready
    rw [takeSample_idle h.idle h.running] at hr
    rw [takeSample_idle (s := { s with inputs := [] }) h.idle h.running]
    exact { hr with }
  rw [step_word h.input (by simp) (decode_encode_transmit h.fits)] at hstep
  have heq := (execTransmit_accepted (s := { s with inputs := [] }) h.idle h.running (Nat.ne_of_gt h.positive) ha hl
    ready h.clock hm).symm.trans hstep
  cases heq
  constructor
  case stride => exact h.stride
  case cc => rw [h.stride]; rfl
  all_goals rfl

theorem Presented.low (h : Presented s p a l bytes th last) : s.lvl.getLsbD p.toNat = false := by
  simpa using h.ready.low

/-- The bits of the stream are those of the bytes. -/
theorem Presented.streamBits_eq (h : Presented s p a l bytes th last) {t : State} (ht : AcceptedState s t p a l th) :
    streamBits t = bitsOf bytes := by
  have hbytes : ((List.range l).map fun i => (byteRead s.mem a i).data) = bytes := by
    apply List.ext_getElem
    · simp [h.length]
    · intro i hi hi'
      rw [List.length_map, List.length_range] at hi
      simp [byteRead, h.stored i hi, hi']
  rw [streamBits, ht.len, ht.mem, ht.base, hbytes]

end

section
variable {s t : State} {p : PinId} {a l : Nat} {th : Thresholds}

theorem AcceptedState.age_eq (h : AcceptedState s t p a l th) : age t = (acceptSample s + 1).toNat := by
  rw [age, h.cc, h.startTime]
  exact congrArg BitVec.toNat (BitVec.sub_zero _)

theorem AcceptedState.thPeriod (h : AcceptedState s t p a l th) : t.thPeriod = th.period :=
  congrArg Thresholds.period h.thresholds

/-- The first rise is where `START` 0 puts it (R135). -/
theorem AcceptedState.riseSample_eq (h : AcceptedState s t p a l th) :
    riseSample t = firstRise th (acceptSample s) := by
  unfold firstRise
  split <;> rename_i hp
  · rw [riseSample_of_le h.stride (by rw [h.age_eq, h.thPeriod]; exact hp), h.cc]
  · rw [riseSample_of_ge h.stride (by rw [h.age_eq, h.thPeriod]; exact Nat.le_of_not_le hp), h.startTime, h.thPeriod]
    exact BitVec.zero_add _

/-- The cursor is at the first pulse (R29). -/
theorem AcceptedState.pulseNumber_eq (h : AcceptedState s t p a l th) : pulseNumber t = 0 := by
  rw [pulseNumber_of_twoPow (i := 7) (by omega) h.mask, h.idx]

end

/-! ### From the accepting step to `done` -/

/-- The wait for the first rise, in ticks: what the period has left after the accepting step (R135, R140). -/
theorem firstRise_sub (th : Thresholds) (c0 : Ticks) :
    (firstRise th c0 - (c0 + 1)).toNat = th.period.toNat - (c0 + 1).toNat := by
  unfold firstRise
  split <;> bv_omega

section
variable {s t : State} {p : PinId} {a l : Nat} {bytes : List Byte} {th : Thresholds} {last : Bool}
  (h : Presented s p a l bytes th last) (ht : AcceptedState s t p a l th)
include h ht

theorem Presented.lastTarget_eq : lastTarget t = targetOf th last := by
  rw [lastTarget, ht.thresholds, h.streamBits_eq ht, h.lastBit]
  rfl

/-- The edges to `done` after the accepting step, in the terms of R140. -/
theorem Presented.edgesToDone_eq :
    edgesToDone t = (firstRise th (acceptSample s) - (acceptSample s + 1)).toNat + 1 +
      (8 * l - 1) * th.period.toNat + (targetOf th last).toNat := by
  rw [edgesToDone_waitp ht.waitp, pulsesAfter_of_first ht.idx ht.mask, h.lastTarget_eq ht, ht.len, ht.thPeriod,
    ht.age_eq, firstRise_sub]

theorem Presented.transmissionSteps_eq :
    transmissionSteps th (acceptSample s) (8 * l) last = edgesToDone t + 1 := by
  rw [h.edgesToDone_eq ht, transmissionSteps]
  omega

/-- The trace of the transmission is the waveform of the bytes' bits. -/
theorem Presented.finalTrace_eq :
    finalTrace t =
      (waveform (gpioMask p) th (firstRise th (acceptSample s)) (bitsOf bytes)).reverse ++ s.trace := by
  rw [finalTrace, writesToCome_waitp ht.waitp, pulsesFrom, ht.pin, ht.thresholds, ht.riseSample_eq,
    h.streamBits_eq ht, ht.pulseNumber_eq, List.drop_zero, ht.trace]

/-- The pin is low, so clearing it changes no level. -/
theorem Presented.restLevels_eq : restLevels t = s.lvl := by
  rw [restLevels, ht.pin, ht.lvl, driveLevels_gpioMask_of_level (h.low.trans rfl)]

/-- The sample of the `done` edge is that of the last fall (R138). -/
theorem Presented.sample_eq {u : State} (hd : DoneState t u) :
    u.c = firstRise th (acceptSample s) + BitVec.ofNat 32 (8 * l - 1) * th.period + targetOf th last := by
  have hc := hd.sample
  rw [h.edgesToDone_eq ht, ht.cc] at hc
  simp only [BitVec.ofNat_add, BitVec.ofNat_mul, BitVec.ofNat_toNat, BitVec.setWidth_eq] at hc
  rw [show BitVec.ofNat 32 1 = 1 from rfl] at hc
  linear_combination hc

end

/-- Settles O52: the accepting step sets up the waveform as the writes to come, and the machine, left alone, makes them
in exactly the edges to `done`. -/
theorem transmissionProducesExactWaveform : Obligations.TransmissionProducesExactWaveform := by
  intro s p a l bytes th last h
  obtain ⟨t, hstep, alone, -, -⟩ := h.accepted
  have ht := h.acceptedState hstep
  obtain ⟨u, hrun, hd⟩ := alone.run_edgesToDone (busy_eq_true.mpr (.inl ht.waitp))
  have htrace := hd.trace.trans (h.finalTrace_eq ht)
  have hlvl := hd.levels.trans (h.restLevels_eq ht)
  refine ⟨u, ?_, hd.done, hd.idle, htrace, ?_, hlvl, ?_, h.sample_eq ht hd, hd.mem.trans ht.mem, hd.inputs⟩
  · rw [h.transmissionSteps_eq ht, run_next _ hstep, hrun]
  · rw [htrace, List.length_append, List.length_reverse, waveform_length, bitsOf_length, h.length]
    omega
  · rw [hlvl, h.low]

end Sys2Proof.Machine
end

section
/-! PROOFS of the family `41_calibration`: the lookup CALIBRATE on its two rows and on every other code (R105, R111), and the
windows of the thresholds (R109). -/

namespace Sys2Proof.Machine

theorem calibrate_80 : calibrate 80 = some ⟨24, 48, 100⟩ := rfl

theorem calibrate_160 : calibrate 160 = some ⟨48, 96, 200⟩ := rfl

/-- CALIBRATE of a code with thresholds puts them in the lookup's record and changes nothing else (R105, R22). -/
theorem execCalibrate_of_some {m : BitVec 8} {th : Thresholds} (h : calibrate m = some th) (s : State) :
    execCalibrate m s = .next { s with calResult := th } := by
  rw [execCalibrate, h]

/-- CALIBRATE refuses a code without thresholds (R111). -/
theorem execCalibrate_of_none {m : BitVec 8} (h : calibrate m = none) (s : State) :
    execCalibrate m s = .refused .unsupportedClock := by
  rw [execCalibrate, h]

/-- Settles O25: the lookup by the two rows of the table and by `calibrate_eq_none_iff` off them. -/
theorem calibrateIsTwoRowTable : Obligations.CalibrateIsTwoRowTable := by
  intro m s
  refine ⟨fun h80 => ?_, fun h160 => ?_, fun h80 h160 => ?_⟩
  · subst h80
    exact execCalibrate_of_some calibrate_80 s
  · subst h160
    exact execCalibrate_of_some calibrate_160 s
  · exact execCalibrate_of_none (calibrate_eq_none_iff.mpr ⟨h80, h160⟩) s

/-- Settles O26: thresholds are those of one of the two rows (`calibrate_some`), and each row meets the bounds. -/
theorem thresholdsWithinWindows : Obligations.ThresholdsWithinWindows := by
  refine ⟨Option.isSome_of_eq_some calibrate_80, Option.isSome_of_eq_some calibrate_160, fun m th h => ?_⟩
  obtain ⟨rfl, rfl⟩ | ⟨rfl, rfl⟩ := calibrate_some h
  · decide
  · decide

end Sys2Proof.Machine
end

section
/-! PROOFS of the family `42_fsm_steps`: each engine operation as an equation of states (R121 to R129), the transition
table of `S` (R134), the thresholds that its edges wait for (R130, R135, R136), and READ_CYCLES (R153). -/

namespace Sys2Proof.Machine

/-! ### The clock edge and the operations that write no pin -/

/-- Settles O7: the edge written out. -/
theorem clockEdgeSamplesAndCounts : Obligations.ClockEdgeSamplesAndCounts := fun _ => rfl

/-- Settles O14: each of the three is the state itself. -/
theorem waitingOperationsChangeNothing : Obligations.WaitingOperationsChangeNothing :=
  fun _ _ _ _ _ _ => ⟨rfl, rfl, rfl⟩

/-- An idle block with `start` 1 and `len_in` 0 selects RETURN0 (R73). -/
theorem selected_of_zeroLength {s : State} (f : s.fsm = .idle) (hs : s.ports.start = true) (hl : s.ports.lenIn = 0) :
    selected s = .return0 (ge s) (lastbit s) (lastbyte s) := by
  have hz : lenz s = true := by rw [lenz, hl]; rfl
  rw [selected, f, hs, hz]
  rfl

/-- Settles O15: RETURN0 is the operation that such a step selects, after a clock edge that clears the strobes. -/
theorem return0OnlyRaisesDone : Obligations.Return0OnlyRaisesDone := by
  refine ⟨fun _ _ _ _ => rfl, fun s hi hr f hs hl => ⟨?_, _, step_return0 hi f hr hs hl, rfl, busy_eq_false.mpr f,
    busy_eq_false.mpr f, rfl, rfl⟩⟩
  rw [decode_stepWord, selected_of_zeroLength (s := clockEdge s) f hs hl]
  exact ⟨_, _, _, rfl⟩

/-- BEGIN of a ready command latches it (R123). -/
theorem execBegin_of_ready {s : State} (ready : TxReady s.ports.pinIn s.ports.baseIn s.ports.lenIn s)
    {th : Thresholds} {b : Byte} (hc : calibrate s.ports.cpuMhz = some th)
    (hm : Memory.read s.mem s.ports.baseIn = some b) : execBegin s = .next (beginState th b s) := by
  rw [execBegin, (beginRefusal_none_iff s).mpr ready, hc, hm]

/-- Settles O16: a ready command has thresholds, which are those of its clock code, and a first byte. -/
theorem beginLatchesCommand : Obligations.BeginLatchesCommand := by
  intro g b e s hl ready
  obtain ⟨th, v, hc, hm⟩ := ready.operands hl
  refine ⟨th, v, ?_, hm, execBegin_of_ready ready hc hm⟩
  obtain ⟨hcode, rfl⟩ | ⟨hcode, rfl⟩ := calibrate_some hc <;> rw [hcode] <;> rfl

/-! ### The operations that write the block's pin -/

/-- The block's SET on one pin, as an equation of states: no pin falls. -/
theorem gpioWrite_set (p : PinId) (s : State) :
    gpioWrite .set (gpioMask p) s =
      { s with
        lvl := s.lvl ||| gpioMask p
        gpio := some ⟨.set, gpioMask p⟩
        trace := ⟨.set, gpioMask p, s.c⟩ :: s.trace } := by
  rw [gpioWrite, drivePort_set]
  rfl

/-- The block's CLR on one pin, as an equation of states: that pin's fall is noted if it was high. -/
theorem gpioWrite_clr (p : PinId) (s : State) :
    gpioWrite .clr (gpioMask p) s =
      { s with
        lvl := s.lvl &&& ~~~(gpioMask p)
        gpio := some ⟨.clr, gpioMask p⟩
        trace := ⟨.clr, gpioMask p, s.c⟩ :: s.trace
        fellAt := notedFall p s.lvl s.now s.fellAt } := by
  rw [gpioWrite, drivePort_clr]
  rfl

/-- The state a RISE leaves, field by field (R125). -/
theorem riseState_eq (s : State) :
    riseState s =
      { s with
        fsm := .waith
        startTime := s.c
        lvl := s.lvl ||| gpioMask s.pin
        gpio := some ⟨.set, gpioMask s.pin⟩
        trace := ⟨.set, gpioMask s.pin, s.c⟩ :: s.trace } := by
  rw [riseState, gpioWrite_set]
  rfl

/-- Settles O18: RISE leaves `riseState`. -/
theorem riseDrivesHigh : Obligations.RiseDrivesHigh :=
  fun _ _ _ _ s => congrArg Host.Outcome.next (riseState_eq s)

/-- Settles O19: the CLR of `gpioWrite_clr`, and the two registers of R127. -/
theorem fallBitDrivesLow : Obligations.FallBitDrivesLow := by
  intro t z e s
  show execFallBit s = _
  rw [execFallBit, gpioWrite_clr]
  rfl

/-- Settles O20: the CLR of `gpioWrite_clr` with the registers of R128, or the refusal of R92. -/
theorem fallByteFetchesNext : Obligations.FallByteFetchesNext := by
  refine ⟨fun t z s v hv => ?_, fun t z s hv => ?_⟩
  · have hread : Memory.read s.mem (bufAddr s.params s.base s.idx) = some v := hv
    show execFallByte s = _
    rw [execFallByte, hread, gpioWrite_clr]
    rfl
  · have hread : Memory.read s.mem (bufAddr s.params s.base s.idx) = none := hv
    show execFallByte s = _
    rw [execFallByte, hread]

/-- Settles O21: the CLR of `gpioWrite_clr`, the two registers of R129 and `done`. -/
theorem fallEndFinishes : Obligations.FallEndFinishes := by
  intro t z s
  show execFallEnd s = _
  rw [execFallEnd, gpioWrite_clr]
  rfl

/-! ### The transition table (R134) -/

/-- The state of `S` in which the engine performs an operation (R73, R134). -/
def homeState : Instr → FsmState
  | .spinp _ _ _ _ | .rise _ _ _ _ => .waitp
  | .spinh _ _ _ _ | .fallBit _ _ _ | .fallByte _ _ | .fallEnd _ _ => .waith
  | _ => .idle

/-- The operation selected is an engine operation of the state that `S` is in. -/
theorem selectedOf_home (f : FsmState) (t z g b e : Bool) :
    homeState (selectedOf f t z g b e) = f ∧ (selectedOf f t z g b e).format = .step := by
  revert t z g b e
  cases f <;> decide

/-- A step whose word decodes to the operation `i` is made in the home state of `i` and is `i` after a clock edge. -/
theorem exec_of_decode_stepWord {s t : State} {i : Instr} (hi : s.inputs = []) (hr : s.ports.rst = false)
    (h : step s = .next t) (hd : decode s.params .step (stepWord (clockEdge s)).toNat = .ok i) :
    s.fsm = homeState i ∧ exec i (clockEdge s) = .next t := by
  rw [decode_stepWord, Decoded.ok.injEq] at hd
  subst hd
  exact ⟨(selectedOf_home ..).1.symm, by rw [exec_selected, ← step_eq_engineCase hi hr, h]⟩

/-- Settles O38: each clause is the operation that the word decodes to, run after a clock edge from its home state. -/
theorem transitionTable : Obligations.TransitionTable := by
  intro s t hi h
  refine ⟨fun hr => ?_, fun hr => ?_⟩
  · cases (step_of_rst hi hr).symm.trans h
    exact ⟨rfl, rfl⟩
  have key {i : Instr} (hd : decode s.params .step (stepWord (clockEdge s)).toNat = .ok i) :
      s.fsm = homeState i ∧ exec i (clockEdge s) = .next t := exec_of_decode_stepWord hi hr h hd
  refine ⟨fun z g b e hd => ?nopIdle, fun g b e hd => ?return0, fun g b e hd => ?beginTx, fun x z b e hd => ?spinp,
    fun x z b e hd => ?rise, fun x z b e hd => ?spinh, fun x z e hd => ?fallBit, fun x z hd => ?fallByte,
    fun x z hd => ?fallEnd, _, decode_stepWord s.params (clockEdge s), (selectedOf_home ..).2⟩
  all_goals obtain ⟨f, hx⟩ := key hd
  case nopIdle | return0 | spinp | spinh => cases hx; exact ⟨f, f, rfl⟩
  case rise | fallBit | fallEnd => cases hx; exact ⟨f, rfl, rfl⟩
  case beginTx =>
    obtain ⟨-, th, v, -, -, rfl⟩ := execBegin_next hx
    exact ⟨f, rfl, rfl, v, rfl⟩
  case fallByte =>
    obtain ⟨v, -, rfl⟩ := execFallByte_next hx
    exact ⟨f, rfl, rfl, v, rfl⟩

/-! ### The thresholds that the edges wait for -/

/-- Settles O41: the elapsed time of an edge is the counter's distance from `START`. -/
theorem elapsedIsTrueTickCount : Obligations.ElapsedIsTrueTickCount := by
  intro s n hn hcc
  rw [elapsed_clockEdge, hcc, BitVec.add_comm, BitVec.add_sub_cancel, BitVec.toNat_ofNat, Nat.mod_eq_of_lt hn]

/-- The engine's choice leaves one state at most. -/
theorem EngineNext.unique {s t u : State} (ht : EngineNext s t) (hu : EngineNext s u) : t = u :=
  Host.Outcome.next.inj ((engineCase_next_iff.mpr ht).symm.trans (engineCase_next_iff.mpr hu))

/-- An edge of WAITP at which the period has elapsed is a RISE (R125). -/
theorem engineNext_of_risen {s : State} (f : s.fsm = .waitp) (g : s.thPeriod.toNat ≤ age s) :
    EngineNext (clockEdge s) (riseState (clockEdge s)) := .rise f (le_elapsed_clockEdge_iff.mpr g) rfl

/-- An edge of WAITH at which the target has elapsed leaves WAITH and shows the CLR (R127 to R129). -/
theorem EngineNext.shows_fall {s t : State} (hn : EngineNext (clockEdge s) t) (f : s.fsm = .waith)
    (g : (target s).toNat ≤ age s) : t.fsm ≠ .waith ∧ t.gpio = some ⟨.clr, gpioMask s.pin⟩ := by
  cases hn with
  | nopIdle f' | return0 f' | beginTx f' | spinp f' | rise f' => rw [clockEdge_fsm, f] at f'; cases f'
  | spinh _ g' => exact absurd (le_elapsed_clockEdge_iff.mpr g) g'
  | fallBit _ _ _ e | fallByte _ _ _ _ _ _ e | fallEnd _ _ _ _ e => exact e ▸ ⟨nofun, rfl⟩

/-- Settles O40: an edge at which the threshold has elapsed is the RISE or a fall, every other edge of a busy block is a
clock edge and no more. -/
theorem edgesWaitForTheirThresholds : Obligations.EdgesWaitForTheirThresholds := by
  intro s t hi hr h
  have hn := (step_next_iff hi hr).mp h
  refine ⟨fun f => ⟨fun g => ?_, fun w => ?_⟩, fun f tgt htgt => ?_⟩
  · obtain rfl := hn.unique (engineNext_of_risen f g)
    exact ⟨rfl, rfl, driveLevels_gpioMask_same .set s.pin s.lvl, rfl⟩
  · rw [← threshold_waitp f] at w
    obtain rfl := hn.unique (engineNext_of_waiting (busy_eq_true.mpr (.inl f)) w)
    exact ⟨f, rfl, rfl, rfl⟩
  · rw [← target_eq] at htgt
    subst htgt
    refine ⟨fun g => ?_, fun w => ?_⟩
    · obtain ⟨hleft, hshown⟩ := hn.shows_fall f g
      obtain ⟨hline, hstart⟩ := hn.fall f g
      refine ⟨hleft, hshown, ?_, hstart⟩
      rw [hline.lvl]
      exact driveLevels_gpioMask_same .clr s.pin s.lvl
    · rw [← threshold_waith f] at w
      obtain rfl := hn.unique (engineNext_of_waiting (busy_eq_true.mpr (.inr f)) w)
      exact ⟨f, rfl, rfl, rfl⟩

/-! ### The first bit's wait (R135) -/

/-- An edge of WAITP at which the period has elapsed, as an equation of states (R125). -/
theorem step_rise {s : State} (hi : s.inputs = []) (hr : s.ports.rst = false) (f : s.fsm = .waitp)
    (g : s.thPeriod.toNat ≤ age s) :
    step s = .next { s with
      fsm := .waith, startTime := s.cc
      lvl := s.lvl ||| gpioMask s.pin, gpio := some ⟨.set, gpioMask s.pin⟩
      trace := ⟨.set, gpioMask s.pin, s.cc⟩ :: s.trace
      c := s.cc, cycles := s.cc, cc := s.cc + s.params.stride, now := s.now + s.params.ccStride
      done := false, memRead := none, stepSel := stepWord (clockEdge s) } := by
  rw [(step_next_iff hi hr).mpr (engineNext_of_risen f g), riseState_eq]
  rfl

theorem age_of_startTime_zero {s : State} (h0 : s.startTime = 0) : age s = s.cc.toNat := by
  rw [age, h0]
  exact congrArg BitVec.toNat (BitVec.sub_zero _)

theorem stride_of_one {q : Params} (hq : q.ccStride = 1) : q.stride = 1 := by rw [Params.stride, hq]; rfl

/-- With `START` 0, at stride 1, the edges before the counter reaches the period all wait. -/
theorem run_to_period {s : State} (f : s.fsm = .waitp) (h0 : s.startTime = 0) (hi : s.inputs = [])
    (hr : s.ports.rst = false) (hq : s.params.ccStride = 1) {k : Nat} (hk : s.cc.toNat + k ≤ s.thPeriod.toNat) :
    run k s = .next (idleEdges k s) := by
  refine run_of_waiting (busy_eq_true.mpr (.inl f)) hi hr fun j hj => ?_
  have hage := age_of_startTime_zero h0
  have hlt := s.thPeriod.isLt
  rw [threshold_waitp f, age_idleEdges (by rw [hage, hq]; omega), hage, hq]
  omega

/-- Settles O50: a sample at or above the period rises (`step_rise`); below it the edges wait until the counter stands
at the period (`run_to_period`), and the next edge rises. -/
theorem firstBitWaitsForCounter : Obligations.FirstBitWaitsForCounter := by
  intro s f h0 hi hr hq
  refine ⟨fun hp => ?_, fun hlt => ?_⟩
  · rw [step_rise hi hr f (by rw [age_of_startTime_zero h0]; exact hp), stride_of_one hq, hq]
  · obtain ⟨n, hn⟩ : ∃ n, (s.thPeriod - s.cc).toNat = n + 1 := ⟨(s.thPeriod - s.cc).toNat - 1, by bv_omega⟩
    have hc : s.cc + BitVec.ofNat 32 (n * s.params.ccStride) = s.thPeriod - 1 := by rw [hq]; bv_omega
    have hcc : s.cc + BitVec.ofNat 32 ((n + 1) * s.params.ccStride) = s.thPeriod := by rw [hq]; bv_omega
    have hu := idleEdges_eq n s
    rw [hc, hcc, hq, Nat.mul_one] at hu
    rw [hn]
    refine ⟨_, run_to_period f h0 hi hr hq (by bv_omega), hu, ?_⟩
    have hucc : (idleEdges (n + 1) s).cc = s.thPeriod := by rw [idleEdges_cc, hcc]
    have hreach : (idleEdges (n + 1) s).thPeriod.toNat ≤ age (idleEdges (n + 1) s) := by
      rw [age_of_startTime_zero (s := idleEdges (n + 1) s) h0, hucc, idleEdges_thPeriod]
    rw [step_rise (s := idleEdges (n + 1) s) hi hr f hreach, hucc, idleEdges_lvl, idleEdges_pin, idleEdges_trace,
      idleEdges_params, stride_of_one hq, hq]
    rfl

/-! ### READ_CYCLES (R153) -/

theorem startStamped_eq_false_iff {s : State} :
    startStamped s = false ↔ s.fsm = .waitp ∧ s.idx = 1 ∧ s.mask = 0x80 := by
  simp [startStamped, and_assoc]

/-- The distance of the second comparison, with R31's conditions written out. -/
theorem nextCompare_eq (s : State) :
    nextCompare s = if s.fsm = .waith ∧ ¬ (s.mask = 1 ∧ s.idx = s.len) then s.params.ccStride else 0 := by
  simp [nextCompare, lastbit, lastbyte, imp_iff_not_or]

/-- In an idle block no guard of READ_CYCLES refuses (R153). -/
theorem execReadCycles_of_idle (v : Ticks) {s : State} (hb : busy s = false) :
    execReadCycles v s = .next { runOn v s with cycles := v } := by
  simp [execReadCycles, hb]

/-- In a busy block READ_CYCLES has three guards: of R188, of R189 with R139, and of R219. -/
theorem execReadCycles_of_busy (v : Ticks) {s : State} (hb : busy s = true) :
    execReadCycles v s =
      if v = s.c then .refused .counterStopped
      else if 2 ^ 32 ≤ ticksSince v s + s.thPeriod.toNat then .refused .counterBackwards
      else if startStamped s = true ∧ 2 ^ 32 ≤ (s.c - s.startTime).toNat + ticksSince v s + nextCompare s then
        .refused .interrupted
      else .next { runOn v s with cycles := v } := by
  simp [execReadCycles, hb]

/-- Settles O23: in a busy block the first guard that holds refuses the word; where none does the counter stands at the
value read, as it does in an idle block. -/
theorem readCyclesReturnsCounter : Obligations.ReadCyclesReturnsCounter := by
  intro v s d e hd he
  obtain rfl : d = ticksSince v s := hd
  obtain rfl : e = nextCompare s := he.trans (nextCompare_eq s).symm
  have hexec : exec (.readCycles v) s = execReadCycles v s := rfl
  rw [hexec]
  refine ⟨fun h => ?_, fun hb hv => ?_, fun hb hv hback => ?_, fun hb hv hback hs hgap => ?_⟩
  · cases hb : busy s with
    | false => exact execReadCycles_of_idle v hb
    | true =>
      obtain ⟨hv, hback, hgap⟩ := h.resolve_left (by simp [hb])
      rw [execReadCycles_of_busy v hb, if_neg hv, if_neg (Nat.not_le.mpr hback), if_neg]
      · rfl
      · rintro ⟨hs, hge⟩
        obtain hconst | hlt := hgap
        · rw [startStamped_eq_false_iff.mpr hconst] at hs
          cases hs
        · exact absurd hge (Nat.not_le.mpr hlt)
  all_goals rw [execReadCycles_of_busy v hb]
  · exact if_pos hv
  · rw [if_neg hv, if_pos hback]
  · have hstamped : startStamped s = true := by rwa [← Bool.not_eq_false, startStamped_eq_false_iff]
    rw [if_neg hv, if_neg (Nat.not_le.mpr hback), if_pos ⟨hstamped, hgap⟩]

end Sys2Proof.Machine
end

section
/-! PROOFS of the family `43_platform_primitives`: the interrupt mask, its `LOCK` and `UNLOCK`, and an interrupt that fires
(R155, R156, R182). -/

namespace Sys2Proof.Machine

/-! ### The critical section's inputs as steps -/

/-- A step whose first input is a `LOCK` is that masking, the input taken. -/
theorem step_lock {s : State} {rest : List Input} (hi : s.inputs = .lock :: rest) :
    step s = inputLock { s with inputs := rest } := by
  unfold step cycle
  rw [hi]

/-- A step whose first input is an `UNLOCK` is that restoring, the input taken. -/
theorem step_unlock {s : State} {rest : List Input} (hi : s.inputs = .unlock :: rest) :
    step s = inputUnlock { s with inputs := rest } := by
  unfold step cycle
  rw [hi]

/-- A step whose first input is an interrupt is that source firing, the input taken. -/
theorem step_interrupt {s : State} {rest : List Input} (hi : s.inputs = .interrupt :: rest) :
    step s = inputInterrupt { s with inputs := rest } := by
  unfold step cycle
  rw [hi]

/-! ### Restoring the masking (R156) -/

theorem inputUnlock_of_saved {s : State} {m : Bool} {ms : List Bool} (h : s.maskSaved = m :: ms) :
    inputUnlock s = .next { s with intMasked := m, maskSaved := ms } := by
  rw [inputUnlock, h]

theorem inputUnlock_of_unpaired {s : State} (h : s.maskSaved = []) : inputUnlock s = .refused .unlockUnpaired := by
  rw [inputUnlock, h]

/-! ### An interrupt (R155, R182) -/

/-- An interrupt is not taken where every source is masked. -/
theorem inputInterrupt_of_masked {s : State} (hm : s.intMasked = true) : inputInterrupt s = .next s := by
  simp [inputInterrupt, hm]

/-- An interrupt in an idle block concerns the platform only. -/
theorem inputInterrupt_of_idle {s : State} (hb : busy s = false) : inputInterrupt s = .next s := by
  simp [inputInterrupt, hb]

/-- An interrupt taken in a busy block stops the run. -/
theorem inputInterrupt_of_taken {s : State} (hb : busy s = true) (hm : s.intMasked = false) :
    inputInterrupt s = .refused .interrupted := by
  simp [inputInterrupt, hb, hm]

/-! ### The obligations -/

/-- Settles O55: the restoring in its two cases, on whether a masking is kept. -/
theorem unlockNeedsLock : Obligations.UnlockNeedsLock := by
  intro s rest hi
  rw [step_unlock hi]
  exact ⟨fun hnone => inputUnlock_of_unpaired hnone, fun _ _ hsaved => inputUnlock_of_saved hsaved⟩

/-- Settles O45: `LOCK` keeps the masking in force on top of `maskSaved`, the masked interrupt leaves it there, and `UNLOCK`
takes it back; the other two clauses are an interrupt in a busy and in an idle block. -/
theorem criticalSectionMasksInterrupts : Obligations.CriticalSectionMasksInterrupts := by
  intro s rest
  refine ⟨fun hi => ?_, fun hi hb hm => ?_, fun hi hb => ?_⟩
  · refine ⟨_, _, step_lock hi, rfl, ?_, rfl, ?_⟩
    · rw [step_interrupt rfl]
      exact inputInterrupt_of_masked rfl
    · rw [step_unlock rfl]
      exact inputUnlock_of_saved rfl
  · rw [step_interrupt hi]
    exact inputInterrupt_of_taken hb hm
  · rw [step_interrupt hi]
    exact inputInterrupt_of_idle hb

end Sys2Proof.Machine
end

section
/-! PROOFS of the family `44_line_protocol`, first part: the latch gap, timed from a fall at one rate of the clock and
across a change of it (R171, R214, R222). -/

namespace Sys2Proof.Machine

/-! ### The gap after a noted fall -/

/-- The gap of a pin whose last fall is noted is met when the time since is more than `LATCH_US` (R171). -/
theorem latchGapMet_of_fell {s : State} {p : PinId} {t : Nat} (h : s.fellAt.getD p.toNat none = some t) :
    latchGapMet s p =
      decide (s.params.latchUs * (microsSince t s.now s.clkMhz.toNat s.clockPast).2 <
        (microsSince t s.now s.clkMhz.toNat s.clockPast).1) := by
  rw [latchGapMet, h]

/-- A pin with no note of a fall owes no gap. -/
theorem latchGapMet_of_not_fell {s : State} {p : PinId} (h : s.fellAt.getD p.toNat none = none) :
    latchGapMet s p = true := by
  rw [latchGapMet, h]

/-- Where the clock has kept its rate since the fall, the gap is met after more ticks than `LATCH_US` times the rate. -/
theorem latchGapMet_of_fell_at_one_rate {s : State} {p : PinId} {t : Nat} (h : s.fellAt.getD p.toNat none = some t)
    (hpast : ∀ ph ∈ s.clockPast, ph.ended ≤ t) :
    latchGapMet s p = decide (s.clkMhz ≠ 0 ∧ s.params.latchUs * s.clkMhz.toNat < s.now - t) := by
  have hmhz : s.clkMhz.toNat ≠ 0 ↔ s.clkMhz ≠ 0 := BitVec.toNat_ne_iff_ne (y := 0)
  rw [latchGapMet_of_fell h, microsSince_same hpast]
  simp only [addTicks_lt, hmhz]

/-- Where the clock has changed its rate once since the fall, from `a` to the present one, the gap is met when the ticks
at each rate, over that rate, are together more than `LATCH_US` (R222). -/
theorem latchGapMet_of_fell_at_two_rates {s : State} {p : PinId} {t e : Nat} {a : BitVec 8} {past : List ClockPhase}
    (h : s.fellAt.getD p.toNat none = some t) (hphase : s.clockPast = ⟨e, a⟩ :: past)
    (hpast : ∀ ph ∈ past, ph.ended ≤ t) (hte : t ≤ e) (ha : a ≠ 0) (hb : s.clkMhz ≠ 0) :
    latchGapMet s p =
      decide (s.params.latchUs * (a.toNat * s.clkMhz.toNat) < (e - t) * s.clkMhz.toNat + (s.now - e) * a.toNat) := by
  have ha' : a.toNat ≠ 0 := BitVec.toNat_ne_iff_ne.mpr ha
  have hb' : s.clkMhz.toNat ≠ 0 := BitVec.toNat_ne_iff_ne.mpr hb
  rw [latchGapMet_of_fell h, hphase, microsSince]
  split <;> rename_i he
  · obtain rfl : e = t := Nat.le_antisymm he hte
    have hscale : s.params.latchUs * (a.toNat * s.clkMhz.toNat) = s.params.latchUs * s.clkMhz.toNat * a.toNat := by ring
    simp [addTicks, hb', hscale, Nat.mul_lt_mul_right (Nat.pos_of_ne_zero ha')]
  · simp [microsSince_same hpast, addTicks, ha', hb']

/-- The gap of a pin looks at the note of that pin, the time, the phases of the clock and `LATCH_US`. -/
theorem latchGapMet_congr {s t : State} {p : PinId} (hfell : t.fellAt.getD p.toNat none = s.fellAt.getD p.toNat none)
    (hnow : t.now = s.now) (hmhz : t.clkMhz = s.clkMhz) (hpast : t.clockPast = s.clockPast)
    (hparams : t.params = s.params) : latchGapMet t p = latchGapMet s p := by
  rw [latchGapMet, latchGapMet, hfell, hnow, hmhz, hpast, hparams]

/-! ### The notes of falls -/

/-- The note of a high pin after it is driven low is the time of the fall. -/
theorem notedFall_getD_same {p : PinId} {l : PinMask} {falls : List (Option Nat)} (hlen : falls.length = 16)
    (hl : l.getLsbD p.toNat = true) (t : Nat) : (notedFall p l t falls).getD p.toNat none = some t := by
  have hp : p.toNat < falls.length := hlen.symm ▸ p.isLt
  simp [notedFall, hl, hp]

/-- No other pin's note changes. -/
theorem notedFall_getD_other {p q : PinId} (h : q ≠ p) (l : PinMask) (t : Nat) (falls : List (Option Nat)) :
    (notedFall p l t falls).getD q.toNat none = falls.getD q.toNat none := by
  have hne : p.toNat ≠ q.toNat := fun he => h (BitVec.eq_of_toNat_eq he.symm)
  rw [notedFall]
  split
  · simp [hne]
  · rfl

/-! ### The first gap after power-up -/

/-- A command that would be ready but for its latch gap is refused for it (R181). -/
theorem beginTx_of_gapOwed {s : State} (g b e : Bool) {falls : List (Option Nat)}
    (ready : TxReady s.ports.pinIn s.ports.baseIn s.ports.lenIn { s with fellAt := falls })
    (owed : latchGapMet s s.ports.pinIn = false) : exec (.beginTx g b e) s = .refused .noLatchGap := by
  obtain ⟨-, hout⟩ := beginRefusesViolatedPreconditions g b e s
  obtain ⟨-, hroom⟩ := hout ready.output
  obtain ⟨-, hbuf⟩ := hroom ready.room
  obtain ⟨-, hclock⟩ := hbuf fun i hi => Option.isSome_iff_ne_none.mp (ready.buffer i hi)
  obtain ⟨-, hgap⟩ := hclock ready.clock
  exact hgap ready.low owed

/-- A pin with the note `x` in a list of equal notes, one for each pin. -/
theorem getD_replicate_pin (p : PinId) (x : Option Nat) : (List.replicate Config.nPins x).getD p.toNat none = x := by
  have hp : p.toNat < Config.nPins := p.isLt
  simp [hp]

/-- After power-up, `d` ticks on, with a command on the ports, the clock at its code, and a buffer in memory. -/
def poweredUp (d : Nat) (ports : Ports) (mem : Memory) : State :=
  { State.powerUp with now := d, clkMhz := ports.cpuMhz, ports := ports, mem := mem }

section
variable {d : Nat} {ports : Ports} {mem : Memory} (hc : ports.cpuMhz = 80 ∨ ports.cpuMhz = 160)
include hc

theorem latchGapMet_poweredUp (p : PinId) :
    latchGapMet (poweredUp d ports mem) p = decide (50 * ports.cpuMhz.toNat < d) := by
  have hne : ports.cpuMhz ≠ 0 := by obtain hc | hc := hc <;> rw [hc] <;> decide
  rw [latchGapMet_of_fell_at_one_rate (getD_replicate_pin p (some 0)) (List.forall_mem_nil _)]
  exact decide_eq_decide.mpr (and_iff_right hne)

/-- But for the gap, a command with a stored buffer is ready: the pins are low outputs (R214). -/
theorem txReady_poweredUp (hroom : ports.baseIn + ports.lenIn ≤ 2 ^ 32)
    (hbuf : ∀ i < ports.lenIn, (Memory.read mem (ports.baseIn + i)).isSome = true) {falls : List (Option Nat)}
    (hgap : latchGapMet { poweredUp d ports mem with fellAt := falls } ports.pinIn = true) :
    TxReady ports.pinIn ports.baseIn ports.lenIn { poweredUp d ports mem with fellAt := falls } where
  output := (BitVec.getLsbD_allOnes (v := 16)).trans (decide_eq_true ports.pinIn.isLt)
  room := hroom
  buffer := hbuf
  clock := hc
  low := BitVec.getLsbD_zero
  gap := hgap

end

/-- Settles O60: the gap is timed from power-up at one rate, and it is the one precondition that the early command
violates; in the reset state no pin has a fall noted. -/
theorem firstFrameNeedsGap : Obligations.FirstFrameNeedsGap := by
  refine ⟨fun g b e d ports mem hc hl hroom hbuf => ⟨fun hd => ?_, fun hd => ?_⟩, fun p d =>
    latchGapMet_of_not_fell (getD_replicate_pin p none)⟩
  · have hpassed := latchGapMet_of_not_fell (s := { poweredUp d ports mem with fellAt := State.reset.fellAt })
      (getD_replicate_pin ports.pinIn none)
    refine beginTx_of_gapOwed (s := poweredUp d ports mem) g b e (txReady_poweredUp hc hroom hbuf hpassed) ?_
    rw [latchGapMet_poweredUp hc]
    exact decide_eq_false (Nat.not_lt.mpr hd)
  · have hmet := (latchGapMet_poweredUp (mem := mem) hc ports.pinIn).trans (decide_eq_true hd)
    have ready : TxReady ports.pinIn ports.baseIn ports.lenIn (poweredUp d ports mem) :=
      txReady_poweredUp hc hroom hbuf hmet
    obtain ⟨th, v, hth, hv⟩ := ready.operands hl
    exact ⟨_, execBegin_of_ready (s := poweredUp d ports mem) ready hth hv, rfl⟩

/-! ### The gap after the last fall of a frame -/

/-- Pin `p` has fallen now, and all the clock's past phases are over. -/
structure FellNow (t : State) (p : PinId) : Prop where
  noted : t.fellAt.getD p.toNat none = some t.now
  phases : ∀ ph ∈ t.clockPast, ph.ended ≤ t.now

/-- FALL_END on a high pin notes its fall now, and that of no other pin. -/
theorem fellNow_of_fallEnd {x z : Bool} {s t : State} (hlen : s.fellAt.length = 16)
    (hpast : ∀ ph ∈ s.clockPast, ph.ended ≤ s.now) (hhigh : s.lvl.getLsbD s.pin.toNat = true)
    (h : exec (.fallEnd x z) s = .next t) :
    FellNow t s.pin ∧ t.now = s.now ∧ t.clkMhz = s.clkMhz ∧ t.clockPast = s.clockPast ∧ t.params = s.params ∧
      ∀ q : PinId, q ≠ s.pin → t.fellAt.getD q.toNat none = s.fellAt.getD q.toNat none := by
  cases (fallEndFinishes x z s).symm.trans h
  exact ⟨⟨notedFall_getD_same hlen hhigh s.now, hpast⟩, rfl, rfl, rfl, rfl,
    fun q hq => notedFall_getD_other hq s.lvl s.now s.fellAt⟩

/-- The gap `d` ticks later, at one rate. -/
theorem FellNow.latchGapMet_later {t : State} {p : PinId} (h : FellNow t p) (d : Nat) :
    latchGapMet { t with now := t.now + d } p = decide (t.clkMhz ≠ 0 ∧ t.params.latchUs * t.clkMhz.toNat < d) := by
  rw [latchGapMet_of_fell_at_one_rate (s := { t with now := t.now + d }) h.noted h.phases, Nat.add_sub_cancel_left]

/-- A `FREQ m` changes the clock's rate, and notes the phase that is over where the rate is another (R222). -/
theorem step_freq_clock {s u : State} {m : BitVec 8} {rest : List Input} (hi : s.inputs = .freq m :: rest)
    (hu : step s = .next u) :
    u.now = s.now ∧ u.clkMhz = m ∧ u.fellAt = s.fellAt ∧ u.params = s.params ∧
      u.clockPast = if m = s.clkMhz then s.clockPast else ⟨s.now, s.clkMhz⟩ :: s.clockPast := by
  rw [step_freq hi] at hu
  obtain rfl := inputFreq_next hu
  exact ⟨rfl, rfl, rfl, rfl, rfl⟩

/-- The gap with a `FREQ m` after `d` ticks and `d'` ticks after it (R222). -/
theorem FellNow.latchGapMet_across_freq {t u : State} {p : PinId} (h : FellNow t p) {d d' : Nat} {m : BitVec 8}
    (ha : t.clkMhz ≠ 0) (hm : m ≠ 0) (hu : step { t with now := t.now + d, inputs := [.freq m] } = .next u) :
    latchGapMet { u with now := u.now + d' } p =
      decide (t.params.latchUs * (t.clkMhz.toNat * m.toNat) < d * m.toNat + d' * t.clkMhz.toNat) := by
  obtain ⟨hnow, rfl, hfell, hparams, hpast⟩ := step_freq_clock rfl hu
  replace hnow : u.now = t.now + d := hnow
  have hnoted : u.fellAt.getD p.toNat none = some t.now := hfell ▸ h.noted
  rw [← show u.params = t.params from hparams]
  by_cases hsame : u.clkMhz = t.clkMhz
  · rw [if_pos hsame] at hpast
    have hscale : u.params.latchUs * (u.clkMhz.toNat * u.clkMhz.toNat) <
          d * u.clkMhz.toNat + d' * u.clkMhz.toNat ↔ u.params.latchUs * u.clkMhz.toNat < d + d' := by
      rw [← Nat.add_mul, ← Nat.mul_assoc, Nat.mul_lt_mul_right (Nat.pos_of_ne_zero (BitVec.toNat_ne_iff_ne.mpr hm))]
    rw [latchGapMet_of_fell_at_one_rate (s := { u with now := u.now + d' }) hnoted (hpast ▸ h.phases), ← hsame,
      decide_eq_decide, hscale, hnow, Nat.add_assoc, Nat.add_sub_cancel_left]
    exact and_iff_right hm
  · rw [if_neg hsame] at hpast
    rw [latchGapMet_of_fell_at_two_rates (s := { u with now := u.now + d' }) hnoted hpast h.phases
      (Nat.le_add_right _ _) ha hm, hnow, Nat.add_sub_cancel_left, Nat.add_sub_cancel_left]

/-- Settles O47: FALL_END notes the fall of the high pin now, and the ticks since are timed at one rate, or at two where a
`FREQ` has changed it; no other pin's note changes. -/
theorem latchGapTimedFromLastFall : Obligations.LatchGapTimedFromLastFall := by
  intro x z s t hlen hpast hhigh h
  obtain ⟨fell, hnow, hmhz, hphases, hparams, hothers⟩ := fellNow_of_fallEnd hlen hpast hhigh h
  refine ⟨fun d => ?_, fun d d' m u ha hm hu => ?_, fun q d hq => ?_⟩
  · rw [fell.latchGapMet_later, hmhz, hparams]
  · rw [← hmhz] at ha
    rw [fell.latchGapMet_across_freq ha hm hu, hmhz, hparams]
  · exact latchGapMet_congr (hothers q hq) (congrArg (· + d) hnow) hmhz hphases hparams

end Sys2Proof.Machine
end

section
/-! PROOFS of the family `44_line_protocol`, second part: what a receiver takes the pulses of a waveform for (R166, R167,
R172), and the level of the pin read off the trace (R173). -/

namespace Sys2Proof.Machine

/-! ### The frame of a transmission -/

/-- Settles O27: each row of the thresholds (`calibrate_some`), with each bit. -/
theorem pulsesClassifyAsTheirBits : Obligations.PulsesClassifyAsTheirBits := by
  intro m th b h
  obtain ⟨rfl, rfl⟩ | ⟨rfl, rfl⟩ := calibrate_some h <;> cases b <;> rfl

/-- No pulse is high for longer than its period (R106). -/
theorem target_le_period {m : BitVec 8} {th : Thresholds} (h : calibrate m = some th) (b : Bool) :
    (targetOf th b).toNat ≤ th.period.toNat := by
  obtain ⟨rfl, rfl⟩ | ⟨rfl, rfl⟩ := calibrate_some h <;> cases b <;> decide

/-- At a supported clock a pulse is low for less than a microsecond (R106, R172). -/
theorem period_sub_target_lt {m : BitVec 8} {th : Thresholds} (h : calibrate m = some th) (b : Bool) :
    (th.period - targetOf th b).toNat < m.toNat := by
  obtain ⟨rfl, rfl⟩ | ⟨rfl, rfl⟩ := calibrate_some h <;> cases b <;> decide

/-- The pulses of a waveform: that of the first bit, and those of the waveform a period later. -/
theorem pulsesOf_waveform_cons (m : PinMask) (th : Thresholds) (r : Ticks) (b : Bool) (bits : List Bool) :
    pulsesOf (waveform m th r (b :: bits)) =
      ⟨r, r + targetOf th b⟩ :: pulsesOf (waveform m th (r + th.period) bits) := rfl

/-- The pulse is high for its bit's target (R97). -/
theorem high_of_target (th : Thresholds) (r : Ticks) (b : Bool) :
    (Pulse.mk r (r + targetOf th b)).high = targetOf th b :=
  add_sub_cancel_left r (targetOf th b)

theorem writes_waveform (m : PinMask) (th : Thresholds) (r : Ticks) (bits : List Bool) :
    (waveform m th r bits).map (fun e => (e.op, e.mask)) = bits.flatMap fun _ => [(.set, m), (.clr, m)] := by
  induction bits generalizing r with
  | nil => rfl
  | cons b bits ih => rw [waveform, List.map_cons, List.map_cons, ih, List.flatMap_cons]; rfl

theorem highs_waveform (m : PinMask) (th : Thresholds) (r : Ticks) (bits : List Bool) :
    (pulsesOf (waveform m th r bits)).map Pulse.high = bits.map (targetOf th) := by
  induction bits generalizing r with
  | nil => rfl
  | cons b bits ih => rw [pulsesOf_waveform_cons, List.map_cons, ih, high_of_target, List.map_cons]

/-- Each pulse of a waveform rises a period after the one before (R97, R138). -/
theorem periods_waveform (m : PinMask) (th : Thresholds) (r : Ticks) (bits : List Bool) :
    ∀ d ∈ periodsOf (pulsesOf (waveform m th r bits)), d = th.period := by
  induction bits generalizing r with
  | nil => nofun
  | cons b bits ih =>
    cases bits with
    | nil => nofun
    | cons b' bits =>
      refine List.forall_mem_cons.mpr ⟨?_, ih (r + th.period)⟩
      exact add_sub_cancel_left r th.period

/-- Between two of its pulses the pin is low for what the first one's target leaves of the period. -/
theorem lows_waveform (m : PinMask) (th : Thresholds) (r : Ticks) (bits : List Bool) :
    ∀ d ∈ lowTimesOf (pulsesOf (waveform m th r bits)), ∃ b, d = th.period - targetOf th b := by
  induction bits generalizing r with
  | nil => nofun
  | cons b bits ih =>
    cases bits with
    | nil => nofun
    | cons b' bits =>
      refine List.forall_mem_cons.mpr ⟨⟨b, ?_⟩, ih (r + th.period)⟩
      show r + th.period - (r + targetOf th b) = _
      exact add_sub_add_left_eq_sub th.period (targetOf th b) r

/-- At a supported clock, with a latch gap of a microsecond or more, a waveform is a well-formed frame (R172). -/
theorem wellFormedFrame_waveform {c : BitVec 8} {th : Thresholds} (hc : calibrate c = some th) {q : Params}
    (hq : 1 ≤ q.latchUs) (m : PinMask) (r : Ticks) (bits : List Bool) :
    WellFormedFrame q c.toNat m bits (waveform m th r bits) where
  writes := writes_waveform m th r bits
  classes := by
    calc (pulsesOf (waveform m th r bits)).map (fun k => classify k.high.toNat c.toNat)
        = ((pulsesOf (waveform m th r bits)).map Pulse.high).map fun h => classify h.toNat c.toNat := by
          rw [List.map_map]; rfl
      _ = bits.map fun b => classify (targetOf th b).toNat c.toNat := by rw [highs_waveform, List.map_map]; rfl
      _ = bits.map fun b => if b then .one else .zero :=
          List.map_congr_left fun b _ => pulsesClassifyAsTheirBits c th b hc
  periods d hd := by
    obtain ⟨-, -, hrows⟩ := thresholdsWithinWindows
    obtain ⟨-, -, -, -, -, -, -, hperiod⟩ := hrows c th hc
    rw [periods_waveform m th r bits d hd]
    exact hperiod
  lows d hd := by
    obtain ⟨b, rfl⟩ := lows_waveform m th r bits d hd
    exact Nat.lt_of_lt_of_le (period_sub_target_lt hc b) (Nat.le_mul_of_pos_left _ hq)

/-- Settles O57: the frame is the waveform of the whole transmission. -/
theorem framesAreWellFormed : Obligations.FramesAreWellFormed := by
  intro s p a l bytes th last h hq
  obtain ⟨t, hrun, -, -, htrace, -⟩ := transmissionProducesExactWaveform s p a l bytes th last h
  exact ⟨t, _, hrun, htrace, wellFormedFrame_waveform h.clock hq _ _ _⟩

/-! ### The level of the pin along a waveform -/

/-- Later writes, put on top of a trace, are read from the level that the trace leaves. -/
theorem levelAt_append (p : PinId) (before : Bool) (c0 : Ticks) (later earlier : List TraceEvent) (t : Ticks) :
    levelAt p before c0 (later ++ earlier) t = levelAt p (levelAt p before c0 earlier t) c0 later t := by
  unfold levelAt
  rw [List.find?_append]
  cases later.find? fun e => e.mask.getLsbD p.toNat && decide (e.c - c0 ≤ t - c0) <;> rfl

/-- Within one turn from `c0` the distances of ticks are their order. -/
theorem dist_le_dist_iff (c0 : Ticks) {m n : Nat} (hm : m < 2 ^ 32) (hn : n < 2 ^ 32) :
    c0 + BitVec.ofNat 32 m - c0 ≤ c0 + BitVec.ofNat 32 n - c0 ↔ m ≤ n := by
  rw [add_sub_cancel_left, add_sub_cancel_left, BitVec.le_def, BitVec.toNat_ofNat, BitVec.toNat_ofNat,
    Nat.mod_eq_of_lt hm, Nat.mod_eq_of_lt hn]

/-- One write on the pin: the level is as before up to its tick, and its own from there on. -/
theorem levelAt_write (p : PinId) (before : Bool) (c0 : Ticks) (op : GpioOp) {x t : Nat} (hx : x < 2 ^ 32)
    (ht : t < 2 ^ 32) :
    levelAt p before c0 [⟨op, gpioMask p, c0 + BitVec.ofNat 32 x⟩] (c0 + BitVec.ofNat 32 t) =
      if x ≤ t then op == .set else before := by
  have hd := dist_le_dist_iff c0 hx ht
  rw [levelAt, List.find?_cons, gpioMask_getLsbD]
  by_cases h : x ≤ t
  · rw [decide_eq_true rfl, decide_eq_true (hd.mpr h), if_pos h]
    rfl
  · rw [decide_eq_true rfl, decide_eq_false (mt hd.mp h), if_neg h]
    rfl

section
variable (p : PinId) (th : Thresholds) (c0 : Ticks)

/-- A pulse on top of what a trace leaves: high from its rise to its fall, and low from there on. -/
theorem levelAt_pulse (before : Bool) {x y t : Nat} (hxy : x ≤ y) (hy : y < 2 ^ 32) (ht : t < 2 ^ 32) :
    levelAt p before c0
        [⟨.clr, gpioMask p, c0 + BitVec.ofNat 32 y⟩, ⟨.set, gpioMask p, c0 + BitVec.ofNat 32 x⟩]
        (c0 + BitVec.ofNat 32 t) =
      if t < x then before else decide (t < y) := by
  rw [← List.singleton_append, levelAt_append, levelAt_write p before c0 .set (by omega) ht,
    levelAt_write p _ c0 .clr hy ht]
  by_cases htx : t < x
  · rw [if_neg (by omega), if_neg (by omega), if_pos htx]
  · rw [if_neg htx, if_pos (Nat.not_lt.mp htx)]
    by_cases hty : t < y
    · rw [if_neg (by omega), decide_eq_true hty]
      rfl
    · rw [if_pos (by omega), decide_eq_false hty]
      rfl

/-- The waveform's later pulses are read from the level that its first pulse leaves. -/
theorem levelAt_waveform_cons (before : Bool) (wait : Nat) (b : Bool) (bits : List Bool) (t : Ticks) :
    levelAt p before c0 (waveform (gpioMask p) th (c0 + BitVec.ofNat 32 wait) (b :: bits)).reverse t =
      levelAt p
        (levelAt p before c0
          [⟨.clr, gpioMask p, c0 + BitVec.ofNat 32 (wait + (targetOf th b).toNat)⟩,
            ⟨.set, gpioMask p, c0 + BitVec.ofNat 32 wait⟩] t)
        c0 (waveform (gpioMask p) th (c0 + BitVec.ofNat 32 (wait + th.period.toNat)) bits).reverse t := by
  rw [← levelAt_append, waveform, BitVec.ofNat_add, BitVec.ofNat_add, BitVec.ofNat_toNat, BitVec.ofNat_toNat,
    BitVec.setWidth_eq, BitVec.setWidth_eq, BitVec.add_assoc, BitVec.add_assoc, List.reverse_cons, List.reverse_cons,
    List.append_assoc, List.singleton_append]

variable {th} {m : BitVec 8} (hc : calibrate m = some th)
include hc

/-- Before the first rise the level is what it was. -/
theorem levelAt_before_waveform {wait d : Nat} (before : Bool) {bits : List Bool}
    (hturn : wait + bits.length * th.period.toNat < 2 ^ 32) (hd : d < wait) :
    levelAt p before c0 (waveform (gpioMask p) th (c0 + BitVec.ofNat 32 wait) bits).reverse
      (c0 + BitVec.ofNat 32 d) = before := by
  induction bits generalizing wait before with
  | nil => rfl
  | cons b bits ih =>
    have hle := target_le_period hc b
    rw [List.length_cons, Nat.succ_mul] at hturn
    rw [levelAt_waveform_cons, ih _ (by omega) (by omega), levelAt_pulse p c0 before (by omega) (by omega) (by omega),
      if_pos hd]

/-- In the period of pulse `n` the level is high until the bit's target. -/
theorem levelAt_in_waveform {wait n d : Nat} (before : Bool) {b : Bool} {bits : List Bool}
    (hturn : wait + bits.length * th.period.toNat < 2 ^ 32) (hb : bits[n]? = some b) (hd : d < th.period.toNat) :
    levelAt p before c0 (waveform (gpioMask p) th (c0 + BitVec.ofNat 32 wait) bits).reverse
      (c0 + BitVec.ofNat 32 (wait + n * th.period.toNat + d)) = decide (d < (targetOf th b).toNat) := by
  induction bits generalizing wait n before with
  | nil => cases hb
  | cons b' bits ih =>
    rw [List.length_cons, Nat.succ_mul] at hturn
    rw [levelAt_waveform_cons]
    cases n with
    | zero =>
      cases hb
      have hle := target_le_period hc b
      rw [Nat.zero_mul, Nat.add_zero, levelAt_before_waveform p c0 hc _ (by omega) (by omega),
        levelAt_pulse p c0 before (by omega) (by omega) (by omega), if_neg (by omega), decide_eq_decide]
      exact Nat.add_lt_add_iff_left
    | succ n =>
      rw [Nat.succ_mul, Nat.add_comm (n * _), ← Nat.add_assoc]
      exact ih _ (by omega) hb

end

/-- Settles O58: both clauses by induction over the bits, one pulse put on top of the next. -/
theorem waveformLevels : Obligations.WaveformLevels :=
  fun _ _ p before c0 _ _ hc hturn =>
    ⟨fun _ hd => levelAt_before_waveform p c0 hc before hturn hd,
      fun _ _ _ hb hd => levelAt_in_waveform p c0 hc before hturn hb hd⟩

end Sys2Proof.Machine
end

section
/-! PROOFS of the family `60_exceptions`: a command in a step with `rst` high is lost (R183, R210). -/

namespace Sys2Proof.Machine

/-- A step with `rst` high accepts no command, so it takes no sample a `CC v` has set. -/
theorem takeSample_of_rst {s : State} (hr : s.ports.rst = true) : takeSample s = s := by
  rw [takeSample]
  cases s.ccNext with
  | none => rfl
  | some v => exact if_pos (by rw [hr, Bool.or_true])

/-- With `rst` high the edge is the reset of R210. -/
theorem engineEdge_of_rst {s : State} (hr : s.ports.rst = true) : engineEdge s = .next (resetEdge s) := if_pos hr

/-- Settles O33: no sample is taken, and the edge with the command on its ports is the reset's. -/
theorem resetWinsOverTransmit : Obligations.ResetWinsOverTransmit := by
  intro p a l s hr ha hl
  have hedge := engineEdge_of_rst (s := withPorts (commandPorts p a l s) s) hr
  show execTransmit p a l s = _
  rw [execTransmit, takeSample_of_rst hr, present_of_lt p ha hl, hedge]
  rfl

end Sys2Proof.Machine
end

section
/-! PROOFS of the family `70_reset_and_hazards`: the edge with `rst` high, and the first edge after it (R210, R212). -/

namespace Sys2Proof.Machine

/-- In `IDLE` the engine chooses among NOP_IDLE, RETURN0 and BEGIN by the ports alone (R120). -/
theorem engineCase_of_idle {s : State} (f : s.fsm = .idle) :
    engineCase s =
      if s.ports.start = false then execNopIdle s else if s.ports.lenIn = 0 then execReturn0 s else execBegin s := by
  rw [engineCase, f]

/-- Settles O8: with `rst` high the step is `resetEdge`, and with `rst` low it is the engine's choice in `IDLE`, made after a
clock edge that leaves `S` and the ports alone. (The plain name `resetEdge` is the model's.) -/
theorem resetEdge_spec : Obligations.ResetEdge := by
  refine ⟨fun _ => step_of_rst, fun s hi hr f => ?_⟩
  rw [step_eq_engineCase hi hr, engineCase_of_idle (s := clockEdge s) f]
  rfl

end Sys2Proof.Machine
end
